-- ==== Sys2Proof/Word.lean ====
section
/-! DEFINITION. Word.lean: the word types of the model, under the widths the spec gives them
(00_scope.md R7 to R9, 10_state.md R20 to R32). -/

namespace Sys2Proof

/-- A byte of memory (20_memory.md R61). -/
abbrev Byte := BitVec 8

/-- A 64-bit register or mask: "all masks in this spec are 64 bits wide" (00_scope.md R9). -/
abbrev Word64 := BitVec 64

/-- One XMM register, or one upper half of a YMM register (10_state.md R30, R32). -/
abbrev Vec128 := BitVec 128

/-- One x87 data register (10_state.md R29). -/
abbrev Reg80 := BitVec 80

/-- The sixteen XMM registers, or the sixteen upper halves of the YMM registers. -/
abbrev VecFile := Vector Vec128 16

end Sys2Proof
end

