-- ==== Sys2Proof/Syntax.lean ====
section
/-! DEFINITION. Syntax.lean: the instructions, one constructor of `Instr` per row of spec/opcode_table.json, with every choice
their bytes leave (30_encoding.md R100 to R114): the legacy bytes before the opcode in their order, REX.X and REX.B, and the
addressing form of the ModRM byte. Nothing of an encoding is dropped, so that a byte string has one instruction and an
instruction one byte string. -/

namespace Sys2Proof

/-- MODE: the five operating modes (10_state.md R41); `prot` is protected mode. -/
inductive Mode where
  | real
  | prot
  | v8086
  | compat
  | long64
  deriving DecidableEq, Repr

/-- The six segment registers (10_state.md R42). -/
inductive SegName where
  | cs
  | ds
  | es
  | fs
  | gs
  | ss
  deriving DecidableEq, Repr

/-- The address size `asz` of 30_encoding.md R107. -/
inductive AddrSize where
  | a16
  | a32
  | a64
  deriving DecidableEq, Repr

/-- A legacy byte before the opcode (30_encoding.md R105, R106). -/
inductive Pfx where
  /-- A segment override: 2EH (CS), 3EH (DS), 26H (ES), 64H (FS), 65H (GS), 36H (SS). -/
  | seg (s : SegName)
  /-- 67H, the address-size byte. -/
  | addrSize
  /-- F0H, LOCK. -/
  | lock
  /-- 66H. -/
  | opSize
  /-- F3H. -/
  | repF3
  /-- F2H. -/
  | repF2
  deriving DecidableEq, Repr

/-- The bits of a REX byte `0100WRXB` that a form leaves open (R103): W is in the constructor of `Instr`, R must be 0 (R116 (f)). -/
structure Rex where
  x : Bool
  b : Bool
  deriving DecidableEq, Repr

/-- The displacement of a form with mod = 0 (none), 1 (disp8) or 2 (`w` bits) (30_encoding.md R109 to R114). -/
inductive Disp (w : Nat) where
  | none
  | d8 (v : BitVec 8)
  | full (v : BitVec w)
  deriving DecidableEq, Repr

/-- The memory operand as the ModRM byte, the SIB byte and the displacement spell it (30_encoding.md R108 to R112). -/
inductive MemOp where
  /-- asz = 16, a row of the table of R112 (`rm` = 6 only with a displacement). -/
  | base16 (rm : BitVec 3) (d : Disp 16)
  /-- asz = 16, mod = 0, rm = 6: disp16 alone (R112). -/
  | abs16 (d : BitVec 16)
  /-- asz = 32 or 64, no SIB byte: one register (R109, R111; `rm` is not 4, and 5 only with a displacement). -/
  | base (rm : BitVec 3) (d : Disp 32)
  /-- asz = 32 or 64, mod = 0, rm = 5: disp32 alone, relative to RIP_next in 64-bit mode (R109, R111). -/
  | dispRip (d : BitVec 32)
  /-- asz = 32 or 64, a SIB byte with a base register (R110; `base` = 5 only with a displacement). -/
  | sib (scale : BitVec 2) (index base : BitVec 3) (d : Disp 32)
  /-- asz = 32 or 64, a SIB byte with mod = 0 and base = 5: index and disp32 (R110). -/
  | sibNoBase (scale : BitVec 2) (index : BitVec 3) (d : BitVec 32)
  deriving DecidableEq, Repr

/-- The four instruction forms (30_encoding.md R100, R115). `rex`, where it is an Option, is a REX byte with W = 0. -/
inductive Instr where
  /-- `0F AE /5`, XRSTOR mem (40_xrstor.md R130). -/
  | xrstor (pfx : List Pfx) (rex : Option Rex) (mem : MemOp)
  /-- `REX.W+ 0F AE /5`, XRSTOR64 mem (40_xrstor.md R131). -/
  | xrstor64 (pfx : List Pfx) (rex : Rex) (mem : MemOp)
  /-- `0F C7 /5`, XSAVES mem (41_xsaves.md R170). -/
  | xsaves (pfx : List Pfx) (rex : Option Rex) (mem : MemOp)
  /-- `REX.W+ 0F C7 /5`, XSAVES64 mem (41_xsaves.md R171). -/
  | xsaves64 (pfx : List Pfx) (rex : Rex) (mem : MemOp)
  deriving DecidableEq, Repr

/-- What decoding depends on beside the bytes: MODE and CS.D (30_encoding.md R104, R107). -/
structure DecodeCtx where
  mode : Mode
  csD  : Bool
  deriving DecidableEq, Repr

end Sys2Proof
end

