-- ==== Sys2Proof/Machine/Format.lean ====
section
/-! DEFINITION. Machine/Format.lean: what the decoder, the well-formedness check and the meanings read off an instruction: its
parts, the address size its bytes select (30_encoding.md R107) and its length (R101). -/

namespace Sys2Proof

/-- The legacy bytes of an instruction. -/
def Instr.pfxs : Instr → List Pfx
  | .xrstor p _ _ => p
  | .xrstor64 p _ _ => p
  | .xsaves p _ _ => p
  | .xsaves64 p _ _ => p

/-- The memory operand of an instruction. -/
def Instr.mem : Instr → MemOp
  | .xrstor _ _ m => m
  | .xrstor64 _ _ m => m
  | .xsaves _ _ m => m
  | .xsaves64 _ _ m => m

/-- The REX byte of an instruction, where it has one. -/
def Instr.rex? : Instr → Option Rex
  | .xrstor _ r _ => r
  | .xrstor64 _ r _ => some r
  | .xsaves _ r _ => r
  | .xsaves64 _ r _ => some r

/-- The form writes the XSAVE area (XSAVES, XSAVES64); the others read it. -/
def Instr.saves : Instr → Bool
  | .xrstor _ _ _ | .xrstor64 _ _ _ => false
  | .xsaves _ _ _ | .xsaves64 _ _ _ => true

/-- `w`: the form has REX.W (30_encoding.md R103; 20_memory.md R73). -/
def Instr.wide : Instr → Bool
  | .xrstor _ _ _ | .xsaves _ _ _ => false
  | .xrstor64 _ _ _ | .xsaves64 _ _ _ => true

/-- X and B are 0 when there is no REX byte (30_encoding.md R110). -/
def rexBits (r : Option Rex) : Rex := r.getD ⟨false, false⟩

/-- The address size in bits. -/
def AddrSize.bits : AddrSize → Nat
  | .a16 => 16
  | .a32 => 32
  | .a64 => 64

/-- `asz` (30_encoding.md R107). -/
def addrSize (cx : DecodeCtx) (pfx : List Pfx) : AddrSize :=
  let override := pfx.contains .addrSize
  match cx.mode with
  | .long64 => if override then .a32 else .a64
  | .prot | .compat => if cx.csD != override then .a32 else .a16
  | .real | .v8086 => if override then .a32 else .a16

/-- Bytes of a displacement. -/
def Disp.bytes {w : Nat} : Disp w → Nat
  | .none => 0
  | .d8 _ => 1
  | .full _ => w / 8

/-- Bytes after the ModRM byte: SIB and displacement (30_encoding.md R101, R109 to R112). -/
def MemOp.bytes : MemOp → Nat
  | .base16 _ d => d.bytes
  | .abs16 _ => 2
  | .base _ d => d.bytes
  | .dispRip _ => 4
  | .sib _ _ _ d => 1 + d.bytes
  | .sibNoBase _ _ _ => 5

/-- `len` (30_encoding.md R101): legacy bytes and REX, two opcode bytes, ModRM, SIB and displacement. -/
def formLength (pfx : List Pfx) (rex : Option Rex) (m : MemOp) : Nat :=
  pfx.length + (if rex.isSome then 1 else 0) + 2 + 1 + m.bytes

/-- The length of an instruction in bytes. -/
def Instr.length (i : Instr) : Nat := formLength i.pfxs i.rex? i.mem

/-- "LOCK, 66H, F3H or F2H": the bytes that make the instruction raise #UD (30_encoding.md R106). -/
def Pfx.forbidden : Pfx → Bool
  | .lock | .opSize | .repF3 | .repF2 => true
  | .seg _ | .addrSize => false

end Sys2Proof
end

