-- ==== Sys2Proof/Config.lean ====
section
/-! DEFINITION. Config.lean: what is fixed per processor (the record `Cfg` of 00_scope.md R5, R6, plain data, so that a
statement quantifies over it and a run can choose it: log 1), and the free values the spec calls `draw`
(00_scope.md R10): constants without a body, applied to the counter `State.draws` (log 10). -/

namespace Sys2Proof

/-- `Cfg.XINUSE_AFTER_INIT`: what XINUSE[i] holds after XRSTOR initialises component i (R6, decision D10). -/
inductive InitTracking where
  | zero
  | any
  deriving DecidableEq, Repr

/-- `Cfg.ALIGN_BASIS`: the address the 64-byte test is made on (R6, decision D4). -/
inductive AlignBasis where
  | linear
  | effective
  deriving DecidableEq, Repr

/-- A state component `id >= 2` of the extended region: `Cfg.STD_OFF(id)`, `Cfg.SIZE(id)`, `Cfg.ALIGN64(id)` (R6). -/
structure ExtComp where
  id      : Nat
  stdOff  : Nat
  size    : Nat
  align64 : Bool
  deriving DecidableEq, Repr

/-- The configuration record of 00_scope.md R5 and R6. -/
structure Cfg where
  /-- `CPUID.01H:ECX.XSAVE[bit 26]`. -/
  xsave  : Bool
  /-- `CPUID.(EAX=0DH,ECX=1):EAX.XSAVEC[bit 1]`. -/
  xsavec : Bool
  /-- `CPUID.(EAX=0DH,ECX=1):EAX.XSS[bit 3]`. -/
  xss    : Bool
  /-- `Cfg.COMPONENTS`, the component numbers the processor implements. -/
  components : List Nat
  /-- `Cfg.MXCSR_RSVD`, the reserved bits of MXCSR. -/
  mxcsrRsvd : BitVec 32
  /-- `Cfg.MXCSR_MASK`, what XSAVES stores in the MXCSR_MASK field. -/
  mxcsrMask : BitVec 32
  /-- `Cfg.HDR_OFF`. -/
  hdrOff : Nat
  /-- `Cfg.EXT_OFF`. -/
  extOff : Nat
  /-- The components `i >= 2` in increasing `i`. -/
  ext : List ExtComp
  /-- `Cfg.AC_ON_MISALIGN`, bit k the answer at `LAXA mod 64 = k`; `none`: left open, a draw (R67, D5). -/
  acOnMisalign : Option (BitVec 64)
  /-- `Cfg.XINUSE_AFTER_INIT`. -/
  xinuseAfterInit : InitTracking
  /-- `Cfg.ALIGN_BASIS`. -/
  alignBasis : AlignBasis
  /-- `Cfg.VA_BITS`, the implemented linear-address bits (R63). -/
  vaBits : Nat
  deriving DecidableEq, Repr

/-- The defaults of the table of R6, with the three enumeration bits of R5 as the spec's examples have them (log 7). -/
def Cfg.standard : Cfg where
  xsave := true
  xsavec := true
  xss := true
  components := [0, 1, 2]
  mxcsrRsvd := 0xFFFF0000
  mxcsrMask := 0x0000FFFF
  hdrOff := 512
  extOff := 576
  ext := [⟨2, 576, 256, false⟩]
  acOnMisalign := none
  xinuseAfterInit := .zero
  alignBasis := .linear
  vaBits := 48

/-! ### Free values

`t` is the value of the counter `State.draws` at the instruction that draws; the other argument says which value of that
instruction is drawn. Nothing in Lean can evaluate them. -/

/-- `Skip(i)` of 41_xsaves.md R176, before its two conditions (decision D22). -/
opaque Config.skipDraw (t i : Nat) : Bool

/-- A reserved byte of the x87 image, by its area offset (20_memory.md R73, decision D21). -/
opaque Config.reservedDraw (t off : Nat) : Byte

/-- FCS after a load with REX.W (20_memory.md R73, decision D19). -/
opaque Config.fcsDraw (t : Nat) : BitVec 16

/-- FDS after a load with REX.W (20_memory.md R73, decision D19). -/
opaque Config.fdsDraw (t : Nat) : BitVec 16

/-- `InitTrack(i)` with `XINUSE_AFTER_INIT = any` (40_xrstor.md R146, decision D10). -/
opaque Config.initTrackDraw (t i : Nat) : Bool

/-- #AC (true) or #GP (false) where `AC_ON_MISALIGN` is left open (20_memory.md R67, decision D5). -/
opaque Config.acDraw (t : Nat) : Bool

/-- XMM[k] after a late exception of XRSTOR (40_xrstor.md R147, decision D7). -/
opaque Config.lateXmm (t k : Nat) : Vec128

/-- YMM_Hi128[k] after a late exception of XRSTOR (R147). -/
opaque Config.lateYmmHi (t k : Nat) : Vec128

/-- ST[k] after a late exception of XRSTOR (R147). -/
opaque Config.lateSt (t k : Nat) : Reg80

/-- FCW, FSW, FTW, FOP, FIP, FCS, FDP, FDS (field 0 to 7, its low bits) after a late exception of XRSTOR (R147). -/
opaque Config.lateX87Field (t field : Nat) : Word64

/-- MXCSR after a late exception of XRSTOR (R147). -/
opaque Config.lateMxcsr (t : Nat) : BitVec 32

/-- XINUSE[i] after a late exception of XRSTOR, before `INV_XINUSE` restricts it (R147). -/
opaque Config.lateInuse (t i : Nat) : Bool

/-- XMODIFIED[i] after a late exception of XRSTOR (R147). -/
opaque Config.lateModified (t i : Nat) : Bool

/-- Whether the byte at this area offset holds its new value after a late exception of XSAVES (41_xsaves.md R182). -/
opaque Config.lateByteNew (t off : Nat) : Bool

end Sys2Proof
end

