-- ==== Sys2Proof/Machine/State.lean ====
section
/-! DEFINITION. Machine/State.lean: the state of the machine as plain data (10_state.md R20 to R44), the parameters and inputs the
spec's rules read (log 1), the reasons a step can stop, and the state after reset (R44; log 5, 6, 7). -/

namespace Sys2Proof.Machine

open Sys2Proof

/-! ### Parts of the state -/

/-- x87 state, component 0 (10_state.md R29). -/
structure X87 where
  fcw : BitVec 16
  fsw : BitVec 16
  /-- Abridged tag word: bit j = 1, physical register j is not empty. -/
  ftw : BitVec 8
  fop : BitVec 11
  fip : BitVec 64
  fcs : BitVec 16
  fdp : BitVec 64
  fds : BitVec 16
  /-- ST[0..7], stack order. -/
  st  : Vector Reg80 8
  deriving DecidableEq, Repr

/-- An inclusive range of addresses or offsets, an input of the environment. -/
structure Range where
  lo : Nat
  hi : Nat
  deriving DecidableEq, Repr

/-- The environment's predicate `InLimit` for a segment, as data (20_memory.md R62, log 13). -/
inductive LimitForm where
  /-- Offsets 0 to the limit are inside. -/
  | upToLimit
  /-- The offsets of these ranges are inside (an expand-down segment, a null selector). -/
  | ranges (rs : List Range)
  deriving DecidableEq, Repr

/-- A segment register (10_state.md R42). The spec gives its fields no widths: selector 16, base 64 and limit 32 bits are PRESUMED
(log 39). -/
structure Seg where
  selector : BitVec 16
  base     : Word64
  limit    : BitVec 32
  form     : LimitForm
  deriving DecidableEq, Repr

/-- The six segment registers. -/
structure Segs where
  cs : Seg
  ds : Seg
  es : Seg
  fs : Seg
  gs : Seg
  ss : Seg
  deriving DecidableEq, Repr

/-- XRSTOR_INFO, the 4-tuple XRSTOR records (10_state.md R38). -/
structure XrstorInfo where
  cpl      : BitVec 2
  vmxnr    : Bool
  laxa     : Word64
  compmask : Word64
  deriving DecidableEq, Repr

/-- The kind of a memory access (20_memory.md R81). -/
inductive Access where
  | read
  | write
  deriving DecidableEq, Repr

/-- A range of linear addresses whose translation fails (20_memory.md R81): for these accesses (`none`: both) and at the CPLs
whose bit is set. -/
structure XlatFault where
  range  : Range
  access : Option Access
  cpls   : BitVec 4
  code   : BitVec 32
  deriving DecidableEq, Repr

/-- A range another agent accesses during the step (20_memory.md R83); `writes`: it writes there. -/
structure AgentAccess where
  range  : Range
  writes : Bool
  deriving DecidableEq, Repr

/-- The inputs of the environment, fixed for a run (20_memory.md R69, R81, R83, R87). -/
structure Env where
  /-- `Translate`: the first range that applies gives the fault code; with none, the translation succeeds. -/
  xlat        : List XlatFault
  /-- Addresses the environment marks as non-ordinary memory. -/
  nonOrdinary : List Range
  /-- What other agents access during the step. -/
  others      : List AgentAccess
  deriving DecidableEq, Repr

/-- The program text: bytes laid out contiguously from a linear start address (10_state.md R43, 70_reset_and_hazards.md R251). -/
structure Text where
  start : Nat
  bytes : List Byte
  deriving DecidableEq, Repr

/-- Memory: the bytes that are not what an unlisted address reads as, by strictly rising linear address (10_state.md R43). -/
abbrev Memory := List Host.Cell

/-! ### The state -/

/-- Everything the spec gives the machine, and the model's own counter of free values. -/
structure State where
  /-- General registers, 0 to 15 = RAX, RCX, RDX, RBX, RSP, RBP, RSI, RDI, r8 to r15 (R20). -/
  gprs       : Vector Word64 16
  /-- RIP; EIP is its low 32 bits (R21). -/
  rip        : Word64
  /-- EFLAGS (R22). -/
  eflags     : BitVec 32
  /-- CR0 (R23). -/
  cr0        : Word64
  /-- CR4 (R24). -/
  cr4        : Word64
  /-- IA32_EFER (R41). -/
  efer       : Word64
  /-- XCR0 (R25). -/
  xcr0       : Word64
  /-- IA32_XSS (R26). -/
  xss        : Word64
  /-- x87 state (R29). -/
  x87        : X87
  /-- XMM0 to XMM15 (R30). -/
  xmm        : VecFile
  /-- MXCSR (R31). -/
  mxcsr      : BitVec 32
  /-- YMM_Hi128[0..15] (R32). -/
  ymmHi      : VecFile
  /-- XINUSE (R35). -/
  xinuse     : Word64
  /-- XMODIFIED, one bit per component (R36); held as 64 bits (log 39). -/
  xmodified  : Word64
  /-- XRSTOR_INFO; `none`: no XRSTOR has completed (R38). -/
  xrstorInfo : Option XrstorInfo
  /-- CPL (R39). -/
  cpl        : BitVec 2
  /-- VMXNR (R40). -/
  vmxnr      : Bool
  /-- MODE (R41). -/
  mode       : Mode
  /-- Segment registers (R42). -/
  segs       : Segs
  /-- CS.D (R42, 30_encoding.md R107). -/
  csD        : Bool
  /-- CS.L (R41, R42). -/
  csL        : Bool
  /-- Mem (R43). -/
  mem        : Memory
  /-- The configuration of the processor; no step changes it (00_scope.md R5, R6; log 1). -/
  cfg        : Cfg
  /-- The environment; no step changes it (log 1). -/
  env        : Env
  /-- The program text; no step changes it (R43, log 2). -/
  text       : Text
  /-- The model's own: free values drawn so far (log 10). -/
  draws      : Nat
  deriving DecidableEq, Repr

/-! ### Why a step stops -/

/-- The six exceptions (60_exceptions.md R200). -/
inductive Exc where
  /-- Invalid opcode. -/
  | ud
  /-- Device not available. -/
  | nm
  /-- Stack-segment fault. -/
  | ss
  /-- General protection. -/
  | gp
  /-- Page fault. -/
  | pf
  /-- Alignment check. -/
  | ac
  deriving DecidableEq, Repr

/-- The machine stops with a fault. -/
inductive Fault where
  /-- `Fault(#XX, code, info)` of 60_exceptions.md R213, raised by the meanings of all four forms: the exception, the error code
  where one is written, the faulting linear address of #PF, and the state it leaves (40_xrstor.md R147, 41_xsaves.md R182), RIP
  at the faulting instruction. Delivery to a handler is out of scope (R215, D12). Safe: the run stops where the hardware would
  enter a handler (log 9). -/
  | exception (x : Exc) (code : Option (BitVec 32)) (info : Option Word64) (post : State)
  deriving DecidableEq, Repr

/-- The model gives the situation no meaning. Every constructor is safe: it claims neither a completion nor a fault. -/
inductive Refusal where
  /-- An instruction of the opcode table without a meaning in this model; raised by no arm (all four have one). Safe. -/
  | notModelled (mnemonic : String)
  /-- `refuse(not_in_scope)`: the bytes at RIP are none of the four forms (30_encoding.md R104, R116); raised by the step. Safe. -/
  | notInScope
  /-- `refuse(rex_r)`: REX.R = 1 (R116 (f)), before any #UD of the same bytes (log 35); raised by the step. Safe. -/
  | rexR
  /-- `refuse(length)`: longer than 15 bytes (R101), before any #UD of the same bytes (log 35); raised by the step. Safe. -/
  | tooLong
  /-- The program text ends inside an instruction; no program of 70_reset_and_hazards.md R251 does; raised by the step. Safe. -/
  | truncated
  /-- RIP is just past the last instruction: the run has ended (R251 (a); log 41); raised by the step. Safe. -/
  | runEnded
  /-- RIP addresses no byte of the program text (log 41); raised by the step. Safe. -/
  | outsideText
  /-- Launch premise `P_CFG` does not hold (R242; log 29); raised by all four forms. Safe. -/
  | premiseCfg
  /-- Launch premise `P_SCOPE` does not hold: XCR0[63:3] or IA32_XSS is not 0 (10_state.md R25, R26); raised by all four forms. Safe. -/
  | premiseScope
  /-- The instruction's bytes would wrap at the top of the address space (10_state.md R21); raised by all four forms. Safe. -/
  | ripWrap
  /-- `refuse(wrap)`: the footprint wraps (20_memory.md R80); raised by all four forms. Safe. -/
  | wrap
  /-- `refuse(align_basis)`: the effective and the linear address differ on 64-byte alignment (R66); raised by all four forms. Safe. -/
  | alignBasis
  /-- `refuse(footprint)`: a byte the processor might access fails a check (R80); raised by all four forms. Safe. -/
  | footprint
  /-- The footprint overlaps non-ordinary memory (R69); raised by all four forms. Safe. -/
  | nonOrdinary
  /-- Another agent accesses the footprint during the step (R83); raised by all four forms. Safe. -/
  | race
  /-- `refuse(self_modifying)`: the footprint overlaps the program text (R86); raised by XSAVES and XSAVES64. Safe. -/
  | selfModifying
  /-- `refuse(vmx_xsaves)`: VMX non-root operation (41_xsaves.md R183); raised by XSAVES and XSAVES64. Safe. -/
  | vmxXsaves
  /-- A translation fails in VMX non-root operation (60_exceptions.md R219); raised by XRSTOR and XRSTOR64. Safe. -/
  | vmxTranslate
  deriving DecidableEq, Repr

/-! ### Reset -/

/-- A segment register after reset: selector 0, base 0, limit FFFFH (log 6). -/
def Seg.resetData : Seg := ⟨0, 0, 0xFFFF, .upToLimit⟩

/-- CS after reset: selector F000H, base FFFF0000H (log 6). -/
def Seg.resetCode : Seg := ⟨0xF000, 0xFFFF0000, 0xFFFF, .upToLimit⟩

/-- x87 state after reset (log 6). -/
def X87.reset : X87 where
  fcw := 0x0040
  fsw := 0
  ftw := 0xFF
  fop := 0
  fip := 0
  fcs := 0
  fdp := 0
  fds := 0
  st := Vector.replicate 8 0

/-- The machine right after reset. CR0.TS, CR4.OSXSAVE, XCR0, IA32_XSS, MXCSR, MODE, CPL and VMXNR are as 10_state.md R44 has
them (GK17; log 5); the other registers hold the family's values (log 6), the tracking and the inputs the values of log 7. -/
def State.reset : State where
  gprs := (Vector.replicate 16 0).set 2 0x600
  rip := 0xFFF0
  eflags := 2
  cr0 := 0x60000010
  cr4 := 0
  efer := 0
  xcr0 := 1
  xss := 0
  x87 := X87.reset
  xmm := Vector.replicate 16 0
  mxcsr := 0x1F80
  ymmHi := Vector.replicate 16 0
  xinuse := 1
  xmodified := 7
  xrstorInfo := none
  cpl := 0
  vmxnr := false
  mode := .real
  segs :=
    { cs := Seg.resetCode, ds := Seg.resetData, es := Seg.resetData, fs := Seg.resetData, gs := Seg.resetData,
      ss := Seg.resetData }
  csD := false
  csL := false
  mem := []
  cfg := Cfg.standard
  env := { xlat := [], nonOrdinary := [], others := [] }
  text := { start := 0xFFFFFFF0, bytes := [] }
  draws := 0

end Sys2Proof.Machine
end

