-- ==== Sys2Proof/Machine/Ops.lean ====
section
/-! DEFINITION. Machine/Ops.lean: the shared operations over memory and registers, the free values of one instruction, and taking
an exception. -/

namespace Sys2Proof.Machine

open Sys2Proof

/-! ### Memory (10_state.md R43, 20_memory.md R61, R65) -/

/-- What an unlisted address reads as: the spec gives memory no reset contents (R44); 00H is the model's choice (log 8). -/
def unlistedByte : Byte := 0

/-- The byte at a linear address. -/
def Memory.read : Memory → Nat → Byte
  | [], _ => unlistedByte
  | c :: cs, a => if c.1 = a then c.2 else Memory.read cs a

/-- Write one byte, keeping the canonical form. -/
def Memory.write : Memory → Nat → Byte → Memory
  | [], a, b => if b = unlistedByte then [] else [(a, b)]
  | c :: cs, a, b =>
    if a < c.1 then (if b = unlistedByte then c :: cs else (a, b) :: c :: cs)
    else if a = c.1 then (if b = unlistedByte then cs else (a, b) :: cs)
    else c :: Memory.write cs a b

/-- Canonical from `lo` on: addresses at least `lo` and strictly rising, no byte equal to what an unlisted address reads as. -/
def Memory.wfFrom (lo : Nat) : Memory → Bool
  | [] => true
  | c :: cs => decide (lo ≤ c.1) && c.2 != unlistedByte && Memory.wfFrom (c.1 + 1) cs

/-- The canonical form of memory. -/
def Memory.wf (m : Memory) : Bool := Memory.wfFrom 0 m

/-- Every listed address is below `n`. -/
def Memory.below (n : Nat) (m : Memory) : Bool := m.all fun c => decide (c.1 < n)

/-- `MemRead(la, n)` as a number: the byte at `la` is the least significant (00_scope.md R10, 20_memory.md R65). -/
def Memory.readLE (m : Memory) (a : Nat) : Nat → Nat
  | 0 => 0
  | n + 1 => (m.read a).toNat + 256 * Memory.readLE m (a + 1) n

/-- Byte `k` of a number, byte 0 the least significant (20_memory.md R65). -/
def byteOf (v k : Nat) : Byte := BitVec.ofNat 8 (v / 256 ^ k)

/-- `MemWrite` of the area bytes `offs`, byte `o` getting `f o`, area byte `o` being at `la + o` (00_scope.md R10, 20_memory.md R60). -/
def Memory.fill (m : Memory) (la : Nat) (offs : List Nat) (f : Nat → Byte) : Memory :=
  offs.foldl (fun m o => m.write (la + o) (f o)) m

/-- The bytes `hi:lo` of a structure as the list of their offsets: `n` bytes from `lo` (00_scope.md R8). -/
def span (lo n : Nat) : List Nat := List.range' lo n

/-! ### Registers -/

/-- General register `n` (10_state.md R20). -/
def State.reg (s : State) (n : BitVec 4) : Word64 := s.gprs.get n.toFin

/-- The instruction mask EDX:EAX; the upper halves of RDX and RAX are ignored (10_state.md R20, 00_scope.md R7). -/
def State.instrMask (s : State) : Word64 := (s.reg 2#4).extractLsb' 0 32 ++ (s.reg 0#4).extractLsb' 0 32

/-- A segment register by name (10_state.md R42). -/
def Segs.get (g : Segs) : SegName → Seg
  | .cs => g.cs
  | .ds => g.ds
  | .es => g.es
  | .fs => g.fs
  | .gs => g.gs
  | .ss => g.ss

/-- `bitmap[i] <- b` (10_state.md R35, R36). -/
def setBit (v : Word64) (i : Nat) (b : Bool) : Word64 :=
  if b then v ||| (1#64 <<< i) else v &&& ~~~(1#64 <<< i)

/-- Width of linear addresses and of the instruction pointer: 64 bits in 64-bit mode, else 32 (20_memory.md R61, 10_state.md R21). -/
def linBits : Mode → Nat
  | .long64 => 64
  | .real | .prot | .v8086 | .compat => 32

/-- What decoding reads from the state. -/
def State.decodeCtx (s : State) : DecodeCtx := ⟨s.mode, s.csD⟩

/-- `RIP <- RIP + len` (10_state.md R21). -/
def State.advance (s : State) (len : Nat) : State := { s with rip := s.rip + BitVec.ofNat 64 len }

/-- MMk, the low 64 bits of physical register `k`, which is ST[(k - TOP) mod 8] (10_state.md R29, R33). -/
def X87.mm (x : X87) (k : BitVec 3) : Word64 :=
  (x.st.get (k - x.fsw.extractLsb' 11 3).toFin).extractLsb' 0 64

/-- YMM register `k`: the upper half over the XMM register (10_state.md R32, R33). -/
def State.ymm (s : State) (k : Fin 16) : BitVec 256 := s.ymmHi.get k ++ s.xmm.get k

/-! ### Initial configurations (10_state.md R34) -/

/-- The initial configuration of component 0. -/
def X87.initial : X87 where
  fcw := 0x037F
  fsw := 0
  ftw := 0
  fop := 0
  fip := 0
  fcs := 0
  fdp := 0
  fds := 0
  st := Vector.replicate 8 0

/-- Sixteen zero registers. -/
def zeroVecs : VecFile := Vector.replicate 16 0

/-- MXCSR's initial value 1F80H. -/
def mxcsrInitial : BitVec 32 := 0x1F80

/-- Every register of component `i` is in its initial configuration, MXCSR not counted (10_state.md R35, 40_xrstor.md R146). -/
def State.isInitial (s : State) : Nat → Bool
  | 0 => decide (s.x87 = X87.initial)
  | 1 => decide (s.xmm = zeroVecs)
  | 2 => decide (s.ymmHi = zeroVecs)
  | _ => true

/-! ### The free values of one instruction (00_scope.md R10, log 10) -/

/-- The values one instruction may draw; a meaning takes them as an argument. -/
structure Draws where
  skip         : Nat → Bool
  reserved     : Nat → Byte
  fcs          : BitVec 16
  fds          : BitVec 16
  initTrack    : Nat → Bool
  ac           : Bool
  lateX87      : X87
  lateXmm      : VecFile
  lateMxcsr    : BitVec 32
  lateYmmHi    : VecFile
  lateInuse    : Nat → Bool
  lateModified : Nat → Bool
  lateByteNew  : Nat → Bool

/-- The x87 record drawn at counter value `t`. -/
def X87.drawn (t : Nat) : X87 where
  fcw := (Config.lateX87Field t 0).extractLsb' 0 16
  fsw := (Config.lateX87Field t 1).extractLsb' 0 16
  ftw := (Config.lateX87Field t 2).extractLsb' 0 8
  fop := (Config.lateX87Field t 3).extractLsb' 0 11
  fip := Config.lateX87Field t 4
  fcs := (Config.lateX87Field t 5).extractLsb' 0 16
  fdp := Config.lateX87Field t 6
  fds := (Config.lateX87Field t 7).extractLsb' 0 16
  st := Vector.ofFn fun k => Config.lateSt t k

/-- The values drawn at counter value `t`. -/
def Draws.at (t : Nat) : Draws where
  skip := Config.skipDraw t
  reserved := Config.reservedDraw t
  fcs := Config.fcsDraw t
  fds := Config.fdsDraw t
  initTrack := Config.initTrackDraw t
  ac := Config.acDraw t
  lateX87 := X87.drawn t
  lateXmm := Vector.ofFn fun k => Config.lateXmm t k
  lateMxcsr := Config.lateMxcsr t
  lateYmmHi := Vector.ofFn fun k => Config.lateYmmHi t k
  lateInuse := Config.lateInuse t
  lateModified := Config.lateModified t
  lateByteNew := Config.lateByteNew t

/-! ### Stopping an instruction -/

/-- `raise #XX(code)` or `refuse(reason)` met by a check (00_scope.md R10). -/
inductive Stop where
  | raise (x : Exc) (code : Option (BitVec 32)) (info : Option Word64)
  | refuse (r : Refusal)
  deriving DecidableEq, Repr

/-- Taking an exception: the step ends with `Fault(#XX, code, info)`, `post` being the state 40_xrstor.md R147 or 41_xsaves.md R182
gives (60_exceptions.md R213). -/
def raiseExc (x : Exc) (code : Option (BitVec 32)) (info : Option Word64) (post : State) :
    Host.Outcome State Fault Refusal :=
  .fault (.exception x code info post)

/-- The outcome of an instruction that stops; `post` is the state an exception leaves at this point. -/
def Stop.outcome (st : Stop) (post : State) : Host.Outcome State Fault Refusal :=
  match st with
  | .raise x code info => raiseExc x code info post
  | .refuse r => .refused r

/-- The error code 0, written in every mode but real-address mode (60_exceptions.md R200, R201). -/
def errZero (mode : Mode) : Option (BitVec 32) := if mode = .real then none else some 0

/-- `raise #GP(0)`, `#GP` in real-address mode (60_exceptions.md R200; 40_xrstor.md R134). -/
def gpZero (mode : Mode) : Stop := .raise .gp (errZero mode) none

end Sys2Proof.Machine
end

