-- ==== Sys2Proof/Machine/Flags.lean ====
section
/-! DEFINITION. Machine/Flags.lean: the flags and control bits the rules read. "Flags Affected: None": no form writes EFLAGS
(10_state.md R22). -/

namespace Sys2Proof.Machine

open Sys2Proof

/-- CR0.PE[bit 0] (10_state.md R23). -/
def State.pe (s : State) : Bool := s.cr0.getLsbD 0

/-- CR0.TS[bit 3] (10_state.md R23). -/
def State.ts (s : State) : Bool := s.cr0.getLsbD 3

/-- CR0.AM[bit 18] (10_state.md R22, R23). -/
def State.am (s : State) : Bool := s.cr0.getLsbD 18

/-- CR4.OSXSAVE[bit 18] (10_state.md R24). -/
def State.osxsave (s : State) : Bool := s.cr4.getLsbD 18

/-- EFLAGS.AC[bit 18] (10_state.md R22). -/
def State.acFlag (s : State) : Bool := s.eflags.getLsbD 18

/-- EFLAGS.VM[bit 17] (10_state.md R22). -/
def State.vmFlag (s : State) : Bool := s.eflags.getLsbD 17

/-- IA32_EFER.LMA (10_state.md R41; bit 10, log 39). -/
def State.lma (s : State) : Bool := s.efer.getLsbD 10

/-- `AC_ENABLED`: CR0.AM = 1, EFLAGS.AC = 1 and CPL = 3 (10_state.md R22). -/
def State.acEnabled (s : State) : Bool := s.am && s.acFlag && s.cpl == 3#2

/-- How MODE follows from CR0.PE, EFLAGS.VM, IA32_EFER.LMA and CS.L (10_state.md R41). MODE itself is a field of State (log 42). -/
def State.modeOf (s : State) : Mode :=
  if !s.pe then .real
  else if s.vmFlag then .v8086
  else if s.lma && s.csL then .long64
  else if s.lma then .compat
  else .prot

end Sys2Proof.Machine
end

