-- ==== Sys2Proof/Machine/Layout.lean ====
section
/-! DEFINITION. Machine/Layout.lean: the XSAVE area (20_memory.md R70 to R79): where each field and component lies, and the
conversions between the x87 record and its bytes (R72, R73). -/

namespace Sys2Proof.Machine

open Sys2Proof

/-- `N_VEC(MODE)`: the vector registers moved (10_state.md R30). -/
def nVec (mode : Mode) : Nat := if mode = .long64 then 16 else 8

/-! ### Byte sets (20_memory.md R72, R77) -/

/-- The part of `X87_BYTES` below MXCSR: bytes 23:0. -/
def x87Low : List Nat := span 0 24

/-- The part of `X87_BYTES` above MXCSR: bytes 159:32. -/
def x87High : List Nat := span 32 128

/-- `MXCSR_BYTES`: bytes 27:24. -/
def mxcsrBytes : List Nat := span 24 4

/-- The MXCSR and MXCSR_MASK fields: bytes 31:24. -/
def sseControlBytes : List Nat := span 24 8

/-- `SSE_XMM_BYTES(MODE)`. -/
def xmmBytes (mode : Mode) : List Nat := span 160 (16 * nVec mode)

/-- `AVX_BYTES(MODE, base)`. -/
def avxBytes (mode : Mode) (base : Nat) : List Nat := span base (16 * nVec mode)

/-- The legacy region and the header: area bytes 0 to `HDR_OFF + 63` (20_memory.md R80). -/
def legacyAndHeader (cfg : Cfg) : List Nat := span 0 (cfg.hdrOff + 64)

/-! ### The extended region (20_memory.md R78, R79) -/

/-- Component `i` of the extended region, where the processor has it. -/
def extComp? (cfg : Cfg) (i : Nat) : Option ExtComp := cfg.ext.find? fun c => c.id == i

/-- `Cfg.STD_OFF(i)`: the fixed offset in the standard format (R78). -/
def stdOffset (cfg : Cfg) (i : Nat) : Nat := ((extComp? cfg i).map ExtComp.stdOff).getD cfg.extOff

/-- `Cfg.SIZE(i)` (R78). -/
def compSize (cfg : Cfg) (i : Nat) : Nat := ((extComp? cfg i).map ExtComp.size).getD 0

/-- The next multiple of 64. -/
def alignUp64 (n : Nat) : Nat := (n + 63) / 64 * 64

/-- Pack the components with their XCOMP_BV bit set from `off` on and answer where `i` lies; `first`: none is packed yet (R79). -/
def packFrom (xcomp : Word64) (i : Nat) : List ExtComp → Nat → Bool → Option Nat
  | [], _, _ => none
  | c :: cs, off, first =>
    if xcomp.getLsbD c.id then
      let here := if !first && c.align64 then alignUp64 off else off
      if c.id = i then some here else packFrom xcomp i cs (here + c.size) false
    else packFrom xcomp i cs off first

/-- The offset of component `i` in the compacted format; `none`: it has no room (R79). -/
def compactedOffset (cfg : Cfg) (xcomp : Word64) (i : Nat) : Option Nat := packFrom xcomp i cfg.ext cfg.extOff true

/-- `AVX_BASE_STD` (R78). -/
def avxBaseStd (cfg : Cfg) : Nat := stdOffset cfg 2

/-- `AVX_BASE_CMP` (R79). -/
def avxBaseCmp (cfg : Cfg) (xcomp : Word64) : Nat := (compactedOffset cfg xcomp 2).getD cfg.extOff

/-! ### Reading fields -/

/-- `XA(off, n)` as a number, `la` being LAXA (00_scope.md R10). -/
def areaField (m : Memory) (la off n : Nat) : Nat := m.readLE (la + off) n

/-- `HDR(7:0)`, XSTATE_BV (20_memory.md R74, R75). -/
def readXstateBv (cfg : Cfg) (m : Memory) (la : Nat) : Word64 := BitVec.ofNat 64 (areaField m la cfg.hdrOff 8)

/-- `HDR(15:8)`, XCOMP_BV (20_memory.md R74, R76). -/
def readXcompBv (cfg : Cfg) (m : Memory) (la : Nat) : Word64 := BitVec.ofNat 64 (areaField m la (cfg.hdrOff + 8) 8)

/-- Header bytes from `lo`, `n` of them, are all zero (20_memory.md R74). -/
def headerZero (cfg : Cfg) (m : Memory) (la lo n : Nat) : Bool :=
  (span lo n).all fun o => decide (m.read (la + (cfg.hdrOff + o)) = 0)

/-- The MXCSR field of the legacy region (20_memory.md R72). -/
def readMxcsr (m : Memory) (la : Nat) : BitVec 32 := BitVec.ofNat 32 (areaField m la 24 4)

/-- `LoadX87(w)` (20_memory.md R73). -/
def loadX87 (d : Draws) (w : Bool) (m : Memory) (la : Nat) : X87 where
  fcw := BitVec.ofNat 16 (areaField m la 0 2)
  fsw := BitVec.ofNat 16 (areaField m la 2 2)
  ftw := BitVec.ofNat 8 (areaField m la 4 1)
  fop := BitVec.ofNat 11 (areaField m la 6 2)
  fip := if w then BitVec.ofNat 64 (areaField m la 8 8) else BitVec.ofNat 64 (areaField m la 8 4)
  fcs := if w then d.fcs else BitVec.ofNat 16 (areaField m la 12 2)
  fdp := if w then BitVec.ofNat 64 (areaField m la 16 8) else BitVec.ofNat 64 (areaField m la 16 4)
  fds := if w then d.fds else BitVec.ofNat 16 (areaField m la 20 2)
  st := Vector.ofFn fun k => BitVec.ofNat 80 (areaField m la (32 + 16 * k.val) 10)

/-- Registers `k < n` loaded from `XA(base + 16k, 16)`, the others as they were (40_xrstor.md R136, R137, R141, R142). -/
def loadVecs (m : Memory) (la base n : Nat) (old : VecFile) : VecFile :=
  Vector.ofFn fun k =>
    if k.val < n then BitVec.ofNat 128 (areaField m la (base + 16 * k.val) 16) else old.get k

/-- Registers `k < n` set to 0, the others as they were (40_xrstor.md R136, R137, R141, R142). -/
def clearVecs (n : Nat) (old : VecFile) : VecFile :=
  Vector.ofFn fun k => if k.val < n then 0 else old.get k

/-! ### The bytes XSAVES stores, by area offset -/

/-- The FOP field: bits 10:0 are FOP, bits 15:11 reserved and drawn (20_memory.md R72, R73). -/
def fopField (d : Draws) (x : X87) : BitVec 16 := (d.reserved 7).extractLsb' 3 5 ++ x.fop

/-- Bytes 23:8 of the legacy region: the x87 pointers (20_memory.md R72, R73). -/
def x87PointerByte (d : Draws) (w : Bool) (x : X87) (o : Nat) : Byte :=
  if w then (if o < 16 then byteOf x.fip.toNat (o - 8) else byteOf x.fdp.toNat (o - 16))
  else if o < 12 then byteOf x.fip.toNat (o - 8)
  else if o < 14 then byteOf x.fcs.toNat (o - 12)
  else if o < 16 then d.reserved o
  else if o < 20 then byteOf x.fdp.toNat (o - 16)
  else if o < 22 then byteOf x.fds.toNat (o - 20)
  else d.reserved o

/-- Bytes 159:32 of the legacy region: ST[k] at `32 + 16k`, six reserved bytes after each (20_memory.md R72, R73). -/
def x87StackByte (d : Draws) (x : X87) (o : Nat) : Byte :=
  if (o - 32) % 16 < 10 then byteOf (x.st.get (Fin.ofNat 8 ((o - 32) / 16))).toNat ((o - 32) % 16) else d.reserved o

/-- `StoreX87(w)`: what byte `o` of `X87_BYTES` receives (20_memory.md R73). -/
def x87Byte (d : Draws) (w : Bool) (x : X87) (o : Nat) : Byte :=
  if o < 2 then byteOf x.fcw.toNat o
  else if o < 4 then byteOf x.fsw.toNat (o - 2)
  else if o < 5 then byteOf x.ftw.toNat (o - 4)
  else if o < 6 then d.reserved o
  else if o < 8 then byteOf (fopField d x).toNat (o - 6)
  else if o < 24 then x87PointerByte d w x o
  else x87StackByte d x o

/-- Byte `o` of sixteen registers laid out from `base`, 16 bytes each (20_memory.md R72, R77). -/
def vecByte (v : VecFile) (base o : Nat) : Byte :=
  byteOf (v.get (Fin.ofNat 16 ((o - base) / 16))).toNat ((o - base) % 16)

/-- What byte `o` of `SSE_BYTES` receives: MXCSR, MXCSR_MASK, XMM[k] (41_xsaves.md R175). -/
def sseByte (s : State) (o : Nat) : Byte :=
  if o < 28 then byteOf s.mxcsr.toNat (o - 24)
  else if o < 32 then byteOf s.cfg.mxcsrMask.toNat (o - 28)
  else vecByte s.xmm 160 o

end Sys2Proof.Machine
end

