-- ==== Sys2Proof/Machine/Operands.lean ====
section
/-! DEFINITION. Machine/Operands.lean: the memory operand of an instruction, decoded to `(seg, EA, asz)`, and the linear address
LAXA of the XSAVE area (20_memory.md R60, R61; 30_encoding.md R107 to R114). -/

namespace Sys2Proof.Machine

open Sys2Proof

/-- The operand of an instruction with all that its address depends on beside the state. -/
structure Operand where
  pfx : List Pfx
  rex : Rex
  mem : MemOp
  len : Nat
  deriving DecidableEq, Repr

/-- The operand of the parts of an instruction. -/
def Operand.of (pfx : List Pfx) (rex : Option Rex) (mem : MemOp) : Operand :=
  ⟨pfx, rexBits rex, mem, formLength pfx rex mem⟩

/-- The operand of an instruction. -/
def operandOf (i : Instr) : Operand := Operand.of i.pfxs i.rex? i.mem

/-- `v` modulo `2^asz`, zero-extended (20_memory.md R61). -/
def truncAddr (asz : AddrSize) (v : Word64) : Word64 :=
  match asz with
  | .a16 => (v.setWidth 16).setWidth 64
  | .a32 => (v.setWidth 32).setWidth 64
  | .a64 => v

/-- A displacement sign-extended to 64 bits; taken modulo `2^asz` it is the one of 30_encoding.md R114. -/
def Disp.value {w : Nat} : Disp w → Word64
  | .none => 0
  | .d8 v => v.signExtend 64
  | .full v => v.signExtend 64

/-- Register number of a 3-bit field and its REX bit (30_encoding.md R109 to R111). -/
def regNum (ext : Bool) (n : BitVec 3) : BitVec 4 := BitVec.ofBool ext ++ n

/-- The registers of a row of the 16-bit table (30_encoding.md R112): BX = 3, BP = 5, SI = 6, DI = 7. -/
def base16Sum (s : State) (rm : BitVec 3) : Word64 :=
  if rm = 0#3 then s.reg 3#4 + s.reg 6#4
  else if rm = 1#3 then s.reg 3#4 + s.reg 7#4
  else if rm = 2#3 then s.reg 5#4 + s.reg 6#4
  else if rm = 3#3 then s.reg 5#4 + s.reg 7#4
  else if rm = 4#3 then s.reg 6#4
  else if rm = 5#3 then s.reg 7#4
  else if rm = 6#3 then s.reg 5#4
  else s.reg 3#4

/-- `index * 2^scale`; register number 4 means no index (30_encoding.md R110). -/
def indexValue (s : State) (rex : Rex) (scale : BitVec 2) (index : BitVec 3) : Word64 :=
  if regNum rex.x index = 4#4 then 0 else s.reg (regNum rex.x index) <<< scale.toNat

/-- The address sum before it is taken modulo `2^asz` (30_encoding.md R109 to R112). -/
def addressSum (s : State) (o : Operand) : Word64 :=
  match o.mem with
  | .base16 rm d => base16Sum s rm + Disp.value d
  | .abs16 v => v.setWidth 64
  | .base rm d => s.reg (regNum o.rex.b rm) + Disp.value d
  | .dispRip v =>
    if s.mode = .long64 then s.rip + BitVec.ofNat 64 o.len + v.signExtend 64 else v.signExtend 64
  | .sib scale index base d => s.reg (regNum o.rex.b base) + indexValue s o.rex scale index + Disp.value d
  | .sibNoBase scale index v => indexValue s o.rex scale index + v.signExtend 64

/-- `asz` of the operand (30_encoding.md R107). -/
def operandSize (s : State) (o : Operand) : AddrSize := Sys2Proof.addrSize s.decodeCtx o.pfx

/-- `EA` (30_encoding.md R109 to R112). -/
def effectiveAddress (s : State) (o : Operand) : Word64 := truncAddr (operandSize s o) (addressSum s o)

/-- The default segment: SS when the base register is (E/R)SP or (E/R)BP, else DS (30_encoding.md R113). -/
def defaultSeg (o : Operand) : SegName :=
  match o.mem with
  | .base16 rm _ => if rm = 2#3 ∨ rm = 3#3 ∨ rm = 6#3 then .ss else .ds
  | .abs16 _ => .ds
  | .base rm _ => if regNum o.rex.b rm = 5#4 then .ss else .ds
  | .dispRip _ => .ds
  | .sib _ _ base _ => if regNum o.rex.b base = 4#4 ∨ regNum o.rex.b base = 5#4 then .ss else .ds
  | .sibNoBase _ _ _ => .ds

/-- The override a legacy byte makes in this mode: in 64-bit mode only FS and GS have effect (30_encoding.md R105, R113). -/
def overrideOf (mode : Mode) : Pfx → Option SegName
  | .seg .fs => some .fs
  | .seg .gs => some .gs
  | .seg n => if mode = .long64 then none else some n
  | .addrSize | .lock | .opSize | .repF3 | .repF2 => none

/-- The last override that has effect (30_encoding.md R105; log 36). -/
def lastOverride (mode : Mode) : List Pfx → Option SegName
  | [] => none
  | p :: ps => (lastOverride mode ps).or (overrideOf mode p)

/-- `seg` (30_encoding.md R113). -/
def operandSeg (s : State) (o : Operand) : SegName := (lastOverride s.mode o.pfx).getD (defaultSeg o)

/-- The base a segment adds to an effective address (20_memory.md R60): 16 times the selector in real-address and virtual-8086 mode;
in 64-bit mode 0 but for FS and GS; elsewhere the base of the segment register. -/
def segBase (s : State) (n : SegName) : Word64 :=
  match s.mode, n with
  | .real, n | .v8086, n => (s.segs.get n).selector.setWidth 64 <<< 4
  | .prot, n | .compat, n => (s.segs.get n).base
  | .long64, .fs => s.segs.fs.base
  | .long64, .gs => s.segs.gs.base
  | .long64, _ => 0

/-- A linear address taken modulo `2^32` outside 64-bit mode, `2^64` in it (20_memory.md R60, R61). -/
def truncLinear (mode : Mode) (v : Word64) : Word64 := truncAddr (if mode = .long64 then .a64 else .a32) v

/-- A linear address from a segment and an offset (20_memory.md R60). -/
def linear (s : State) (n : SegName) (ea : Word64) : Word64 := truncLinear s.mode (segBase s n + ea)

/-- The XSAVE area an execution names: `(seg, EA, asz)` and LAXA (20_memory.md R60). -/
structure Area where
  seg  : SegName
  ea   : Word64
  asz  : AddrSize
  laxa : Word64
  deriving DecidableEq, Repr

/-- The area of an operand in a state. -/
def areaOf (s : State) (o : Operand) : Area :=
  let n := operandSeg s o
  let ea := effectiveAddress s o
  ⟨n, ea, operandSize s o, linear s n ea⟩

/-- The linear address of area byte `off` (20_memory.md R60). -/
def Area.at (ar : Area) (off : Nat) : Nat := ar.laxa.toNat + off

end Sys2Proof.Machine
end

