-- ==== Sys2Proof/Machine/Checks.lean ====
section
/-! DEFINITION. Machine/Checks.lean: the launch premises, and the address checks of one pass over a footprint (20_memory.md R62
to R67, R69, R80, R81, R83, R86; order: R64, 60_exceptions.md R212). A footprint is a list of area offsets. -/

namespace Sys2Proof.Machine

open Sys2Proof

/-- The first check that stops, in order (60_exceptions.md R212). -/
def firstStop : List (Option Stop) → Option Stop
  | [] => none
  | c :: cs => c.or (firstStop cs)

/-! ### Launch premises (70_reset_and_hazards.md R242) -/

/-- `P_CFG`: MXCSR_MASK is the complement of MXCSR_RSVD, the components are 0, 1 and 2 (00_scope.md R6), and the layout is one the
rules can be read on: legacy region, header and extended region do not overlap, AVX state has room (log 29). -/
def Cfg.valid (cfg : Cfg) : Bool :=
  decide (cfg.mxcsrMask = ~~~cfg.mxcsrRsvd) && decide (cfg.components = [0, 1, 2])
    && decide (cfg.ext.map ExtComp.id = [2]) && decide (512 ≤ cfg.hdrOff) && decide (cfg.hdrOff + 64 ≤ cfg.extOff)
    && (cfg.ext.all fun c => decide (cfg.hdrOff + 64 ≤ c.stdOff) && decide (256 ≤ c.size))
    && decide (1 ≤ cfg.vaBits) && decide (cfg.vaBits ≤ 64)

/-- `P_SCOPE`: XCR0[63:3] = 0 and IA32_XSS = 0 (10_state.md R25, R26). -/
def State.inScope (s : State) : Bool := decide (s.xcr0 >>> 3 = 0) && decide (s.xss = 0)

/-- The base fetching adds to RIP: 0 in 64-bit mode, else the base CS holds, in real-address mode too, where after reset it is not
16 times the selector (70_reset_and_hazards.md R241; log 2, log 12). -/
def State.codeBase (s : State) : Word64 := if s.mode = .long64 then 0 else s.segs.cs.base

/-- The linear address instruction bytes are fetched from, CS:RIP (log 2). -/
def State.fetchAddress (s : State) : Nat := (truncLinear s.mode (s.codeBase + s.rip)).toNat

/-- The instruction's bytes, or the RIP after it, would wrap at the top of the address space (10_state.md R21). -/
def ripWraps (s : State) (len : Nat) : Bool :=
  decide (2 ^ linBits s.mode ≤ s.rip.toNat + len) || decide (2 ^ linBits s.mode < s.fetchAddress + len)

/-- The premises a state must satisfy to be in scope; otherwise the model refuses. -/
def launchStop (s : State) (len : Nat) : Option Stop :=
  if !Cfg.valid s.cfg then some (.refuse .premiseCfg)
  else if !s.inScope then some (.refuse .premiseScope)
  else if ripWraps s len then some (.refuse .ripWrap)
  else none

/-! ### One byte of a footprint -/

/-- Canonical form: bits 63 down to `VA_BITS - 1` of the address are all equal (20_memory.md R63). -/
def canonical (vaBits a : Nat) : Bool := decide (a < 2 ^ (vaBits - 1)) || decide (2 ^ 64 ≤ a + 2 ^ (vaBits - 1))

/-- The address is in the range. -/
def Range.has (r : Range) (a : Nat) : Bool := decide (r.lo ≤ a) && decide (a ≤ r.hi)

/-- `InLimit` for one byte of a segment (20_memory.md R62). -/
def Seg.inLimit (g : Seg) (ea : Nat) : Bool :=
  match g.form with
  | .upToLimit => decide (ea ≤ g.limit.toNat)
  | .ranges rs => rs.any fun r => r.has ea

/-- Area byte `off` passes the limit check (R62) or the canonical check (R63) of the mode. -/
def byteAddressOk (s : State) (ar : Area) (off : Nat) : Bool :=
  match s.mode with
  | .real => decide (ar.ea.toNat + off ≤ 0xFFFF)
  | .long64 => canonical s.cfg.vaBits (ar.at off)
  | .prot | .v8086 | .compat => (s.segs.get ar.seg).inLimit (ar.ea.toNat + off)

/-- The failing range applies to this access. -/
def XlatFault.applies (f : XlatFault) (la : Nat) (acc : Access) (cpl : BitVec 2) : Bool :=
  f.range.has la && (f.access.isNone || f.access == some acc) && f.cpls.getLsbD cpl.toNat

/-- `Translate(la, access, CPL)`: `none` is ok, `some code` is `fault(code)` (20_memory.md R81). -/
def translate (env : Env) (la : Nat) (acc : Access) (cpl : BitVec 2) : Option (BitVec 32) :=
  (env.xlat.find? fun f => f.applies la acc cpl).map XlatFault.code

/-- The page fault on area byte `off`: its linear address and the fault code. Real-address mode has none (R81, R210). -/
def pageFaultAt (s : State) (ar : Area) (acc : Access) (off : Nat) : Option (Word64 × BitVec 32) :=
  if s.mode = .real then none
  else (translate s.env (ar.at off) acc s.cpl).map fun code => (BitVec.ofNat 64 (ar.at off), code)

/-! ### The checks of a pass -/

/-- `refuse(wrap)`: a linear address of the footprint wraps (20_memory.md R80). -/
def linearWraps (s : State) (ar : Area) (offs : List Nat) : Bool :=
  offs.any fun o => decide (2 ^ linBits s.mode ≤ ar.at o)

/-- `refuse(wrap)`: an effective address of the footprint wraps modulo `2^asz` (20_memory.md R80). In real-address mode an
address above FFFFH is the limit check's (R62; log 15). -/
def effectiveWraps (s : State) (ar : Area) (offs : List Nat) : Bool :=
  decide (s.mode ≠ .real) && offs.any fun o => decide (2 ^ ar.asz.bits ≤ ar.ea.toNat + o)

/-- Wrapping of the bytes that might be accessed (R80). -/
def wrapStop (s : State) (ar : Area) (max : List Nat) : Option Stop :=
  if linearWraps s ar max || effectiveWraps s ar max then some (.refuse .wrap) else none

/-- #SS(0) for an address in SS, but in real-address mode, else #GP(0) (60_exceptions.md R204, R209). -/
def addressFault (mode : Mode) (seg : SegName) : Stop :=
  if seg = .ss ∧ mode ≠ .real then .raise .ss (some 0) none else gpZero mode

/-- Segment limit or canonical form of the bytes certainly accessed (20_memory.md R62, R63). -/
def limitStop (s : State) (ar : Area) (min : List Nat) : Option Stop :=
  if min.all (byteAddressOk s ar) then none else some (addressFault s.mode ar.seg)

/-- The address the alignment is judged on (00_scope.md R6, `Cfg.ALIGN_BASIS`). -/
def alignmentOf (s : State) (ar : Area) : Nat :=
  match s.cfg.alignBasis with
  | .linear => ar.laxa.toNat % 64
  | .effective => ar.ea.toNat % 64

/-- #AC(0) in place of #GP(0) on a misaligned area (20_memory.md R67). -/
def acSignaled (d : Draws) (s : State) (ar : Area) : Bool :=
  s.acEnabled && decide (s.mode ≠ .real)
    && (match s.cfg.acOnMisalign with
        | some table => table.getLsbD (ar.laxa.toNat % 64)
        | none => d.ac)

/-- The alignment check (20_memory.md R66, R67). -/
def alignStop (d : Draws) (s : State) (ar : Area) : Option Stop :=
  if decide (ar.laxa.toNat % 64 = 0) != decide (ar.ea.toNat % 64 = 0) then some (.refuse .alignBasis)
  else if alignmentOf s ar = 0 then none
  else if acSignaled d s ar then some (.raise .ac (some 0) none)
  else some (gpZero s.mode)

/-- #PF for the first failing byte (20_memory.md R81); in VMX non-root operation it is refused (60_exceptions.md R219). -/
def pageStop (s : State) (ar : Area) (acc : Access) (min : List Nat) : Option Stop :=
  (min.findSome? (pageFaultAt s ar acc)).map fun f =>
    if s.vmxnr then .refuse .vmxTranslate else .raise .pf (some f.2) (some f.1)

/-- `refuse(footprint)`: a byte that might be accessed fails a check (20_memory.md R80). -/
def footprintStop (s : State) (ar : Area) (acc : Access) (max : List Nat) : Option Stop :=
  if max.all fun o => byteAddressOk s ar o && (pageFaultAt s ar acc o).isNone then none
  else some (.refuse .footprint)

/-- The footprint overlaps a range. -/
def overlaps (ar : Area) (offs : List Nat) (r : Range) : Bool := offs.any fun o => r.has (ar.at o)

/-- Another agent's access is a race with this access to the footprint (20_memory.md R83). -/
def races (ar : Area) (acc : Access) (offs : List Nat) (x : AgentAccess) : Bool :=
  (x.writes || acc == .write) && overlaps ar offs x.range

/-- The program text has the byte at this linear address. -/
def Text.has (t : Text) (a : Nat) : Bool := decide (t.start ≤ a) && decide (a < t.start + t.bytes.length)

/-- Non-ordinary memory (20_memory.md R69), a race (R83), for a write the program text (R86). -/
def memoryStop (s : State) (ar : Area) (acc : Access) (max : List Nat) : Option Stop :=
  if s.env.nonOrdinary.any (overlaps ar max) then some (.refuse .nonOrdinary)
  else if s.env.others.any (races ar acc max) then some (.refuse .race)
  else if acc == .write && max.any (fun o => s.text.has (ar.at o)) then some (.refuse .selfModifying)
  else none

/-- One pass of the address checks over `MIN` and `MAX`; `first`: the pass that judges alignment (20_memory.md R64, R80). -/
def addressChecks (d : Draws) (s : State) (ar : Area) (acc : Access) (first : Bool) (min max : List Nat) : Option Stop :=
  firstStop
    [wrapStop s ar max, limitStop s ar min, if first then alignStop d s ar else none, pageStop s ar acc min,
      footprintStop s ar acc max, memoryStop s ar acc max]

end Sys2Proof.Machine
end

