-- ==== Sys2Proof/Machine/Xrstor.lean ====
section
/-! DEFINITION. Machine/Xrstor.lean: XRSTOR and XRSTOR64 (40_xrstor.md R130 to R151). -/

namespace Sys2Proof.Machine

open Sys2Proof

/-! ### Masks, form, header (R132 to R134) -/

/-- The two forms of XRSTOR (R133). -/
inductive Form where
  | standard
  | compacted
  deriving DecidableEq, Repr

/-- The three masks of R132; `RSTORMASK` and `COMPMASK` are read from the header once. -/
structure Masks where
  rfbm      : Word64
  rstormask : Word64
  compmask  : Word64
  deriving DecidableEq, Repr

/-- `RFBM <- XCR0 AND EDX:EAX; RSTORMASK <- XSTATE_BV; COMPMASK <- XCOMP_BV` (R132). -/
def xrstorMasks (s : State) (ar : Area) : Masks :=
  ⟨s.xcr0 &&& s.instrMask, readXstateBv s.cfg s.mem ar.laxa.toNat, readXcompBv s.cfg s.mem ar.laxa.toNat⟩

/-- `Form(COMPMASK)` (R133). -/
def Masks.form (k : Masks) : Form := if k.compmask.getLsbD 63 then .compacted else .standard

/-- A header check of R134 fails: (a), (b) in the standard form, (c) to (f) in the compacted form. -/
def headerBad (s : State) (ar : Area) (k : Masks) : Bool :=
  match k.form with
  | .standard =>
    decide (k.rstormask &&& ~~~s.xcr0 ≠ 0) || !headerZero s.cfg s.mem ar.laxa.toNat 8 16
  | .compacted =>
    !s.cfg.xsavec
      || decide ((k.compmask &&& ~~~s.xcr0).extractLsb' 0 63 ≠ 0)
      || decide (k.rstormask &&& ~~~k.compmask ≠ 0)
      || !headerZero s.cfg s.mem ar.laxa.toNat 16 48

/-- Component `i` is loaded from memory (R150). -/
def Masks.loads (k : Masks) (i : Nat) : Bool := k.rfbm.getLsbD i && k.rstormask.getLsbD i

/-- MXCSR is loaded from memory (R139, R141). -/
def Masks.loadsMxcsr (k : Masks) : Bool :=
  match k.form with
  | .standard => k.rfbm.getLsbD 1 || k.rfbm.getLsbD 2
  | .compacted => k.loads 1

/-- MXCSR is loaded or initialised (R139, R141). -/
def Masks.writesMxcsr (k : Masks) : Bool :=
  match k.form with
  | .standard => k.rfbm.getLsbD 1 || k.rfbm.getLsbD 2
  | .compacted => k.rfbm.getLsbD 1

/-- A value is illegal for MXCSR: a reserved bit is set (R144, 10_state.md R31). -/
def illegalMxcsr (cfg : Cfg) (v : BitVec 32) : Bool := decide (v &&& cfg.mxcsrRsvd ≠ 0)

/-! ### Footprints (20_memory.md R80) -/

/-- Where AVX state lies in the area (20_memory.md R78, R79). -/
def Masks.avxBase (cfg : Cfg) (k : Masks) : Nat :=
  match k.form with
  | .standard => avxBaseStd cfg
  | .compacted => avxBaseCmp cfg k.compmask

/-- `MIN` of pass 1: header bytes 23:0. -/
def headerMin (cfg : Cfg) : List Nat := span cfg.hdrOff 24

/-- `MAX` of pass 1: header bytes 63:0. -/
def headerMax (cfg : Cfg) : List Nat := span cfg.hdrOff 64

/-- `MIN` of pass 2: the bytes of every component loaded, in increasing order. -/
def loadMin (cfg : Cfg) (mode : Mode) (k : Masks) : List Nat :=
  (if k.loads 0 then x87Low else []) ++ (if k.loadsMxcsr then mxcsrBytes else [])
    ++ (if k.loads 0 then x87High else []) ++ (if k.loads 1 then xmmBytes mode else [])
    ++ (if k.loads 2 then avxBytes mode (k.avxBase cfg) else [])

/-- The extended region belongs to `MAX` of pass 2. -/
def extendedInMax (xcr0 : Word64) (k : Masks) : Bool :=
  match k.form with
  | .standard => xcr0.getLsbD 2
  | .compacted => k.compmask.getLsbD 2

/-- `MAX` of pass 2: legacy region, header, and the AVX image where it may be there. -/
def loadMax (cfg : Cfg) (xcr0 : Word64) (k : Masks) : List Nat :=
  legacyAndHeader cfg ++ (if extendedInMax xcr0 k then span (k.avxBase cfg) (compSize cfg 2) else [])

/-! ### The per-component actions (R135 to R142) -/

/-- x87 state (R135, R140). -/
def restoredX87 (d : Draws) (w : Bool) (s : State) (ar : Area) (k : Masks) : X87 :=
  if k.rfbm.getLsbD 0 then
    (if k.rstormask.getLsbD 0 then loadX87 d w s.mem ar.laxa.toNat else X87.initial)
  else s.x87

/-- The XMM registers (R136, R141). -/
def restoredXmm (s : State) (ar : Area) (k : Masks) : VecFile :=
  if k.rfbm.getLsbD 1 then
    (if k.rstormask.getLsbD 1 then loadVecs s.mem ar.laxa.toNat 160 (nVec s.mode) s.xmm
     else clearVecs (nVec s.mode) s.xmm)
  else s.xmm

/-- MXCSR: the standard form loads it for SSE or AVX, whatever XSTATE_BV[1] is (R139); the compacted form treats it as part of
SSE state (R141). -/
def restoredMxcsr (s : State) (ar : Area) (k : Masks) : BitVec 32 :=
  match k.form with
  | .standard =>
    if k.rfbm.getLsbD 1 || k.rfbm.getLsbD 2 then readMxcsr s.mem ar.laxa.toNat else s.mxcsr
  | .compacted =>
    if k.rfbm.getLsbD 1 then
      (if k.rstormask.getLsbD 1 then readMxcsr s.mem ar.laxa.toNat else mxcsrInitial)
    else s.mxcsr

/-- AVX state (R137, R142). -/
def restoredYmmHi (s : State) (ar : Area) (k : Masks) : VecFile :=
  if k.rfbm.getLsbD 2 then
    (if k.rstormask.getLsbD 2 then loadVecs s.mem ar.laxa.toNat (k.avxBase s.cfg) (nVec s.mode) s.ymmHi
     else clearVecs (nVec s.mode) s.ymmHi)
  else s.ymmHi

/-- The state with the components restored (R130 step S8). -/
def withComponents (d : Draws) (w : Bool) (ar : Area) (k : Masks) (s : State) : State :=
  { s with
    x87 := restoredX87 d w s ar k
    xmm := restoredXmm s ar k
    mxcsr := restoredMxcsr s ar k
    ymmHi := restoredYmmHi s ar k }

/-! ### Tracking (R146) -/

/-- A tracking bitmap with bit `i` set to `f i` for every component (R146: "For each i in Cfg.COMPONENTS"). -/
def setComponents (components : List Nat) (v : Word64) (f : Nat → Bool) : Word64 :=
  components.foldl (fun v i => setBit v i (f i)) v

/-- `InitTrack(i)`, `s` being the state with the components restored (R146, decision D10). -/
def initTrack (d : Draws) (s : State) (i : Nat) : Bool :=
  if s.isInitial i then
    (match s.cfg.xinuseAfterInit with
     | .zero => false
     | .any => d.initTrack i)
  else true

/-- XINUSE[i] after XRSTOR (R146). -/
def inuseAfter (d : Draws) (s : State) (k : Masks) (i : Nat) : Bool :=
  if k.rfbm.getLsbD i then (if k.rstormask.getLsbD i then true else initTrack d s i) else s.xinuse.getLsbD i

/-- XMODIFIED[i] after XRSTOR (R146). -/
def modifiedAfter (d : Draws) (s : State) (k : Masks) (i : Nat) : Bool :=
  if k.rfbm.getLsbD i then (if k.rstormask.getLsbD i then false else initTrack d s i) else true

/-- `Track(RFBM, RSTORMASK)` (R130 step S9, R146), on the state with the components restored. -/
def withTracking (d : Draws) (k : Masks) (s : State) : State :=
  { s with
    xinuse := setComponents s.cfg.components s.xinuse (inuseAfter d s k)
    xmodified := setComponents s.cfg.components s.xmodified (modifiedAfter d s k) }

/-! ### Completion and late exceptions -/

/-- The state after a completed XRSTOR (R130 steps S8 to S11). -/
def xrstorDone (d : Draws) (w : Bool) (ar : Area) (k : Masks) (len : Nat) (s : State) : State :=
  let t := withTracking d k (withComponents d w ar k s)
  { t.advance len with
    xrstorInfo := some ⟨s.cpl, s.vmxnr, ar.laxa, k.compmask⟩
    draws := s.draws + 1 }

/-- The registers after an exception at S7 or S8: those of the requested components are drawn (R147). -/
def lateComponents (d : Draws) (k : Masks) (s : State) : State :=
  { s with
    x87 := if k.rfbm.getLsbD 0 then d.lateX87 else s.x87
    xmm := if k.rfbm.getLsbD 1 then d.lateXmm else s.xmm
    mxcsr := if k.writesMxcsr then d.lateMxcsr else s.mxcsr
    ymmHi := if k.rfbm.getLsbD 2 then d.lateYmmHi else s.ymmHi }

/-- The state an exception at S7 or S8 leaves: registers and tracking bits of the requested components are drawn, subject to
`INV_XINUSE`; everything else is unchanged (R147). -/
def xrstorLate (d : Draws) (k : Masks) (s : State) : State :=
  let t := lateComponents d k s
  { t with
    xinuse := setComponents s.cfg.components s.xinuse fun i =>
      if k.rfbm.getLsbD i then d.lateInuse i || !t.isInitial i else s.xinuse.getLsbD i
    xmodified := setComponents s.cfg.components s.xmodified fun i =>
      if k.rfbm.getLsbD i then d.lateModified i else s.xmodified.getLsbD i
    draws := s.draws + 1 }

/-! ### The instructions -/

/-- The pre-checks: #UD, then #NM (R148). -/
def xrstorPreStop (s : State) (pfx : List Pfx) : Option Stop :=
  if !s.cfg.xsave || !s.osxsave || pfx.any Pfx.forbidden then some (.raise .ud none none)
  else if s.ts then some (.raise .nm none none)
  else none

/-- The checks that leave the whole state unchanged when they stop: launch premises, S1, S3 and S6 (R130, R147). -/
def xrstorEarly (d : Draws) (s : State) (o : Operand) : Option Stop :=
  let ar := areaOf s o
  firstStop
    [launchStop s o.len, xrstorPreStop s o.pfx,
      addressChecks d s ar .read true (headerMin s.cfg) (headerMax s.cfg),
      if headerBad s ar (xrstorMasks s ar) then some (gpZero s.mode) else none]

/-- The checks of S7 and the illegal MXCSR of S8 (R130, R144). -/
def xrstorLateStop (d : Draws) (s : State) (o : Operand) : Option Stop :=
  let ar := areaOf s o
  let k := xrstorMasks s ar
  firstStop
    [addressChecks d s ar .read false (loadMin s.cfg s.mode k) (loadMax s.cfg s.xcr0 k),
      if k.loadsMxcsr && illegalMxcsr s.cfg (readMxcsr s.mem ar.laxa.toNat) then some (gpZero s.mode) else none]

/-- `XRSTOR_step(seg, EA, asz, len, w)` with the free values `d` (R130). -/
def xrstorStep (d : Draws) (w : Bool) (o : Operand) (s : State) : Host.Outcome State Fault Refusal :=
  let ar := areaOf s o
  let k := xrstorMasks s ar
  match xrstorEarly d s o with
  | some st => st.outcome s
  | none =>
    match xrstorLateStop d s o with
    | some st => st.outcome (xrstorLate d k s)
    | none => .next (xrstorDone d w ar k o.len s)

/-- XRSTOR (R130). -/
def execXrstor (pfx : List Pfx) (rex : Option Rex) (mem : MemOp) (s : State) : Host.Outcome State Fault Refusal :=
  xrstorStep (Draws.at s.draws) false (Operand.of pfx rex mem) s

/-- XRSTOR64 (R131): the x87 pointers are read as 64-bit offsets. In 64-bit mode only; elsewhere the form is not encodable and
no bytes decode to it (30_encoding.md R104). -/
def execXrstor64 (pfx : List Pfx) (rex : Rex) (mem : MemOp) (s : State) : Host.Outcome State Fault Refusal :=
  xrstorStep (Draws.at s.draws) true (Operand.of pfx (some rex) mem) s

end Sys2Proof.Machine
end

