-- ==== Sys2Proof/Machine/Xsaves.lean ====
section
/-! DEFINITION. Machine/Xsaves.lean: XSAVES and XSAVES64 (41_xsaves.md R170 to R184). -/

namespace Sys2Proof.Machine

open Sys2Proof

/-! ### Masks and the modified optimization (R172, R173) -/

/-- `RFBM <- (XCR0 OR IA32_XSS) AND EDX:EAX` (R172). -/
def saveRfbm (s : State) : Word64 := (s.xcr0 ||| s.xss) &&& s.instrMask

/-- `COMPMASK <- RFBM OR 80000000_00000000H` (R172). -/
def saveCompmask (s : State) : Word64 := saveRfbm s ||| 0x8000000000000000#64

/-- `ModOpt(LAXA, COMPMASK)` (R173). -/
def modOpt (s : State) (ar : Area) : Bool :=
  decide (s.xrstorInfo = some ⟨s.cpl, s.vmxnr, ar.laxa, saveCompmask s⟩)

/-! ### What is stored (R174 to R178) -/

/-- `Need(i)` (R174). -/
def need (s : State) (i : Nat) : Bool :=
  (saveRfbm s).getLsbD i
    && (s.xinuse.getLsbD i || (i == 1 && decide (s.mxcsr ≠ mxcsrInitial)))

/-- `Skip(i)`: a free value, true only when MODOPT = 1 and XMODIFIED[i] = 0 (R176, decision D22). -/
def skip (d : Draws) (s : State) (ar : Area) (i : Nat) : Bool :=
  modOpt s ar && !s.xmodified.getLsbD i && d.skip i

/-- Component `i` is stored (R170 step S5). -/
def stores (d : Draws) (s : State) (ar : Area) (i : Nat) : Bool := need s i && !skip d s ar i

/-- `XstateBv(need)` (R178). -/
def xstateBv (s : State) : Word64 :=
  (if need s 0 then 1 else 0) ||| (if need s 1 then 2 else 0) ||| (if need s 2 then 4 else 0)

/-- Where AVX state lies: the compacted format with XCOMP_BV = COMPMASK (R175). -/
def saveAvxBase (s : State) : Nat := avxBaseCmp s.cfg (saveCompmask s)

/-- `MIN`: header bytes 15:0 and the bytes of every component stored, in increasing order (20_memory.md R80). These are the bytes
XSAVES writes. -/
def saveMin (d : Draws) (s : State) (ar : Area) : List Nat :=
  (if stores d s ar 0 then x87Low else []) ++ (if stores d s ar 1 then sseControlBytes else [])
    ++ (if stores d s ar 0 then x87High else []) ++ (if stores d s ar 1 then xmmBytes s.mode else [])
    ++ span s.cfg.hdrOff 16
    ++ (if stores d s ar 2 then avxBytes s.mode (saveAvxBase s) else [])

/-- `MAX`: legacy region, header, and the AVX image when RFBM[2] = 1 (20_memory.md R80). -/
def saveMax (s : State) : List Nat :=
  legacyAndHeader s.cfg ++ (if (saveRfbm s).getLsbD 2 then span (saveAvxBase s) (compSize s.cfg 2) else [])

/-- What header byte `o` (0 to 15) receives: XSTATE_BV, then XCOMP_BV (R178, R179). -/
def headerByte (s : State) (o : Nat) : Byte :=
  if o < 8 then byteOf (xstateBv s).toNat o else byteOf (saveCompmask s).toNat (o - 8)

/-- What area byte `o` of `MIN` receives (R175, R178, R179). -/
def savedByte (d : Draws) (w : Bool) (s : State) (o : Nat) : Byte :=
  if saveAvxBase s ≤ o then vecByte s.ymmHi (saveAvxBase s) o
  else if s.cfg.hdrOff ≤ o then headerByte s (o - s.cfg.hdrOff)
  else if 160 ≤ o ∨ (24 ≤ o ∧ o < 32) then sseByte s o
  else x87Byte d w s.x87 o

/-- Memory after a completed XSAVES (R170 steps S7, S8). -/
def savedMemory (d : Draws) (w : Bool) (s : State) (ar : Area) : Memory :=
  s.mem.fill ar.laxa.toNat (saveMin d s ar) (savedByte d w s)

/-- Memory after an exception of the address checks: each byte of `MIN` holds its old value or the one the completed instruction
would have written (R182). -/
def lateMemory (d : Draws) (w : Bool) (s : State) (ar : Area) : Memory :=
  s.mem.fill ar.laxa.toNat (saveMin d s ar) fun o =>
    if d.lateByteNew o then savedByte d w s o else s.mem.read (ar.at o)

/-! ### The instructions -/

/-- The pre-checks: #UD, #NM, #GP(0) for CPL != 0, then the refusal of VMX non-root operation (R180, R183). -/
def xsavesPreStop (s : State) (pfx : List Pfx) : Option Stop :=
  if !s.cfg.xsave || !s.cfg.xss || !s.osxsave || pfx.any Pfx.forbidden then some (.raise .ud none none)
  else if s.ts then some (.raise .nm none none)
  else if s.cpl ≠ 0 then some (gpZero s.mode)
  else if s.vmxnr then some (.refuse .vmxXsaves)
  else none

/-- The checks before any access: launch premises and S1 (R170, R182). -/
def xsavesEarly (s : State) (o : Operand) : Option Stop :=
  firstStop [launchStop s o.len, xsavesPreStop s o.pfx]

/-- The address checks, S6 (R170). -/
def xsavesAddressStop (d : Draws) (s : State) (o : Operand) : Option Stop :=
  let ar := areaOf s o
  addressChecks d s ar .write true (saveMin d s ar) (saveMax s)

/-- The state an exception of S6 leaves (R182). Nothing is accessed before the alignment check (20_memory.md R66), so when that is
the check that fails memory is unchanged (log 20). -/
def xsavesLate (d : Draws) (w : Bool) (o : Operand) (s : State) : State :=
  let ar := areaOf s o
  if (limitStop s ar (saveMin d s ar)).isNone && (alignStop d s ar).isSome then s
  else { s with mem := lateMemory d w s ar, draws := s.draws + 1 }

/-- The state after a completed XSAVES: memory and RIP (R170, R181). -/
def xsavesDone (d : Draws) (w : Bool) (o : Operand) (s : State) : State :=
  { s.advance o.len with mem := savedMemory d w s (areaOf s o), draws := s.draws + 1 }

/-- `XSAVES_step(seg, EA, asz, len, w)` with the free values `d` (R170). -/
def xsavesStep (d : Draws) (w : Bool) (o : Operand) (s : State) : Host.Outcome State Fault Refusal :=
  match xsavesEarly s o with
  | some st => st.outcome s
  | none =>
    match xsavesAddressStop d s o with
    | some st => st.outcome (xsavesLate d w o s)
    | none => .next (xsavesDone d w o s)

/-- XSAVES (R170). -/
def execXsaves (pfx : List Pfx) (rex : Option Rex) (mem : MemOp) (s : State) : Host.Outcome State Fault Refusal :=
  xsavesStep (Draws.at s.draws) false (Operand.of pfx rex mem) s

/-- XSAVES64 (R171): the x87 pointers are written as 64-bit offsets. In 64-bit mode only; elsewhere the form is not encodable and
no bytes decode to it (30_encoding.md R104). -/
def execXsaves64 (pfx : List Pfx) (rex : Rex) (mem : MemOp) (s : State) : Host.Outcome State Fault Refusal :=
  xsavesStep (Draws.at s.draws) true (Operand.of pfx (some rex) mem) s

end Sys2Proof.Machine
end

