-- ==== Sys2Proof/Machine/Dispatch.lean ====
section
/-! DEFINITION. Machine/Dispatch.lean: one arm per constructor of Instr. -/

namespace Sys2Proof.Machine

open Sys2Proof

def exec (i : Instr) (s : State) : Host.Outcome State Fault Refusal :=
  match i with
  | .xrstor pfx rex mem => Sys2Proof.Machine.execXrstor pfx rex mem s
  | .xrstor64 pfx rex mem => Sys2Proof.Machine.execXrstor64 pfx rex mem s
  | .xsaves pfx rex mem => Sys2Proof.Machine.execXsaves pfx rex mem s
  | .xsaves64 pfx rex mem => Sys2Proof.Machine.execXsaves64 pfx rex mem s

end Sys2Proof.Machine
end

