-- ==== Sys2Proof/WellFormed.lean ====
section
/-! DEFINITION. WellFormed.lean: which terms of `Instr` an encoding exists for, in a mode (30_encoding.md R101, R103, R104,
R107 to R112). One named check each. -/

namespace Sys2Proof

/-- The displacement is there (mod is 1 or 2). -/
def Disp.present {w : Nat} : Disp w → Bool
  | .none => false
  | .d8 _ | .full _ => true

/-- The addressing form exists: rm = 4 calls for a SIB byte, rm = 5 (SIB base 5, 16-bit rm 6) with mod = 0 is a displacement
alone (30_encoding.md R109 to R112). -/
def MemOp.formOk : MemOp → Bool
  | .base16 rm d => rm != 6#3 || d.present
  | .abs16 _ => true
  | .base rm d => rm != 4#3 && (rm != 5#3 || d.present)
  | .dispRip _ => true
  | .sib _ _ b d => b != 5#3 || d.present
  | .sibNoBase _ _ _ => true

/-- The form is one of 16-bit addressing. -/
def MemOp.is16 : MemOp → Bool
  | .base16 _ _ | .abs16 _ => true
  | .base _ _ | .dispRip _ | .sib _ _ _ _ | .sibNoBase _ _ _ => false

/-- The addressing form is of the instruction's address size (30_encoding.md R107, R112: "asz = 16. No SIB byte exists"). -/
def Instr.sizeOk (cx : DecodeCtx) (i : Instr) : Bool :=
  i.mem.is16 == (addrSize cx i.pfxs == .a16)

/-- A REX byte exists in 64-bit mode only (30_encoding.md R103, R104). -/
def Instr.rexOk (cx : DecodeCtx) (i : Instr) : Bool :=
  i.rex?.isNone || cx.mode == .long64

/-- At most 15 bytes (30_encoding.md R101). -/
def Instr.lengthOk (i : Instr) : Bool := decide (i.length ≤ 15)

/-- The instruction has an encoding in this mode. -/
def WellFormed (cx : DecodeCtx) (i : Instr) : Bool :=
  i.mem.formOk && i.sizeOk cx && i.rexOk cx && i.lengthOk

end Sys2Proof
end

