-- ==== Sys2Proof/Decode.lean ====
section
/-! DEFINITION. Decode.lean: bytes to instruction, total, every rejection by name (30_encoding.md R100 to R117), and after it
the encoder. -/

namespace Sys2Proof

/-- Why bytes are no instruction of this model. -/
inductive Reject where
  /-- Another opcode, another /n, mod = 3, a REX byte outside 64-bit mode (R104, R116 (c), (d)): `refuse(not_in_scope)`. -/
  | notInScope
  /-- REX.R = 1 with one of the four forms (R116 (f)): `refuse(rex_r)`. -/
  | rexR
  /-- More than 15 bytes (R101): `refuse(length)`. -/
  | tooLong
  /-- The bytes end inside the instruction. -/
  | truncated
  deriving DecidableEq, Repr

/-- What the decoder answers: an instruction and the bytes after it, or a rejection. -/
inductive Decoded where
  | ok (i : Instr) (rest : List Byte)
  | rejected (r : Reject)
  deriving DecidableEq, Repr

/-! ### Decoding -/

/-- The legacy bytes of R105 and R106. -/
def decodePfx (b : Byte) : Option Pfx :=
  if b = 0x26#8 then some (.seg .es)
  else if b = 0x2E#8 then some (.seg .cs)
  else if b = 0x36#8 then some (.seg .ss)
  else if b = 0x3E#8 then some (.seg .ds)
  else if b = 0x64#8 then some (.seg .fs)
  else if b = 0x65#8 then some (.seg .gs)
  else if b = 0x67#8 then some .addrSize
  else if b = 0xF0#8 then some .lock
  else if b = 0x66#8 then some .opSize
  else if b = 0xF3#8 then some .repF3
  else if b = 0xF2#8 then some .repF2
  else none

/-- All legacy bytes at the front, in order (R105: "any number of these bytes in any order"). -/
def takePfxs : List Byte → List Pfx × List Byte
  | [] => ([], [])
  | b :: bs =>
    match decodePfx b with
    | none => ([], b :: bs)
    | some p => (p :: (takePfxs bs).1, (takePfxs bs).2)

/-- The four bits `WRXB` of a REX byte, in 64-bit mode only (R103, R104). -/
def takeRex (mode : Mode) : List Byte → Option (BitVec 4) × List Byte
  | [] => (none, [])
  | b :: bs =>
    if mode = .long64 ∧ b.extractLsb' 4 4 = 4#4 then (some (b.extractLsb' 0 4), bs) else (none, b :: bs)

/-- disp8 (R114). -/
def take8 : List Byte → Option (BitVec 8 × List Byte)
  | b0 :: bs => some (b0, bs)
  | _ => none

/-- disp16, least significant byte first (R114). -/
def take16 : List Byte → Option (BitVec 16 × List Byte)
  | b0 :: b1 :: bs => some (b1 ++ b0, bs)
  | _ => none

/-- disp32, least significant byte first (R114). -/
def take32 : List Byte → Option (BitVec 32 × List Byte)
  | b0 :: b1 :: b2 :: b3 :: bs => some (b3 ++ b2 ++ b1 ++ b0, bs)
  | _ => none

/-- The displacement that mod = 0, 1 or 2 calls for, `full` reading the one of mod = 2. -/
def takeDisp {w : Nat} (full : List Byte → Option (BitVec w × List Byte)) (mod : BitVec 2) (bs : List Byte) :
    Option (Disp w × List Byte) :=
  if mod = 0#2 then some (.none, bs)
  else if mod = 1#2 then (take8 bs).map fun (v, r) => (.d8 v, r)
  else (full bs).map fun (v, r) => (.full v, r)

/-- The memory operand after a ModRM byte with these fields, mod not 3 (R109 to R112). -/
def takeMem (asz : AddrSize) (mod : BitVec 2) (rm : BitVec 3) (bs : List Byte) : Option (MemOp × List Byte) :=
  match asz with
  | .a16 =>
    if mod = 0#2 ∧ rm = 6#3 then (take16 bs).map fun (v, r) => (.abs16 v, r)
    else (takeDisp take16 mod bs).map fun (d, r) => (.base16 rm d, r)
  | .a32 | .a64 =>
    if rm = 4#3 then
      match bs with
      | [] => none
      | s :: bs' =>
        if mod = 0#2 ∧ s.extractLsb' 0 3 = 5#3 then
          (take32 bs').map fun (v, r) => (.sibNoBase (s.extractLsb' 6 2) (s.extractLsb' 3 3) v, r)
        else
          (takeDisp take32 mod bs').map fun (d, r) =>
            (.sib (s.extractLsb' 6 2) (s.extractLsb' 3 3) (s.extractLsb' 0 3) d, r)
    else if mod = 0#2 ∧ rm = 5#3 then (take32 bs).map fun (v, r) => (.dispRip v, r)
    else (takeDisp take32 mod bs).map fun (d, r) => (.base rm d, r)

/-- The 24-bit number `o1*65536 + o2*256 + ModRM` of R115. -/
def opcodeNumber (o1 o2 m : Byte) : BitVec 24 := o1 ++ o2 ++ m

/-- The two opcode rows of R115, by match and mask: `false` is XRSTOR (0FAE28H), `true` XSAVES (0FC728H). -/
def matchOpcode (n : BitVec 24) : Option Bool :=
  if n &&& 0xFFFF38#24 = 0x0FAE28#24 then some false
  else if n &&& 0xFFFF38#24 = 0x0FC728#24 then some true
  else none

/-- The form that opcode row and REX.W select (R103, R115). `rex` is `WRXB`. -/
def makeInstr (save : Bool) (pfx : List Pfx) (rex : Option (BitVec 4)) (m : MemOp) : Instr :=
  match rex with
  | none => if save then .xsaves pfx none m else .xrstor pfx none m
  | some r =>
    let xb : Rex := ⟨r.getLsbD 1, r.getLsbD 0⟩
    if r.getLsbD 3 then (if save then .xsaves64 pfx xb m else .xrstor64 pfx xb m)
    else (if save then .xsaves pfx (some xb) m else .xrstor pfx (some xb) m)

/-- REX.R of the four bits `WRXB`. -/
def rexR (rex : Option (BitVec 4)) : Bool := (rex.map fun r => r.getLsbD 2).getD false

/-- The opcode bytes, the ModRM byte and the operand, after the legacy bytes `pfx` and the REX bits `rex`. DESIGN CHOICE (log 35,
safe): where REX.R = 1 (R116 (f)), more than 15 bytes (R101) or bytes that end too early meet a condition for #UD as well (a forbidden
prefix, R106; OSXSAVE = 0 or an absent feature, R116 (b)), the rejection here comes first; the spec gives no order. -/
def decodeTail (cx : DecodeCtx) (pfx : List Pfx) (rex : Option (BitVec 4)) : List Byte → Decoded
  | o1 :: o2 :: m :: bs =>
    match matchOpcode (opcodeNumber o1 o2 m) with
    | none => .rejected .notInScope
    | some save =>
      if m.extractLsb' 6 2 = 3#2 then .rejected .notInScope
      else if rexR rex then .rejected .rexR
      else
        match takeMem (addrSize cx pfx) (m.extractLsb' 6 2) (m.extractLsb' 0 3) bs with
        | none => .rejected .truncated
        | some (mem, rest) =>
          let i := makeInstr save pfx rex mem
          if i.length ≤ 15 then .ok i rest else .rejected .tooLong
  | [] => .rejected .truncated
  | [o1] => if o1 = 0x0F#8 then .rejected .truncated else .rejected .notInScope
  | [o1, o2] => if o1 = 0x0F#8 ∧ (o2 = 0xAE#8 ∨ o2 = 0xC7#8) then .rejected .truncated else .rejected .notInScope

/-- Decode the instruction at the front of the bytes (R100, R115, R117). -/
def decode (cx : DecodeCtx) (bs : List Byte) : Decoded :=
  let (pfx, bs1) := takePfxs bs
  let (rex, bs2) := takeRex cx.mode bs1
  decodeTail cx pfx rex bs2

/-! ### Encoding, written from the same tables -/

/-- A legacy byte (R105, R106). -/
def encodePfx : Pfx → Byte
  | .seg .es => 0x26
  | .seg .cs => 0x2E
  | .seg .ss => 0x36
  | .seg .ds => 0x3E
  | .seg .fs => 0x64
  | .seg .gs => 0x65
  | .addrSize => 0x67
  | .lock => 0xF0
  | .opSize => 0x66
  | .repF3 => 0xF3
  | .repF2 => 0xF2

/-- The REX byte `0100W0XB` (R103). -/
def encodeRex (w : Bool) (r : Rex) : Byte :=
  4#4 ++ BitVec.ofBool w ++ 0#1 ++ BitVec.ofBool r.x ++ BitVec.ofBool r.b

/-- The 8k bits of `v`, least significant byte first (R114). -/
def bytesOf {w : Nat} (v : BitVec w) : Nat → List Byte
  | 0 => []
  | k + 1 => v.extractLsb' 0 8 :: bytesOf (v >>> 8) k

/-- The bytes of a displacement. -/
def encodeDisp {w : Nat} : Disp w → List Byte
  | .none => []
  | .d8 v => [v]
  | .full v => bytesOf v (w / 8)

/-- The mod field a displacement calls for. -/
def Disp.mod {w : Nat} : Disp w → BitVec 2
  | .none => 0
  | .d8 _ => 1
  | .full _ => 2

/-- The ModRM byte with reg = 5, and what follows it (R108 to R112, R114). -/
def encodeMem : MemOp → List Byte
  | .base16 rm d => (d.mod ++ 5#3 ++ rm) :: encodeDisp d
  | .abs16 v => (0#2 ++ 5#3 ++ 6#3) :: bytesOf v 2
  | .base rm d => (d.mod ++ 5#3 ++ rm) :: encodeDisp d
  | .dispRip v => (0#2 ++ 5#3 ++ 5#3) :: bytesOf v 4
  | .sib sc ix b d => (d.mod ++ 5#3 ++ 4#3) :: (sc ++ ix ++ b) :: encodeDisp d
  | .sibNoBase sc ix v => (0#2 ++ 5#3 ++ 4#3) :: (sc ++ ix ++ 5#3) :: bytesOf v 4

/-- The bytes of an instruction (R100). -/
def encode : Instr → List Byte
  | .xrstor p r m => p.map encodePfx ++ (r.map (encodeRex false)).toList ++ [0x0F, 0xAE] ++ encodeMem m
  | .xrstor64 p r m => p.map encodePfx ++ [encodeRex true r] ++ [0x0F, 0xAE] ++ encodeMem m
  | .xsaves p r m => p.map encodePfx ++ (r.map (encodeRex false)).toList ++ [0x0F, 0xC7] ++ encodeMem m
  | .xsaves64 p r m => p.map encodePfx ++ [encodeRex true r] ++ [0x0F, 0xC7] ++ encodeMem m

/-! ### Words numbered as spec/opcode_table.json numbers them -/

/-- The bytes of a table number of `n` bytes: the table counts `o1*65536 + o2*256 + ModRM`, the first byte most significant
(R115, the table's `match_over`; log 4). -/
def tableBytes : Nat → Nat → List Byte
  | 0, _ => []
  | n + 1, w => BitVec.ofNat 8 (w >>> (8 * n)) :: tableBytes n w

/-- The bytes of a table word as the hardware stores them, followed by zeros up to the longest instruction. -/
def tableImage (nbits w : Nat) : List Byte :=
  tableBytes (nbits / 8) w ++ List.replicate (15 - nbits / 8) 0

/-- The instruction the decoder reads from a table word, in 64-bit mode, the mode that has all four rows (log 4). -/
def decodeTableWord (nbits w : Nat) : Option Instr :=
  match decode ⟨.long64, false⟩ (tableImage nbits w) with
  | .ok i _ => some i
  | .rejected _ => none

end Sys2Proof
end

