-- ==== Sys2Proof/Machine/Fetch.lean ====
section
/-! DEFINITION. Machine/Fetch.lean: the instruction's bytes come from the program text, not from Mem (10_state.md R43; log 2), and
what the step answers when there is no instruction. -/

namespace Sys2Proof.Machine

open Sys2Proof

/-- The program text from the linear address of CS:RIP on; `none`: RIP addresses no byte of it. -/
def fetchBytes (s : State) : Option (List Byte) :=
  if s.text.has s.fetchAddress then some (s.text.bytes.drop (s.fetchAddress - s.text.start)) else none

/-- RIP is just past the last instruction: the run has ended finally (70_reset_and_hazards.md R251 (a)). The address just past a text
that ends at the top of the linear address space is 0. -/
def State.final (s : State) : Bool :=
  decide (s.fetchAddress = (s.text.start + s.text.bytes.length) % 2 ^ linBits s.mode)

/-- The refusal when RIP addresses no byte of the text (R251; the two refusals are the model's: log 41). -/
def noBytes (s : State) : Refusal := if s.final then .runEnded else .outsideText

/-- The refusal for bytes that are none of the four forms (30_encoding.md R101, R104, R116). -/
def rejection : Reject → Refusal
  | .notInScope => .notInScope
  | .rexR => .rexR
  | .tooLong => .tooLong
  | .truncated => .truncated

/-- The program text is `bytes`, at the linear address of CS:RIP. -/
def State.withText (s : State) (bytes : List Byte) : State :=
  { s with text := { start := s.fetchAddress, bytes := bytes } }

/-- Fetch and decode the instruction at RIP in the current mode. -/
def fetch (s : State) : Decoded ⊕ Refusal :=
  match fetchBytes s with
  | none => .inr (noBytes s)
  | some bs => .inl (decode s.decodeCtx bs)

end Sys2Proof.Machine
end

