-- ==== Sys2Proof/Machine/Step.lean ====
section
/-! DEFINITION. Machine/Step.lean: one step of the machine: fetch, decode, execute (00_scope.md R14). -/

namespace Sys2Proof.Machine

open Sys2Proof

/-- One instruction, with one of the three outcomes. -/
def step (s : State) : Host.Outcome State Fault Refusal :=
  match fetch s with
  | .inr r => .refused r
  | .inl (.rejected r) => .refused (rejection r)
  | .inl (.ok i _) => exec i s

/-- `s` with the table word's instruction as its program text, where step fetches its next instruction (log 3, log 4). -/
def State.withFetchWord (s : State) (nbits w : Nat) : State := s.withText (tableImage nbits w)

end Sys2Proof.Machine
end

