-- ==== Sys2Proof/Safety.lean ====
section
/-! DEFINITION. Safety.lean: the invariants of the tracking state (10_state.md R35, R36), the launch premises
(70_reset_and_hazards.md R242), and what counts as a safe run. -/

namespace Sys2Proof

open Sys2Proof.Machine

/-- `INV_XINUSE` (10_state.md R35): a component tracked as not in use is in its initial configuration; nothing is said of MXCSR. -/
def InvXinuse (s : State) : Prop :=
  (s.xinuse.getLsbD 0 = false → s.x87 = X87.initial) ∧
  (s.xinuse.getLsbD 1 = false → s.xmm = zeroVecs) ∧
  (s.xinuse.getLsbD 2 = false → s.ymmHi = zeroVecs)

/-- `INV_XMOD` (10_state.md R36): where XMODIFIED[i] = 0, the registers of component `i` are those of `r`, the state the last
completed XRSTOR left. -/
def InvXmod (r s : State) : Prop :=
  (s.xmodified.getLsbD 0 = false → s.x87 = r.x87) ∧
  (s.xmodified.getLsbD 1 = false → s.xmm = r.xmm ∧ s.mxcsr = r.mxcsr) ∧
  (s.xmodified.getLsbD 2 = false → s.ymmHi = r.ymmHi)

/-- The tracking bitmaps have no bit above the three components: "bits 63:3 being 0 in this spec" (10_state.md R35). -/
def TrackingInRange (s : State) : Prop := s.xinuse >>> 3 = 0 ∧ s.xmodified >>> 3 = 0

/-- Memory is in its canonical form, every listed address below `2^64`. -/
def MemoryOk (s : State) : Prop := s.mem.wf = true ∧ s.mem.below (2 ^ 64) = true

/-- The invariant every step keeps. -/
structure Inv (s : State) : Prop where
  memory   : MemoryOk s
  xinuse   : InvXinuse s
  tracking : TrackingInRange s

/-- `P_CFG`, `P_SCOPE` and the state part of `P_INV` (70_reset_and_hazards.md R242). `P_MODE`, `P_NOFAULT` and the fixed inputs of `P_MEM`
hold by the model's form: no step changes them, and a fault ends a run. -/
structure LaunchOk (s : State) : Prop where
  cfg   : Cfg.valid s.cfg = true
  scope : s.inScope = true
  inv   : Inv s

/-- MODE and CPL agree with the registers they follow from (10_state.md R39, R41). -/
def ModeAgrees (s : State) : Prop :=
  s.mode = s.modeOf ∧ (s.mode = .real → s.cpl = 0#2) ∧ (s.mode = .v8086 → s.cpl = 3#2)

/-- What no step changes: the general registers, the flags, the control registers, XCR0, IA32_XSS, CPL, VMXNR, MODE, the segment
registers, the configuration, the environment and the program text (40_xrstor.md R149, 41_xsaves.md R181, 70_reset_and_hazards.md R242). -/
structure SameContext (s t : State) : Prop where
  gprs   : t.gprs = s.gprs
  eflags : t.eflags = s.eflags
  cr0    : t.cr0 = s.cr0
  cr4    : t.cr4 = s.cr4
  efer   : t.efer = s.efer
  xcr0   : t.xcr0 = s.xcr0
  xss    : t.xss = s.xss
  cpl    : t.cpl = s.cpl
  vmxnr  : t.vmxnr = s.vmxnr
  mode   : t.mode = s.mode
  segs   : t.segs = s.segs
  csD    : t.csD = s.csD
  csL    : t.csL = s.csL
  cfg    : t.cfg = s.cfg
  env    : t.env = s.env
  text   : t.text = s.text

/-- The state components, their tracking and XRSTOR_INFO are the same. -/
structure SameComponents (s t : State) : Prop where
  x87        : t.x87 = s.x87
  xmm        : t.xmm = s.xmm
  mxcsr      : t.mxcsr = s.mxcsr
  ymmHi      : t.ymmHi = s.ymmHi
  xinuse     : t.xinuse = s.xinuse
  xmodified  : t.xmodified = s.xmodified
  xrstorInfo : t.xrstorInfo = s.xrstorInfo

/-! ### When an instruction executes normally (70_reset_and_hazards.md R243) -/

/-- The premises and rows 1 to 3 of R243: in scope, enumerated, CR4.OSXSAVE = 1, no forbidden byte, CR0.TS = 0. -/
structure Enabled (s : State) (o : Operand) : Prop where
  cfg     : Cfg.valid s.cfg = true
  scope   : s.inScope = true
  noWrap  : ripWraps s o.len = false
  xsave   : s.cfg.xsave = true
  osxsave : s.osxsave = true
  pfx     : o.pfx.any Pfx.forbidden = false
  ts      : s.ts = false

/-- The area starts at a multiple of 64, judged on the linear and on the effective address (20_memory.md R66). -/
structure Aligned64 (ar : Area) : Prop where
  linear    : ar.laxa.toNat % 64 = 0
  effective : ar.ea.toNat % 64 = 0

/-- No linear and no effective address of the area bytes `offs` wraps (20_memory.md R80); in real-address mode an effective address
above FFFFH is the limit check's (log 15). -/
structure NoWrap (s : State) (ar : Area) (offs : List Nat) : Prop where
  linear    : ∀ o ∈ offs, ar.at o < 2 ^ linBits s.mode
  effective : s.mode ≠ .real → ∀ o ∈ offs, ar.ea.toNat + o < 2 ^ ar.asz.bits

/-- Area byte `o` passes the limit or canonical check and is translated (20_memory.md R62, R63, R81). -/
structure ByteReachable (s : State) (ar : Area) (acc : Access) (o : Nat) : Prop where
  address    : byteAddressOk s ar o = true
  translated : s.mode ≠ .real → translate s.env (ar.at o) acc s.cpl = none

/-- The area bytes `offs` can be accessed: no address wraps, each is inside its segment or canonical, is translated, lies in
ordinary memory that no other agent accesses, and, for a write, is no byte of the program text (20_memory.md R62, R63, R69, R80, R81,
R83, R86). -/
structure BytesUsable (s : State) (ar : Area) (acc : Access) (offs : List Nat) : Prop where
  linear     : ∀ o ∈ offs, ar.at o < 2 ^ linBits s.mode
  effective  : s.mode ≠ .real → ∀ o ∈ offs, ar.ea.toNat + o < 2 ^ ar.asz.bits
  address    : ∀ o ∈ offs, byteAddressOk s ar o = true
  translated : s.mode ≠ .real → ∀ o ∈ offs, translate s.env (ar.at o) acc s.cpl = none
  ordinary   : ∀ r ∈ s.env.nonOrdinary, ∀ o ∈ offs, r.has (ar.at o) = false
  unshared   : ∀ x ∈ s.env.others, x.writes = true ∨ acc = .write → ∀ o ∈ offs, x.range.has (ar.at o) = false
  notText    : acc = .write → ∀ o ∈ offs, s.text.has (ar.at o) = false

/-- The header of a standard-form area is legal: 40_xrstor.md R134 (a), (b). -/
structure StandardHeader (s : State) (ar : Area) : Prop where
  form     : (xrstorMasks s ar).compmask.getLsbD 63 = false
  xstateBv : (xrstorMasks s ar).rstormask &&& ~~~s.xcr0 = 0
  reserved : ∀ o, 8 ≤ o → o < 24 → s.mem.read (ar.at (s.cfg.hdrOff + o)) = 0

/-- The header of a compacted-form area is legal: 40_xrstor.md R134 (c) to (f). -/
structure CompactedHeader (s : State) (ar : Area) : Prop where
  form     : (xrstorMasks s ar).compmask.getLsbD 63 = true
  xsavec   : s.cfg.xsavec = true
  xcompBv  : ∀ j, j < 63 → (xrstorMasks s ar).compmask.getLsbD j = true → s.xcr0.getLsbD j = true
  xstateBv : (xrstorMasks s ar).rstormask &&& ~~~(xrstorMasks s ar).compmask = 0
  reserved : ∀ o, 16 ≤ o → o < 64 → s.mem.read (ar.at (s.cfg.hdrOff + o)) = 0

/-- XRSTOR executes normally but for its header and the MXCSR image: rows 1 to 6 of R243. -/
structure RestoreReady (s : State) (o : Operand) : Prop where
  enabled : Enabled s o
  aligned : Aligned64 (areaOf s o)
  header  : BytesUsable s (areaOf s o) .read (headerMax s.cfg)
  load    : BytesUsable s (areaOf s o) .read (loadMax s.cfg s.xcr0 (xrstorMasks s (areaOf s o)))

/-- XSAVES executes normally: rows 1 to 6 of R243, outside VMX non-root operation (41_xsaves.md R183). -/
structure SaveReady (s : State) (o : Operand) : Prop where
  enabled : Enabled s o
  xss     : s.cfg.xss = true
  cpl     : s.cpl = 0#2
  vmxnr   : s.vmxnr = false
  aligned : Aligned64 (areaOf s o)
  area    : BytesUsable s (areaOf s o) .write (saveMax s)

/-! ### What an execution reads of the general registers (10_state.md R20) -/

/-- The registers a row of the 16-bit table names: BX = 3, BP = 5, SI = 6, DI = 7 (30_encoding.md R112). -/
def base16Regs (rm : BitVec 3) : List (BitVec 4) :=
  if rm = 0#3 then [3#4, 6#4]
  else if rm = 1#3 then [3#4, 7#4]
  else if rm = 2#3 then [5#4, 6#4]
  else if rm = 3#3 then [5#4, 7#4]
  else if rm = 4#3 then [6#4]
  else if rm = 5#3 then [7#4]
  else if rm = 6#3 then [5#4]
  else [3#4]

/-- The index register of a SIB byte; register number 4 means no index (30_encoding.md R110). -/
def indexRegs (rex : Rex) (index : BitVec 3) : List (BitVec 4) :=
  if regNum rex.x index = 4#4 then [] else [regNum rex.x index]

/-- The general registers the memory operand names as base and index (30_encoding.md R109 to R112). -/
def operandRegs (o : Operand) : List (BitVec 4) :=
  match o.mem with
  | .base16 rm _ => base16Regs rm
  | .abs16 _ | .dispRip _ => []
  | .base rm _ => [regNum o.rex.b rm]
  | .sib _ index base _ => regNum o.rex.b base :: indexRegs o.rex index
  | .sibNoBase _ index _ => indexRegs o.rex index

/-- A displacement as a signed number: absent 0, disp8, disp16 or disp32 by its sign bit (30_encoding.md R114; modulo `2^asz` a
disp16 or disp32 "used as is" is the same number). -/
def Disp.signed {w : Nat} : Disp w → Int
  | .none => 0
  | .d8 v => v.toInt
  | .full v => v.toInt

/-- A segment override has effect in the mode: each of the six, in 64-bit mode FS and GS only (30_encoding.md R105, R113). -/
def OverrideCounts (mode : Mode) (n : SegName) : Prop := mode = .long64 → n = .fs ∨ n = .gs

/-- `s` with another file of general registers. -/
def withGprs (g : Vector Word64 16) (s : State) : State := { s with gprs := g }

/-- The same outcome with another file of general registers in the state it carries. -/
def outcomeWithGprs (g : Vector Word64 16) :
    Host.Outcome State Fault Refusal → Host.Outcome State Fault Refusal
  | .next t => .next (withGprs g t)
  | .fault (.exception x code info post) => .fault (.exception x code info (withGprs g post))
  | .refused r => .refused r

/-- `k` steps from `s` meet no fault and no refusal: a safe run of that length. -/
def SafeFor (k : Nat) (s : State) : Prop := ∃ t, Host.Core.run core k s = .next t

end Sys2Proof
end

