-- ==== Sys2Proof/Certificates/Slice0/Obligations.lean ====
section
/-! DEFINITION. Certificates/Slice0/Obligations.lean: the statements for the provers. Each docstring names the rules it formalises;
`Draws.at s.draws` never stands for a chosen number: the constants behind it have no body. -/

open Sys2Proof Sys2Proof.Machine

/-! ## Encoding (30_encoding.md) -/

/-- R100, R115: decoding the bytes of a well-formed instruction gives it back, whatever follows it. -/
def Obligations.DecodeEncodeRoundTrip : Prop :=
  ∀ (cx : DecodeCtx) (i : Instr) (rest : List Byte), WellFormed cx i = true → decode cx (encode i ++ rest) = .ok i rest

/-- R100, R115, R117: bytes that decode to an instruction are its encoding, so no byte is dropped and no two byte strings share an
instruction; what is decoded is well-formed. -/
def Obligations.EncodeDecodeRoundTrip : Prop :=
  ∀ (cx : DecodeCtx) (bs : List Byte) (i : Instr) (rest : List Byte), decode cx bs = .ok i rest →
    bs = encode i ++ rest ∧ WellFormed cx i = true

/-- Words written out from the spec's encodings (95_test_vectors.md E1 to E4, E6, E8, E9, E11, E15) decode to their instructions. -/
def Obligations.SpecWordsDecode : Prop :=
  decode ⟨.long64, false⟩ [0x0F, 0xAE, 0x2F] = .ok (.xrstor [] none (.base 7 .none)) [] ∧
  decode ⟨.long64, false⟩ [0x48, 0x0F, 0xAE, 0x2F] = .ok (.xrstor64 [] ⟨false, false⟩ (.base 7 .none)) [] ∧
  decode ⟨.long64, false⟩ [0x0F, 0xC7, 0x2F] = .ok (.xsaves [] none (.base 7 .none)) [] ∧
  decode ⟨.long64, false⟩ [0x48, 0x0F, 0xC7, 0x2F] = .ok (.xsaves64 [] ⟨false, false⟩ (.base 7 .none)) [] ∧
  decode ⟨.long64, false⟩ [0x0F, 0xAE, 0xAC, 0x24, 0x00, 0x01, 0x00, 0x00] =
    .ok (.xrstor [] none (.sib 0 4 4 (.full 0x100))) [] ∧
  decode ⟨.long64, false⟩ [0x0F, 0xAE, 0x2D, 0xF9, 0x0F, 0x00, 0x00] = .ok (.xrstor [] none (.dispRip 0xFF9)) [] ∧
  decode ⟨.prot, true⟩ [0x0F, 0xAE, 0x2D, 0x00, 0x20, 0x00, 0x00] = .ok (.xrstor [] none (.dispRip 0x2000)) [] ∧
  decode ⟨.long64, false⟩ [0x42, 0x0F, 0xAE, 0x2C, 0x23] = .ok (.xrstor [] (some ⟨true, false⟩) (.sib 0 4 3 .none)) [] ∧
  decode ⟨.real, false⟩ [0x0F, 0xAE, 0x2F] = .ok (.xrstor [] none (.base16 7 .none)) []

/-- R104: the REX.W forms are decoded in 64-bit mode only, and outside it a first byte 40H to 4FH is refused. -/
def Obligations.RexFormsOnlyIn64BitMode : Prop :=
  (∀ (cx : DecodeCtx) (bs rest : List Byte) (i : Instr), decode cx bs = .ok i rest → i.wide = true → cx.mode = .long64) ∧
  (∀ (cx : DecodeCtx) (b : Byte) (bs : List Byte), cx.mode ≠ .long64 → b.extractLsb' 4 4 = 4#4 →
    decode cx (b :: bs) = .rejected .notInScope)

/-- R101: no decoded instruction is shorter than 3 or longer than 15 bytes, and its length is that of its encoding. -/
def Obligations.DecodedLengthBounds : Prop :=
  ∀ (cx : DecodeCtx) (bs rest : List Byte) (i : Instr), decode cx bs = .ok i rest →
    3 ≤ i.length ∧ i.length ≤ 15 ∧ bs.length = i.length + rest.length

/-! ## A step -/

/-- R14: when the bytes of the program text at CS:RIP decode to `i` in the current mode, the step is `exec i`; the step adds
nothing around it (RIP is advanced by the meaning, R21). -/
def Obligations.StepRunsDecodedInstruction : Prop :=
  ∀ (s : State) (bs rest : List Byte) (i : Instr), fetchBytes s = some bs → decode s.decodeCtx bs = .ok i rest →
    step s = exec i s

/-- R251, R43: a well-formed instruction whose encoding stands in the program text at CS:RIP is what the step runs. -/
def Obligations.StepRunsEncodedInstruction : Prop :=
  ∀ (s : State) (before after : List Byte) (i : Instr), WellFormed s.decodeCtx i = true →
    s.text.bytes = before ++ encode i ++ after → s.fetchAddress = s.text.start + before.length → step s = exec i s

/-- Where CS:RIP addresses no byte of the program text nothing runs: just past its last byte the run has ended (R251 (a)). That
the step then refuses, with the names `runEnded` and, elsewhere, `outsideText`, is the model's choice (log 41). -/
def Obligations.StepOutsideTextRefuses : Prop :=
  ∀ (s : State), s.text.has s.fetchAddress = false →
    step s = .refused (if s.fetchAddress = (s.text.start + s.text.bytes.length) % 2 ^ linBits s.mode then .runEnded else .outsideText)

/-! ## XRSTOR and XRSTOR64 (40_xrstor.md) -/

/-- R133, R135, R136, R137, R139, R145, R149: a standard-form XRSTOR or XRSTOR64 on a usable area with a legal header (and a
legal MXCSR image, where SSE or AVX is requested) completes, with these registers. The free values FCS and FDS of the REX.W
form are those of some `d`. -/
def Obligations.XrstorStandardFormCompletes : Prop :=
  ∀ (i : Instr) (s : State), i.saves = false →
    let ar := areaOf s (operandOf i)
    let la := ar.laxa.toNat
    let rfbm := s.xcr0 &&& s.instrMask
    let rstor := readXstateBv s.cfg s.mem la
    RestoreReady s (operandOf i) → StandardHeader s ar →
    (rfbm.getLsbD 1 = true ∨ rfbm.getLsbD 2 = true → readMxcsr s.mem la &&& s.cfg.mxcsrRsvd = 0) →
    ∃ t, exec i s = .next t ∧
      (∃ d : Draws, t.x87 = if rfbm.getLsbD 0 then
        (if rstor.getLsbD 0 then loadX87 d i.wide s.mem la else X87.initial) else s.x87) ∧
      (∀ j : Fin 16, t.xmm.get j = if rfbm.getLsbD 1 && decide (j.val < nVec s.mode) then
        (if rstor.getLsbD 1 then BitVec.ofNat 128 (s.mem.readLE (la + (160 + 16 * j.val)) 16) else 0) else s.xmm.get j) ∧
      t.mxcsr = (if rfbm.getLsbD 1 || rfbm.getLsbD 2 then readMxcsr s.mem la else s.mxcsr) ∧
      (∀ j : Fin 16, t.ymmHi.get j = if rfbm.getLsbD 2 && decide (j.val < nVec s.mode) then
        (if rstor.getLsbD 2 then BitVec.ofNat 128 (s.mem.readLE (la + (avxBaseStd s.cfg + 16 * j.val)) 16) else 0)
        else s.ymmHi.get j) ∧
      t.xrstorInfo = some ⟨s.cpl, s.vmxnr, ar.laxa, 0⟩ ∧
      t.rip = s.rip + BitVec.ofNat 64 i.length

/-- R133, R140, R141, R142, R145, R149: a compacted-form XRSTOR or XRSTOR64 on a usable area with a legal header (and a legal
MXCSR image, where SSE state is loaded) completes, with these registers. -/
def Obligations.XrstorCompactedFormCompletes : Prop :=
  ∀ (i : Instr) (s : State), i.saves = false →
    let ar := areaOf s (operandOf i)
    let la := ar.laxa.toNat
    let rfbm := s.xcr0 &&& s.instrMask
    let rstor := readXstateBv s.cfg s.mem la
    RestoreReady s (operandOf i) → CompactedHeader s ar →
    (rfbm.getLsbD 1 = true → rstor.getLsbD 1 = true → readMxcsr s.mem la &&& s.cfg.mxcsrRsvd = 0) →
    ∃ t, exec i s = .next t ∧
      (∃ d : Draws, t.x87 = if rfbm.getLsbD 0 then
        (if rstor.getLsbD 0 then loadX87 d i.wide s.mem la else X87.initial) else s.x87) ∧
      (∀ j : Fin 16, t.xmm.get j = if rfbm.getLsbD 1 && decide (j.val < nVec s.mode) then
        (if rstor.getLsbD 1 then BitVec.ofNat 128 (s.mem.readLE (la + (160 + 16 * j.val)) 16) else 0) else s.xmm.get j) ∧
      t.mxcsr = (if rfbm.getLsbD 1 then (if rstor.getLsbD 1 then readMxcsr s.mem la else 0x1F80) else s.mxcsr) ∧
      (∀ j : Fin 16, t.ymmHi.get j = if rfbm.getLsbD 2 && decide (j.val < nVec s.mode) then
        (if rstor.getLsbD 2 then BitVec.ofNat 128 (s.mem.readLE (la + (s.cfg.extOff + 16 * j.val)) 16) else 0)
        else s.ymmHi.get j) ∧
      t.xrstorInfo = some ⟨s.cpl, s.vmxnr, ar.laxa, readXcompBv s.cfg s.mem la⟩ ∧
      t.rip = s.rip + BitVec.ofNat 64 i.length

/-- R73: what `LoadX87(w)` reads from the legacy region: the pointers as 32-bit offsets and selectors without REX.W, as 64-bit
offsets with it. -/
def Obligations.LoadX87FieldsByForm : Prop :=
  ∀ (d : Draws) (m : Memory) (la : Nat),
    (∀ w, (loadX87 d w m la).fcw.toNat = m.readLE la 2 ∧ (loadX87 d w m la).fsw.toNat = m.readLE (la + 2) 2 ∧
      (loadX87 d w m la).ftw = m.read (la + 4) ∧ (loadX87 d w m la).fop.toNat = m.readLE (la + 6) 2 % 2 ^ 11 ∧
      ∀ j : Fin 8, ((loadX87 d w m la).st.get j).toNat = m.readLE (la + (32 + 16 * j.val)) 10) ∧
    (loadX87 d false m la).fip.toNat = m.readLE (la + 8) 4 ∧ (loadX87 d false m la).fcs.toNat = m.readLE (la + 12) 2 ∧
    (loadX87 d false m la).fdp.toNat = m.readLE (la + 16) 4 ∧ (loadX87 d false m la).fds.toNat = m.readLE (la + 20) 2 ∧
    (loadX87 d true m la).fip.toNat = m.readLE (la + 8) 8 ∧ (loadX87 d true m la).fdp.toNat = m.readLE (la + 16) 8

/-- R146: the tracking after a completed XRSTOR or XRSTOR64, component by component, with both settings of XINUSE_AFTER_INIT
(decisions D10, D11); no bit above the three components changes. -/
def Obligations.XrstorTracking : Prop :=
  ∀ (i : Instr) (s t : State), i.saves = false → exec i s = .next t →
    let rfbm := s.xcr0 &&& s.instrMask
    let rstor := readXstateBv s.cfg s.mem (areaOf s (operandOf i)).laxa.toNat
    (∀ j, j < 3 →
      (rfbm.getLsbD j = true → rstor.getLsbD j = true →
        t.xinuse.getLsbD j = true ∧ t.xmodified.getLsbD j = false) ∧
      (rfbm.getLsbD j = false →
        t.xinuse.getLsbD j = s.xinuse.getLsbD j ∧ t.xmodified.getLsbD j = true) ∧
      (rfbm.getLsbD j = true → rstor.getLsbD j = false →
        t.xmodified.getLsbD j = t.xinuse.getLsbD j ∧
        (t.isInitial j = false → t.xinuse.getLsbD j = true) ∧
        (s.cfg.xinuseAfterInit = .zero → t.isInitial j = true → t.xinuse.getLsbD j = false))) ∧
    (∀ j, 3 ≤ j → t.xinuse.getLsbD j = s.xinuse.getLsbD j ∧ t.xmodified.getLsbD j = s.xmodified.getLsbD j)

/-- R138: a completed XRSTOR or XRSTOR64 does not update a component with RFBM[i] = 0. The one exception is MXCSR in the standard
form, which is loaded also when RFBM[1] = 0 and RFBM[2] = 1; the compacted form does not make it. -/
def Obligations.XrstorKeepsUnrequestedComponents : Prop :=
  ∀ (i : Instr) (s t : State), i.saves = false → exec i s = .next t →
    let ar := areaOf s (operandOf i)
    let k := xrstorMasks s ar
    (k.rfbm.getLsbD 0 = false → t.x87 = s.x87) ∧
    (k.rfbm.getLsbD 1 = false → t.xmm = s.xmm) ∧
    (k.rfbm.getLsbD 2 = false → t.ymmHi = s.ymmHi) ∧
    (k.compmask.getLsbD 63 = true → k.rfbm.getLsbD 1 = false → t.mxcsr = s.mxcsr) ∧
    (k.compmask.getLsbD 63 = false → k.rfbm.getLsbD 1 = false →
      t.mxcsr = if k.rfbm.getLsbD 2 then readMxcsr s.mem ar.laxa.toNat else s.mxcsr)

/-- R138, R149: the frame of a completed XRSTOR or XRSTOR64: no byte of memory changes, no register of the context changes, and a
component that is not requested keeps its registers; MXCSR changes only when the form loads or initialises it; outside
64-bit mode vector registers 8 to 15 keep their values (10_state.md R30, R32). RIP, XINUSE, XMODIFIED and XRSTOR_INFO are
written (`XrstorTracking`, the completion statements). -/
def Obligations.XrstorFrame : Prop :=
  ∀ (i : Instr) (s t : State), i.saves = false → exec i s = .next t →
    let ar := areaOf s (operandOf i)
    let rfbm := s.xcr0 &&& s.instrMask
    SameContext s t ∧ (∀ a, t.mem.read a = s.mem.read a) ∧
    (rfbm.getLsbD 0 = false → t.x87 = s.x87) ∧
    (rfbm.getLsbD 1 = false → t.xmm = s.xmm) ∧
    (rfbm.getLsbD 2 = false → t.ymmHi = s.ymmHi) ∧
    (rfbm.getLsbD 1 = false →
      rfbm.getLsbD 2 = false ∨ (xrstorMasks s ar).compmask.getLsbD 63 = true → t.mxcsr = s.mxcsr) ∧
    (s.mode ≠ .long64 → ∀ j : Fin 16, 8 ≤ j.val → t.xmm.get j = s.xmm.get j ∧ t.ymmHi.get j = s.ymmHi.get j)

/-- R151, first bullet: with no requested component enabled a completed XRSTOR changes no component and no XINUSE bit, marks every
component modified, and still records XRSTOR_INFO. -/
def Obligations.XrstorWithoutRequest : Prop :=
  ∀ (i : Instr) (s t : State), i.saves = false → exec i s = .next t → s.xcr0 &&& s.instrMask = 0 →
    let ar := areaOf s (operandOf i)
    t.x87 = s.x87 ∧ t.xmm = s.xmm ∧ t.mxcsr = s.mxcsr ∧ t.ymmHi = s.ymmHi ∧ t.xinuse = s.xinuse ∧
    (∀ j, j < 3 → t.xmodified.getLsbD j = true) ∧
    t.xrstorInfo = some ⟨s.cpl, s.vmxnr, ar.laxa, readXcompBv s.cfg s.mem ar.laxa.toNat⟩

/-- R131: XRSTOR64 and XRSTOR (with a REX byte, so of the same length) behave identically when RFBM[0] = 0 or XSTATE_BV[0] = 0. -/
def Obligations.XrstorFormsAgreeWithoutX87Load : Prop :=
  ∀ (pfx : List Pfx) (rex : Rex) (mem : MemOp) (s : State),
    let i := Instr.xrstor64 pfx rex mem
    (s.xcr0 &&& s.instrMask).getLsbD 0 = false ∨
      (readXstateBv s.cfg s.mem (areaOf s (operandOf i)).laxa.toNat).getLsbD 0 = false →
    exec i s = exec (.xrstor pfx (some rex) mem) s

/-! ## XSAVES and XSAVES64 (41_xsaves.md) -/

/-- R172, R178, R179, R181: XSAVES and XSAVES64 on a usable area at CPL 0 complete, with XSTATE_BV = XINUSE AND RFBM (bit 1 also
set for a non-initial MXCSR), XCOMP_BV = RFBM OR 80000000_00000000H, and RIP advanced. -/
def Obligations.XsavesCompletes : Prop :=
  ∀ (i : Instr) (s : State), i.saves = true →
    let la := (areaOf s (operandOf i)).laxa.toNat
    let rfbm := (s.xcr0 ||| s.xss) &&& s.instrMask
    SaveReady s (operandOf i) → MemoryOk s →
    ∃ t, exec i s = .next t ∧
      (∀ j, (readXstateBv s.cfg t.mem la).getLsbD j =
        (rfbm.getLsbD j && (s.xinuse.getLsbD j || (j == 1 && decide (s.mxcsr ≠ 0x1F80))))) ∧
      readXcompBv s.cfg t.mem la = rfbm ||| 0x8000000000000000 ∧
      t.rip = s.rip + BitVec.ofNat 64 i.length

/-- R178, R179: the header a completed XSAVES or XSAVES64 writes. XSTATE_BV is RFBM AND XINUSE, bit 1 being set also when MXCSR is not
1F80H and RFBM[1] = 1, whatever the modified optimization skips; XCOMP_BV has bit 63 set and RFBM[62:0] below it. -/
def Obligations.XsavesWritesHeader : Prop :=
  ∀ (i : Instr) (s t : State), i.saves = true → MemoryOk s → exec i s = .next t →
    let la := (areaOf s (operandOf i)).laxa.toNat
    let rfbm := (s.xcr0 ||| s.xss) &&& s.instrMask
    (∀ j, j ≠ 1 → (readXstateBv s.cfg t.mem la).getLsbD j = (rfbm &&& s.xinuse).getLsbD j) ∧
    (readXstateBv s.cfg t.mem la).getLsbD 1 = (rfbm.getLsbD 1 && (s.xinuse.getLsbD 1 || decide (s.mxcsr ≠ 0x1F80))) ∧
    (readXcompBv s.cfg t.mem la).getLsbD 63 = true ∧
    ∀ j, j < 63 → (readXcompBv s.cfg t.mem la).getLsbD j = rfbm.getLsbD j

/-- R174, R175, R176: a component that is needed is stored unless the modified optimization is allowed for it (MODOPT = 1 and
XMODIFIED[i] = 0): SSE and AVX state, register by register. That bytes 31:28 receive MXCSR_MASK is general knowledge (GK12; PRESUMED
and unsafe, log 43). -/
def Obligations.XsavesStoresVectorState : Prop :=
  ∀ (i : Instr) (s t : State), i.saves = true → MemoryOk s → exec i s = .next t →
    let ar := areaOf s (operandOf i)
    let la := ar.laxa.toNat
    (need s 1 = true → modOpt s ar = false ∨ s.xmodified.getLsbD 1 = true →
      t.mem.readLE (la + 24) 4 = s.mxcsr.toNat ∧ t.mem.readLE (la + 28) 4 = s.cfg.mxcsrMask.toNat ∧
      ∀ j : Fin 16, j.val < nVec s.mode → t.mem.readLE (la + (160 + 16 * j.val)) 16 = (s.xmm.get j).toNat) ∧
    (need s 2 = true → modOpt s ar = false ∨ s.xmodified.getLsbD 2 = true →
      ∀ j : Fin 16, j.val < nVec s.mode → t.mem.readLE (la + (s.cfg.extOff + 16 * j.val)) 16 = (s.ymmHi.get j).toNat)

/-- R73, R174, R175, R176: the x87 image of XSAVES (32-bit pointers and selectors) and XSAVES64 (64-bit pointers). -/
def Obligations.XsavesStoresX87State : Prop :=
  ∀ (i : Instr) (s t : State), i.saves = true → MemoryOk s → exec i s = .next t →
    let ar := areaOf s (operandOf i)
    let la := ar.laxa.toNat
    need s 0 = true → modOpt s ar = false ∨ s.xmodified.getLsbD 0 = true →
      t.mem.readLE la 2 = s.x87.fcw.toNat ∧ t.mem.readLE (la + 2) 2 = s.x87.fsw.toNat ∧ t.mem.read (la + 4) = s.x87.ftw ∧
      t.mem.readLE (la + 6) 2 % 2 ^ 11 = s.x87.fop.toNat ∧
      (i.wide = true → t.mem.readLE (la + 8) 8 = s.x87.fip.toNat ∧ t.mem.readLE (la + 16) 8 = s.x87.fdp.toNat) ∧
      (i.wide = false → t.mem.readLE (la + 8) 4 = s.x87.fip.toNat % 2 ^ 32 ∧ t.mem.readLE (la + 12) 2 = s.x87.fcs.toNat ∧
        t.mem.readLE (la + 16) 4 = s.x87.fdp.toNat % 2 ^ 32 ∧ t.mem.readLE (la + 20) 2 = s.x87.fds.toNat) ∧
      ∀ j : Fin 8, t.mem.readLE (la + (32 + 16 * j.val)) 10 = (s.x87.st.get j).toNat

/-- R177, R181: the frame of a completed XSAVES or XSAVES64: no register but RIP changes, and every byte of memory outside the
bytes stored (header bytes 15:0 and the bytes of the components stored, at LAXA + offset) is as before. For legacy bytes 463:416 that is
decision D21, on which the spec says a claim should not depend (DESIGN CHOICE, unsafe: log 23). -/
def Obligations.XsavesFrame : Prop :=
  ∀ (i : Instr) (s t : State), i.saves = true → MemoryOk s → exec i s = .next t →
    let ar := areaOf s (operandOf i)
    SameContext s t ∧ SameComponents s t ∧
    ∀ a, (∀ o ∈ saveMin (Draws.at s.draws) s ar, a ≠ ar.laxa.toNat + o) → t.mem.read a = s.mem.read a

/-- R177: what a completed XSAVES or XSAVES64 never writes: legacy bytes 511:464 and 463:416, header bytes 63:16, the bytes of a
component that is not stored (x87: 23:0 and 159:32; SSE: 31:24 and 415:160; AVX: from the extended region on), and, outside
64-bit mode, the bytes of vector registers 8 to 15 (R175). -/
def Obligations.XsavesNeverWrites : Prop :=
  ∀ (i : Instr) (s t : State), i.saves = true → MemoryOk s → exec i s = .next t →
    let ar := areaOf s (operandOf i)
    let d := Draws.at s.draws
    let same := fun o => t.mem.read (ar.laxa.toNat + o) = s.mem.read (ar.laxa.toNat + o)
    (∀ o, 416 ≤ o → o < 512 → same o) ∧
    (∀ o, 16 ≤ o → o < 64 → same (s.cfg.hdrOff + o)) ∧
    (stores d s ar 0 = false → ∀ o, o < 24 ∨ (32 ≤ o ∧ o < 160) → same o) ∧
    (stores d s ar 1 = false → ∀ o, (24 ≤ o ∧ o < 32) ∨ (160 ≤ o ∧ o < 416) → same o) ∧
    (stores d s ar 2 = false → ∀ o, same (s.cfg.extOff + o)) ∧
    (s.mode ≠ .long64 → (∀ o, 288 ≤ o → o < 416 → same o) ∧ (∀ o, 128 ≤ o → same (s.cfg.extOff + o)))

/-- R184, first bullet, R177: with nothing requested XSAVES writes the 16 header bytes and nothing else: XSTATE_BV = 0, XCOMP_BV =
80000000_00000000H. That legacy bytes 463:416 are among what it does not write is decision D21 (DESIGN CHOICE, unsafe: log 23). -/
def Obligations.XsavesWithoutRequest : Prop :=
  ∀ (i : Instr) (s t : State), i.saves = true → MemoryOk s → exec i s = .next t → (s.xcr0 ||| s.xss) &&& s.instrMask = 0 →
    let la := (areaOf s (operandOf i)).laxa.toNat
    readXstateBv s.cfg t.mem la = 0 ∧ readXcompBv s.cfg t.mem la = 0x8000000000000000 ∧
    ∀ a, a < la + s.cfg.hdrOff ∨ la + s.cfg.hdrOff + 16 ≤ a → t.mem.read a = s.mem.read a

/-- R176: a component that is needed is either stored whole or every byte of its image is as before, whatever the free value `Skip(i)`
is (decision D22, log 24): x87, SSE and AVX state. That storing SSE state writes MXCSR_MASK to bytes 31:28 is general knowledge (GK12;
PRESUMED and unsafe, log 43). -/
def Obligations.XsavesSkipsWholeComponentOrNothing : Prop :=
  ∀ (i : Instr) (s t : State), i.saves = true → MemoryOk s → exec i s = .next t →
    let la := (areaOf s (operandOf i)).laxa.toNat
    let same := fun o => t.mem.read (la + o) = s.mem.read (la + o)
    (need s 0 = true →
      (∀ o, o < 24 ∨ (32 ≤ o ∧ o < 160) → t.mem.read (la + o) = x87Byte (Draws.at s.draws) i.wide s.x87 o) ∨
      (∀ o, o < 24 ∨ (32 ≤ o ∧ o < 160) → same o)) ∧
    (need s 1 = true →
      (t.mem.readLE (la + 24) 4 = s.mxcsr.toNat ∧ t.mem.readLE (la + 28) 4 = s.cfg.mxcsrMask.toNat ∧
        ∀ j : Fin 16, j.val < nVec s.mode → t.mem.readLE (la + (160 + 16 * j.val)) 16 = (s.xmm.get j).toNat) ∨
      (∀ o, (24 ≤ o ∧ o < 32) ∨ (160 ≤ o ∧ o < 416) → same o)) ∧
    (need s 2 = true →
      (∀ j : Fin 16, j.val < nVec s.mode → t.mem.readLE (la + (s.cfg.extOff + 16 * j.val)) 16 = (s.ymmHi.get j).toNat) ∨
      (∀ o, same (s.cfg.extOff + o)))

/-- R171: XSAVES64 and XSAVES (with a REX byte) have the same outcome when x87 state is not stored. -/
def Obligations.XsavesFormsAgreeWithoutX87Store : Prop :=
  ∀ (pfx : List Pfx) (rex : Rex) (mem : MemOp) (s : State),
    stores (Draws.at s.draws) s (areaOf s (operandOf (.xsaves64 pfx rex mem))) 0 = false →
    exec (.xsaves64 pfx rex mem) s = exec (.xsaves pfx (some rex) mem) s

/-- R173: MODOPT = 1 exactly when XRSTOR_INFO is a tuple and its four components are this CPL, this VMXNR, this LAXA and this
COMPMASK. So right after a completed XRSTOR it is 1 exactly for its own LAXA, where it was of the compacted form and its
XCOMP_BV[62:0] is this RFBM[62:0]; after a standard-form XRSTOR no XSAVES has MODOPT = 1 (R184). -/
def Obligations.StandardRestoreDisablesModifiedOptimization : Prop :=
  (∀ (s : State) (ar : Area), modOpt s ar = true ↔
    ∃ x, s.xrstorInfo = some x ∧ x.cpl = s.cpl ∧ x.vmxnr = s.vmxnr ∧ x.laxa = ar.laxa ∧
      x.compmask = ((s.xcr0 ||| s.xss) &&& s.instrMask) ||| 0x8000000000000000) ∧
  ∀ (i j : Instr) (s t : State), i.saves = false → exec i s = .next t →
    let comp := readXcompBv s.cfg s.mem (areaOf s (operandOf i)).laxa.toNat
    let rfbm := (t.xcr0 ||| t.xss) &&& t.instrMask
    (modOpt t (areaOf t (operandOf j)) = true ↔
      (areaOf t (operandOf j)).laxa = (areaOf s (operandOf i)).laxa ∧ comp.getLsbD 63 = true ∧
        ∀ n, n < 63 → comp.getLsbD n = rfbm.getLsbD n) ∧
    (comp.getLsbD 63 = false → modOpt t (areaOf t (operandOf j)) = false)

/-! ## Exceptions (60_exceptions.md) -/

/-- The condition of #UD (R202; 40_xrstor.md R148, 41_xsaves.md R180): the feature is not enumerated, CR4.OSXSAVE = 0, or a LOCK,
66H, F3H or F2H byte is there. In scope, each of the four forms raises #UD exactly then, and the state is unchanged. That #UD is the
one reported where another exception applies too is decision D6 (R212, log 18). -/
def Obligations.InvalidOpcodeRaisedExactly : Prop :=
  ∀ (i : Instr) (s : State), Cfg.valid s.cfg = true → s.inScope = true → ripWraps s i.length = false →
    (exec i s = .fault (.exception .ud none none s) ↔
      s.cfg.xsave = false ∨ s.osxsave = false ∨ (∃ p ∈ i.pfxs, p = .lock ∨ p = .opSize ∨ p = .repF3 ∨ p = .repF2) ∨
        (i.saves = true ∧ s.cfg.xss = false))

/-- R203: where #UD does not apply, each of the four forms raises #NM exactly when CR0.TS = 1; nothing else decides it. That #UD goes
before it, and #NM before privilege, address, alignment and page exceptions, is decision D6 (R212, log 18). -/
def Obligations.DeviceNotAvailableRaisedExactly : Prop :=
  ∀ (i : Instr) (s : State), Cfg.valid s.cfg = true → s.inScope = true → ripWraps s i.length = false →
    s.cfg.xsave = true → s.osxsave = true → i.pfxs.any Pfx.forbidden = false → (i.saves = true → s.cfg.xss = true) →
    (exec i s = .fault (.exception .nm none none s) ↔ s.ts = true)

/-- R208, R180: XSAVES and XSAVES64 at CPL above 0 raise #GP(0) (#GP in real-address mode) and change nothing (decision D9, log 25).
That it goes before the exceptions of the operand is decision D6 (R212, log 18). -/
def Obligations.XsavesPrivilegeFault : Prop :=
  ∀ (i : Instr) (s : State), i.saves = true → Enabled s (operandOf i) → s.cfg.xss = true → s.cpl ≠ 0#2 →
    exec i s = .fault (.exception .gp (if s.mode = .real then none else some 0) none s)

/-- R183: XSAVES and XSAVES64 are refused in VMX non-root operation (decision D23). -/
def Obligations.XsavesRefusedInVmxNonRoot : Prop :=
  ∀ (i : Instr) (s : State), i.saves = true → Enabled s (operandOf i) → s.cfg.xss = true → s.cpl = 0#2 → s.vmxnr = true →
    exec i s = .refused .vmxXsaves

/-- R62, R63, R204, R209: pass 1 of XRSTOR. A byte of the header outside its segment limit or not canonical raises #SS(0) when the
operand's segment is SS (but in real-address mode), else #GP(0); nothing changes. In real-address mode a byte above FFFFH raises #GP
although R80 refuses what wraps modulo 2^16 (the model's choice, log 15); over a misaligned area the address goes first (decision
D6, log 18). The other passes: `XrstorComponentAddressFault`, `XsavesAddressFault`. -/
def Obligations.XrstorAddressFault : Prop :=
  ∀ (i : Instr) (s : State), i.saves = false → Enabled s (operandOf i) →
    let ar := areaOf s (operandOf i)
    (∀ o ∈ headerMax s.cfg, ar.at o < 2 ^ linBits s.mode) →
    (s.mode ≠ .real → ∀ o ∈ headerMax s.cfg, ar.ea.toNat + o < 2 ^ ar.asz.bits) →
    (∃ o ∈ headerMin s.cfg, byteAddressOk s ar o = false) →
    exec i s = .fault (.exception (if ar.seg = .ss ∧ s.mode ≠ .real then .ss else .gp)
      (if s.mode = .real then none else some 0) none s)

/-- R62, R63, R204, R209: pass 2 of XRSTOR, after the header. A byte of a component to be loaded that is outside its segment limit
or not canonical raises #SS(0) or #GP(0) as in pass 1; RIP, memory and XRSTOR_INFO are unchanged (R147). FFFFH in real-address mode:
log 15; that the header's #GP goes before, #PF and an illegal MXCSR after: decision D6 (log 18). -/
def Obligations.XrstorComponentAddressFault : Prop :=
  ∀ (i : Instr) (s : State), i.saves = false → Enabled s (operandOf i) →
    let ar := areaOf s (operandOf i)
    let k := xrstorMasks s ar
    Aligned64 ar → BytesUsable s ar .read (headerMax s.cfg) → StandardHeader s ar ∨ CompactedHeader s ar →
    NoWrap s ar (loadMax s.cfg s.xcr0 k) → (∃ o ∈ loadMin s.cfg s.mode k, byteAddressOk s ar o = false) →
    ∃ post, exec i s = .fault (.exception (if ar.seg = .ss ∧ s.mode ≠ .real then .ss else .gp)
        (if s.mode = .real then none else some 0) none post) ∧
      post.rip = s.rip ∧ post.mem = s.mem ∧ post.xrstorInfo = s.xrstorInfo

/-- R62, R63, R204, R209: the one pass of XSAVES. A byte it would write that is outside its segment limit or not canonical raises
#SS(0) when the operand's segment is SS (but in real-address mode), else #GP(0); no register changes (R182). FFFFH in real-address
mode: log 15; the order against the other exceptions: decision D6 (log 18). -/
def Obligations.XsavesAddressFault : Prop :=
  ∀ (i : Instr) (s : State), i.saves = true → Enabled s (operandOf i) → s.cfg.xss = true → s.cpl = 0#2 → s.vmxnr = false →
    let ar := areaOf s (operandOf i)
    NoWrap s ar (saveMax s) → (∃ o ∈ saveMin (Draws.at s.draws) s ar, byteAddressOk s ar o = false) →
    ∃ post, exec i s = .fault (.exception (if ar.seg = .ss ∧ s.mode ≠ .real then .ss else .gp)
        (if s.mode = .real then none else some 0) none post) ∧
      SameContext s post ∧ SameComponents s post ∧ post.rip = s.rip

/-- R66, R205: a misaligned area raises #GP(0) whatever the segment, when alignment checking is not enabled or the mode is
real-address mode; nothing changes, for all four forms. That memory is unchanged for XSAVES too, where R182 leaves old or new bytes, is
the model's choice of R66 (log 20); that #GP goes before #PF is decision D6 (log 18). -/
def Obligations.MisalignedAreaFaults : Prop :=
  ∀ (i : Instr) (s : State), Enabled s (operandOf i) →
    (i.saves = true → s.cfg.xss = true ∧ s.cpl = 0#2 ∧ s.vmxnr = false) →
    let ar := areaOf s (operandOf i)
    let max := if i.saves then saveMax s else headerMax s.cfg
    (∀ o ∈ max, ar.at o < 2 ^ linBits s.mode ∧ byteAddressOk s ar o = true) →
    (s.mode ≠ .real → ∀ o ∈ max, ar.ea.toNat + o < 2 ^ ar.asz.bits) →
    ar.laxa.toNat % 64 ≠ 0 → ar.ea.toNat % 64 ≠ 0 → s.acEnabled = false ∨ s.mode = .real →
    exec i s = .fault (.exception .gp (if s.mode = .real then none else some 0) none s)

/-- R67, R211: with alignment checking enabled at CPL 3 a misaligned area makes XRSTOR raise #AC(0) where AC_ON_MISALIGN says so,
#GP(0) elsewhere; left open, one of the two (decision D5, log 17). That either goes before a #PF of the header is decision D6 (R64,
R66, R212; log 18). -/
def Obligations.AlignmentCheckInPlaceOfGeneralProtection : Prop :=
  ∀ (i : Instr) (s : State), i.saves = false → Enabled s (operandOf i) →
    let ar := areaOf s (operandOf i)
    (∀ o ∈ headerMax s.cfg, ar.at o < 2 ^ linBits s.mode ∧ byteAddressOk s ar o = true) →
    (∀ o ∈ headerMax s.cfg, ar.ea.toNat + o < 2 ^ ar.asz.bits) →
    ar.laxa.toNat % 64 ≠ 0 → ar.ea.toNat % 64 ≠ 0 → s.acEnabled = true → s.mode ≠ .real →
    (∀ table, s.cfg.acOnMisalign = some table →
      exec i s = .fault (.exception (if table.getLsbD (ar.laxa.toNat % 64) then .ac else .gp) (some 0) none s)) ∧
    (s.cfg.acOnMisalign = none → ∃ x, (x = .ac ∨ x = .gp) ∧ exec i s = .fault (.exception x (some 0) none s))

/-- R66: where the effective and the linear address disagree on 64-byte alignment, the model refuses (decision D4). -/
def Obligations.AlignmentBasisRefused : Prop :=
  ∀ (i : Instr) (s : State), Enabled s (operandOf i) →
    (i.saves = true → s.cfg.xss = true ∧ s.cpl = 0#2 ∧ s.vmxnr = false) →
    let ar := areaOf s (operandOf i)
    let max := if i.saves then saveMax s else headerMax s.cfg
    (∀ o ∈ max, ar.at o < 2 ^ linBits s.mode ∧ byteAddressOk s ar o = true) →
    (s.mode ≠ .real → ∀ o ∈ max, ar.ea.toNat + o < 2 ^ ar.asz.bits) →
    ¬ (ar.laxa.toNat % 64 = 0 ↔ ar.ea.toNat % 64 = 0) →
    exec i s = .refused .alignBasis

/-- R81, R210, R219: outside real-address mode the first header byte whose translation fails makes XRSTOR raise #PF with its code
and linear address, nothing changed; in VMX non-root operation the model refuses (decision D23, log 26). That it goes before the #GP
of the header is decision D6 (R212, log 18). -/
def Obligations.XrstorHeaderPageFault : Prop :=
  ∀ (i : Instr) (s : State) (o : Nat) (code : BitVec 32), i.saves = false → Enabled s (operandOf i) →
    let ar := areaOf s (operandOf i)
    Aligned64 ar → s.mode ≠ .real →
    (∀ o' ∈ headerMax s.cfg, ar.at o' < 2 ^ linBits s.mode ∧ byteAddressOk s ar o' = true ∧ ar.ea.toNat + o' < 2 ^ ar.asz.bits) →
    o < 24 → translate s.env (ar.at (s.cfg.hdrOff + o)) .read s.cpl = some code →
    (∀ o', o' < o → translate s.env (ar.at (s.cfg.hdrOff + o')) .read s.cpl = none) →
    exec i s = if s.vmxnr then .refused .vmxTranslate
      else .fault (.exception .pf (some code) (some (BitVec.ofNat 64 (ar.at (s.cfg.hdrOff + o)))) s)

/-- R134, R143, R206: each of the six header conditions makes XRSTOR raise #GP(0) (#GP in real-address mode), whatever RFBM is, and
nothing changes. That it goes before a fault on the bytes of a component is decision D6 (R64, R212; log 18). -/
def Obligations.HeaderFaults : Prop :=
  ∀ (i : Instr) (s : State), i.saves = false →
    let ar := areaOf s (operandOf i)
    let k := xrstorMasks s ar
    Enabled s (operandOf i) → Aligned64 ar → BytesUsable s ar .read (headerMax s.cfg) →
    ((k.compmask.getLsbD 63 = false ∧
        ((∃ j, j < 64 ∧ k.rstormask.getLsbD j = true ∧ s.xcr0.getLsbD j = false) ∨
         (∃ o, 8 ≤ o ∧ o < 24 ∧ s.mem.read (ar.at (s.cfg.hdrOff + o)) ≠ 0))) ∨
     (k.compmask.getLsbD 63 = true ∧
        (s.cfg.xsavec = false ∨
         (∃ j, j < 63 ∧ k.compmask.getLsbD j = true ∧ s.xcr0.getLsbD j = false) ∨
         (∃ j, j < 64 ∧ k.rstormask.getLsbD j = true ∧ k.compmask.getLsbD j = false) ∨
         (∃ o, 16 ≤ o ∧ o < 64 ∧ s.mem.read (ar.at (s.cfg.hdrOff + o)) ≠ 0)))) →
    exec i s = .fault (.exception .gp (if s.mode = .real then none else some 0) none s)

/-- R144: on a usable area with a legal header XRSTOR and XRSTOR64 raise #GP(0) exactly when a rule loads MXCSR from memory
(standard form: SSE or AVX requested; compacted form: SSE requested and present) and the image has a reserved bit set; when
MXCSR is not loaded the image is not examined. -/
def Obligations.IllegalMxcsrFaultsExactly : Prop :=
  ∀ (i : Instr) (s : State), i.saves = false →
    let ar := areaOf s (operandOf i)
    let k := xrstorMasks s ar
    RestoreReady s (operandOf i) → StandardHeader s ar ∨ CompactedHeader s ar →
    ((∃ post, exec i s = .fault (.exception .gp (if s.mode = .real then none else some 0) none post)) ↔
      ((k.compmask.getLsbD 63 = false ∧ (k.rfbm.getLsbD 1 = true ∨ k.rfbm.getLsbD 2 = true)) ∨
        (k.compmask.getLsbD 63 = true ∧ k.rfbm.getLsbD 1 = true ∧ k.rstormask.getLsbD 1 = true)) ∧
      readMxcsr s.mem ar.laxa.toNat &&& s.cfg.mxcsrRsvd ≠ 0)

/-- R80, R81, R147: outside real-address mode and VMX non-root operation, the first byte of the components to be loaded whose
translation fails makes XRSTOR raise #PF with its code and linear address; RIP, memory and XRSTOR_INFO are unchanged. That #PF goes
before the #GP of an illegal MXCSR image is decision D6 (R130, R212 items 8 and 9; log 18). -/
def Obligations.XrstorComponentPageFault : Prop :=
  ∀ (i : Instr) (s : State), i.saves = false → Enabled s (operandOf i) → s.mode ≠ .real → s.vmxnr = false →
    let ar := areaOf s (operandOf i)
    let k := xrstorMasks s ar
    Aligned64 ar → BytesUsable s ar .read (headerMax s.cfg) → StandardHeader s ar ∨ CompactedHeader s ar →
    (∀ o ∈ loadMax s.cfg s.xcr0 k, ar.at o < 2 ^ linBits s.mode ∧ ar.ea.toNat + o < 2 ^ ar.asz.bits ∧
      byteAddressOk s ar o = true) →
    ∀ o ∈ loadMin s.cfg s.mode k, ∀ code, translate s.env (ar.at o) .read s.cpl = some code →
      (∀ o' ∈ loadMin s.cfg s.mode k, o' < o → translate s.env (ar.at o') .read s.cpl = none) →
      ∃ post, exec i s = .fault (.exception .pf (some code) (some (BitVec.ofNat 64 (ar.at o))) post) ∧
        post.rip = s.rip ∧ post.mem = s.mem ∧ post.xrstorInfo = s.xrstorInfo

/-- R81, R182: outside real-address mode, the first byte XSAVES would write whose translation (for a write) fails makes it raise
#PF with its code and linear address; no register changes. -/
def Obligations.XsavesPageFault : Prop :=
  ∀ (i : Instr) (s : State), i.saves = true → Enabled s (operandOf i) → s.cfg.xss = true → s.cpl = 0#2 → s.vmxnr = false →
    s.mode ≠ .real →
    let ar := areaOf s (operandOf i)
    let min := saveMin (Draws.at s.draws) s ar
    Aligned64 ar →
    (∀ o ∈ saveMax s, ar.at o < 2 ^ linBits s.mode ∧ ar.ea.toNat + o < 2 ^ ar.asz.bits ∧ byteAddressOk s ar o = true) →
    ∀ o ∈ min, ∀ code, translate s.env (ar.at o) .write s.cpl = some code →
      (∀ o' ∈ min, o' < o → translate s.env (ar.at o') .write s.cpl = none) →
      ∃ post, exec i s = .fault (.exception .pf (some code) (some (BitVec.ofNat 64 (ar.at o))) post) ∧
        SameContext s post ∧ SameComponents s post ∧ post.rip = s.rip

/-- R80: where every byte an instruction certainly accesses passes its checks and a byte it might access does not, the model
refuses: it claims neither the fault nor the completion (decision D8; its order against the other refusals, log 30). The pass of
XSAVES, and both passes of XRSTOR. -/
def Obligations.UncertainFootprintRefused : Prop :=
  ∀ (i : Instr) (s : State), Enabled s (operandOf i) →
    let ar := areaOf s (operandOf i)
    let k := xrstorMasks s ar
    Aligned64 ar →
    (i.saves = true → s.cfg.xss = true → s.cpl = 0#2 → s.vmxnr = false → NoWrap s ar (saveMax s) →
      (∀ o ∈ saveMin (Draws.at s.draws) s ar, ByteReachable s ar .write o) →
      (∃ o ∈ saveMax s, ¬ ByteReachable s ar .write o) → exec i s = .refused .footprint) ∧
    (i.saves = false → NoWrap s ar (headerMax s.cfg) → (∀ o ∈ headerMin s.cfg, ByteReachable s ar .read o) →
      (∃ o ∈ headerMax s.cfg, ¬ ByteReachable s ar .read o) → exec i s = .refused .footprint) ∧
    (i.saves = false → BytesUsable s ar .read (headerMax s.cfg) → StandardHeader s ar ∨ CompactedHeader s ar →
      NoWrap s ar (loadMax s.cfg s.xcr0 k) → (∀ o ∈ loadMin s.cfg s.mode k, ByteReachable s ar .read o) →
      (∃ o ∈ loadMax s.cfg s.xcr0 k, ¬ ByteReachable s ar .read o) → exec i s = .refused .footprint)

/-- R86: an XSAVES whose footprint overlaps the program text, in ordinary memory no other agent touches, is refused. -/
def Obligations.SelfModifyingSaveRefused : Prop :=
  ∀ (i : Instr) (s : State), i.saves = true → Enabled s (operandOf i) → s.cfg.xss = true → s.cpl = 0#2 → s.vmxnr = false →
    let ar := areaOf s (operandOf i)
    Aligned64 ar → BytesUsable { s with text := { start := 0, bytes := [] } } ar .write (saveMax s) →
    (∃ o ∈ saveMax s, s.text.has (ar.at o) = true) → exec i s = .refused .selfModifying

/-- R147, R213: what an exception of XRSTOR or XRSTOR64 leaves: RIP, the context, memory and XRSTOR_INFO unchanged, and so every
component that is not requested, MXCSR when the form does not write it. -/
def Obligations.XrstorFaultFrame : Prop :=
  ∀ (i : Instr) (s post : State) (x : Exc) (code : Option (BitVec 32)) (info : Option Word64), i.saves = false →
    exec i s = .fault (.exception x code info post) →
    let k := xrstorMasks s (areaOf s (operandOf i))
    SameContext s post ∧ post.rip = s.rip ∧ post.xrstorInfo = s.xrstorInfo ∧ (∀ a, post.mem.read a = s.mem.read a) ∧
    (k.rfbm.getLsbD 0 = false → post.x87 = s.x87) ∧ (k.rfbm.getLsbD 1 = false → post.xmm = s.xmm) ∧
    (k.rfbm.getLsbD 2 = false → post.ymmHi = s.ymmHi) ∧ (k.writesMxcsr = false → post.mxcsr = s.mxcsr) ∧
    ∀ j, k.rfbm.getLsbD j = false →
      post.xinuse.getLsbD j = s.xinuse.getLsbD j ∧ post.xmodified.getLsbD j = s.xmodified.getLsbD j

/-- R182, R213: what an exception of XSAVES or XSAVES64 leaves: every register unchanged, RIP included; each byte the instruction
would write holds its old value or the one it would have written (decision D7, log 20); every other byte is unchanged, legacy bytes
463:416 by decision D21 (DESIGN CHOICE, unsafe: log 23). The value for bytes 31:28 is MXCSR_MASK (PRESUMED, unsafe: log 43). -/
def Obligations.XsavesFaultFrame : Prop :=
  ∀ (i : Instr) (s post : State) (x : Exc) (code : Option (BitVec 32)) (info : Option Word64), i.saves = true → MemoryOk s →
    exec i s = .fault (.exception x code info post) →
    let ar := areaOf s (operandOf i)
    let d := Draws.at s.draws
    SameContext s post ∧ SameComponents s post ∧ post.rip = s.rip ∧
    (∀ o ∈ saveMin d s ar, post.mem.read (ar.laxa.toNat + o) = s.mem.read (ar.laxa.toNat + o) ∨
      post.mem.read (ar.laxa.toNat + o) = savedByte d i.wide s o) ∧
    ∀ a, (∀ o ∈ saveMin d s ar, a ≠ ar.laxa.toNat + o) → post.mem.read a = s.mem.read a

/-- R200, R201, R211: the exceptions and error codes of each mode: real-address mode has #UD, #NM and #GP only, without a code;
elsewhere #GP, #SS and #AC have the code 0; #UD and #NM have none; #PF alone carries an address, and a code; XSAVES never
raises #AC. -/
def Obligations.ExceptionsPerMode : Prop :=
  ∀ (i : Instr) (s post : State) (x : Exc) (code : Option (BitVec 32)) (info : Option Word64),
    exec i s = .fault (.exception x code info post) →
    (s.mode = .real → (x = .ud ∨ x = .nm ∨ x = .gp) ∧ code = none) ∧
    (x = .ud ∨ x = .nm → code = none) ∧
    (s.mode ≠ .real → x = .gp ∨ x = .ss ∨ x = .ac → code = some 0) ∧
    (x = .pf ↔ info.isSome = true) ∧ (x = .pf → code.isSome = true) ∧
    (x = .ac → i.saves = false ∧ s.cpl = 3#2)

/-! ## Invariants and whole-machine rules -/

/-- R35, R43: every step keeps the invariant: memory canonical and within 2^64, INV_XINUSE, no tracking bit above the components. -/
def Obligations.StepKeepsInvariant : Prop :=
  ∀ (s t : State), Inv s → step s = .next t → Inv t

/-- The invariant holds after reset (with the reset values of log 5, 6 and 7, the model's choices). -/
def Obligations.InvariantHoldsAtReset : Prop := Inv State.reset

/-- R147, R182: the state an exception leaves keeps the invariant too: the values drawn are subject to INV_XINUSE. -/
def Obligations.FaultKeepsInvariant : Prop :=
  ∀ (s post : State) (x : Exc) (code : Option (BitVec 32)) (info : Option Word64), Inv s →
    step s = .fault (.exception x code info post) → Inv post

/-- R149, R181, R22: no step changes a general register, a flag, a control register, XCR0, IA32_XSS, CPL, VMXNR, MODE, a segment
register, the configuration, the environment or the program text. -/
def Obligations.StepKeepsContext : Prop :=
  ∀ (s t : State), step s = .next t → SameContext s t

/-- R35, R36, R181: a completed XSAVES keeps INV_XMOD towards the state the last XRSTOR left, with XINUSE, XMODIFIED and XRSTOR_INFO
as they were. -/
def Obligations.XsavesKeepsModifiedTracking : Prop :=
  ∀ (i : Instr) (r s t : State), i.saves = true → InvXmod r s → exec i s = .next t →
    InvXmod r t ∧ t.xinuse = s.xinuse ∧ t.xmodified = s.xmodified ∧ t.xrstorInfo = s.xrstorInfo

/-- R145: a completed XRSTOR or XRSTOR64 records (CPL, VMXNR, LAXA, COMPMASK) in both forms, COMPMASK being 0 in the standard form; one
that raises an exception leaves XRSTOR_INFO as it was. -/
def Obligations.XrstorRecordsInfo : Prop :=
  ∀ (i : Instr) (s : State), i.saves = false →
    let ar := areaOf s (operandOf i)
    let comp := readXcompBv s.cfg s.mem ar.laxa.toNat
    (∀ t, exec i s = .next t → t.xrstorInfo = some ⟨s.cpl, s.vmxnr, ar.laxa, comp⟩ ∧ (comp.getLsbD 63 = false → comp = 0)) ∧
    (∀ x code info post, exec i s = .fault (.exception x code info post) → post.xrstorInfo = s.xrstorInfo)

/-- R21: a completed step advances RIP by the length of the instruction it ran, without wrapping. -/
def Obligations.StepAdvancesRip : Prop :=
  ∀ (s t : State), step s = .next t →
    ∃ (i : Instr) (bs rest : List Byte), fetchBytes s = some bs ∧ decode s.decodeCtx bs = .ok i rest ∧
      t.rip.toNat = s.rip.toNat + i.length ∧ t.rip.toNat < 2 ^ linBits s.mode

/-- R20, R149, R181: of the general registers an instruction reads only EDX, EAX and those its operand names as base and index (R109
to R112): with any other file that agrees on these, the outcome is the same. The upper halves of RDX and RAX are ignored. -/
def Obligations.OnlyNamedRegistersMatter : Prop :=
  ∀ (i : Instr) (s : State) (g : Vector Word64 16), (∀ n ∈ operandRegs (operandOf i), g.get n.toFin = s.gprs.get n.toFin) →
    (g.get 0).extractLsb' 0 32 = (s.gprs.get 0).extractLsb' 0 32 → (g.get 2).extractLsb' 0 32 = (s.gprs.get 2).extractLsb' 0 32 →
    exec i (withGprs g s) = outcomeWithGprs g (exec i s)

/-- R60, R61: how LAXA follows from the segment and the effective address of the operand: the base is 16 times the selector in
real-address and virtual-8086 mode, that of the segment register in protected and compatibility mode; in 64-bit mode only FS and GS
have one (GK18, log 12). -/
def Obligations.LinearAddressByMode : Prop :=
  (∀ (s : State) (i : Instr), let ar := areaOf s (operandOf i); ar.laxa = linear s ar.seg ar.ea) ∧
  ∀ (s : State) (n : SegName) (ea : Word64),
    (s.mode = .real ∨ s.mode = .v8086 →
      (linear s n ea).toNat = (16 * (s.segs.get n).selector.toNat + ea.toNat) % 2 ^ 32) ∧
    (s.mode = .prot ∨ s.mode = .compat → (linear s n ea).toNat = ((s.segs.get n).base.toNat + ea.toNat) % 2 ^ 32) ∧
    (s.mode = .long64 → n = .fs ∨ n = .gs → (linear s n ea).toNat = ((s.segs.get n).base.toNat + ea.toNat) % 2 ^ 64) ∧
    (s.mode = .long64 → n ≠ .fs → n ≠ .gs → linear s n ea = ea)

/-- R61, R107, R109 to R112, R114: `asz` by mode, CS.D and 67H, and the effective address of every addressing form, the sum of its
base, scaled index and displacement modulo 2^asz (so below it). Register numbers take their bit 3 from REX.B and REX.X; index number
4 is none; RIP_next is the address after the instruction. The spec gives the addressing from general knowledge (GK25; log 46). -/
def Obligations.EffectiveAddressWithinSize : Prop :=
  ∀ (s : State) (i : Instr),
    let ar := areaOf s (operandOf i)
    let size : Int := 2 ^ ar.asz.bits
    let ea : Int := ar.ea.toNat
    let reg := fun n : Fin 16 => ((s.gprs.get n).toNat : Int)
    let index := fun (n : Fin 16) (scale : BitVec 2) => if n = 4 then 0 else reg n * 2 ^ scale.toNat
    let b := 8 * (rexBits i.rex?).b.toNat
    let x := 8 * (rexBits i.rex?).x.toNat
    (s.mode = .long64 → ar.asz = if Pfx.addrSize ∈ i.pfxs then .a32 else .a64) ∧
    (s.mode = .prot ∨ s.mode = .compat →
      ar.asz = if s.csD = true then (if Pfx.addrSize ∈ i.pfxs then .a16 else .a32)
        else (if Pfx.addrSize ∈ i.pfxs then .a32 else .a16)) ∧
    (s.mode = .real ∨ s.mode = .v8086 → ar.asz = if Pfx.addrSize ∈ i.pfxs then .a32 else .a16) ∧
    ea < size ∧
    (∀ rm d (n : Fin 16), i.mem = .base rm d → n.val = b + rm.toNat → ea = (reg n + d.signed) % size) ∧
    (∀ v, i.mem = .dispRip v →
      ea = (if s.mode = .long64 then (s.rip.toNat + i.length + v.toInt) % size else v.toInt % size)) ∧
    (∀ scale idx base d (n m : Fin 16), i.mem = .sib scale idx base d → n.val = b + base.toNat → m.val = x + idx.toNat →
      ea = (reg n + index m scale + d.signed) % size) ∧
    (∀ scale idx v (m : Fin 16), i.mem = .sibNoBase scale idx v → m.val = x + idx.toNat →
      ea = (index m scale + v.toInt) % size) ∧
    (∀ v, i.mem = .abs16 v → ea = v.toNat) ∧
    (∀ rm d, i.mem = .base16 rm d →
      (rm = 0 → ea = (reg 3 + reg 6 + d.signed) % size) ∧ (rm = 1 → ea = (reg 3 + reg 7 + d.signed) % size) ∧
      (rm = 2 → ea = (reg 5 + reg 6 + d.signed) % size) ∧ (rm = 3 → ea = (reg 5 + reg 7 + d.signed) % size) ∧
      (rm = 4 → ea = (reg 6 + d.signed) % size) ∧ (rm = 5 → ea = (reg 7 + d.signed) % size) ∧
      (rm = 6 → ea = (reg 5 + d.signed) % size) ∧ (rm = 7 → ea = (reg 3 + d.signed) % size))

/-- R105, R113: the segment of a well-formed instruction's operand. The last override that has effect in the mode is it (that one
without effect does not displace an earlier one is log 36); without one it is SS where the base register is number 4 or 5, (E/R)SP
or (E/R)BP, in a 16-bit form where BP is a base, and DS otherwise (GK25; log 46). -/
def Obligations.OperandSegmentByForm : Prop :=
  ∀ (s : State) (i : Instr), WellFormed s.decodeCtx i = true →
    let seg := (areaOf s (operandOf i)).seg
    let b := 8 * (rexBits i.rex?).b.toNat
    (∀ pre n post, i.pfxs = pre ++ Pfx.seg n :: post → OverrideCounts s.mode n →
      (∀ m, Pfx.seg m ∈ post → ¬ OverrideCounts s.mode m) → seg = n) ∧
    ((∀ m, Pfx.seg m ∈ i.pfxs → ¬ OverrideCounts s.mode m) →
      (∀ rm d, i.mem = .base rm d → seg = if b + rm.toNat = 4 ∨ b + rm.toNat = 5 then .ss else .ds) ∧
      (∀ scale idx base d, i.mem = .sib scale idx base d →
        seg = if b + base.toNat = 4 ∨ b + base.toNat = 5 then .ss else .ds) ∧
      (∀ rm d, i.mem = .base16 rm d → seg = if rm = 2 ∨ rm = 3 ∨ rm = 6 then .ss else .ds) ∧
      (∀ v, i.mem = .dispRip v → seg = .ds) ∧ (∀ v, i.mem = .abs16 v → seg = .ds) ∧
      ∀ scale idx v, i.mem = .sibNoBase scale idx v → seg = .ds)

/-- The values after reset that R44 gives from general knowledge (GK17; log 5). -/
def Obligations.ResetValues : Prop :=
  State.reset.ts = false ∧ State.reset.osxsave = false ∧ State.reset.xcr0 = 1 ∧ State.reset.xss = 0 ∧
  State.reset.mxcsr = 0x1F80 ∧ State.reset.mode = .real ∧ State.reset.cpl = 0#2 ∧ State.reset.vmxnr = false ∧
  State.reset.fetchAddress = 0xFFFFFFF0

/-- R174, R178, R135 to R142, R73: an XSAVES that may not apply the modified optimization, then an XRSTOR of the same width and mask
from the same area, gives back SSE and AVX state, and x87 state up to what the form's pointer layout holds (decision D19, log 22). -/
def Obligations.SaveThenRestoreReturnsState : Prop :=
  ∀ (i j : Instr) (s t u : State), i.saves = true → j.saves = false → i.wide = j.wide → Inv s →
    exec i s = .next t → exec j t = .next u →
    (areaOf t (operandOf j)).laxa = (areaOf s (operandOf i)).laxa → modOpt s (areaOf s (operandOf i)) = false →
    u.xmm = s.xmm ∧ u.mxcsr = s.mxcsr ∧ u.ymmHi = s.ymmHi ∧
    u.x87.fcw = s.x87.fcw ∧ u.x87.fsw = s.x87.fsw ∧ u.x87.ftw = s.x87.ftw ∧ u.x87.fop = s.x87.fop ∧ u.x87.st = s.x87.st ∧
    (i.wide = true → u.x87.fip = s.x87.fip ∧ u.x87.fdp = s.x87.fdp) ∧
    (i.wide = false → u.x87.fcs = s.x87.fcs ∧ u.x87.fds = s.x87.fds ∧
      u.x87.fip.toNat % 2 ^ 32 = s.x87.fip.toNat % 2 ^ 32 ∧ u.x87.fdp.toNat % 2 ^ 32 = s.x87.fdp.toNat % 2 ^ 32)

/-- R246, R176, R36: an XRSTOR, then an XSAVES of the same width to the same area with nothing else between, leaves in memory the
image of every component the XRSTOR loaded, whether the XSAVES stores it or skips it. -/
def Obligations.RestoreThenSaveKeepsImage : Prop :=
  ∀ (i j : Instr) (s t u : State), i.saves = false → j.saves = true → i.wide = j.wide → MemoryOk s →
    exec i s = .next t → exec j t = .next u →
    (areaOf t (operandOf j)).laxa = (areaOf s (operandOf i)).laxa →
    (xrstorMasks s (areaOf s (operandOf i))).form = .compacted →
    let k := xrstorMasks s (areaOf s (operandOf i))
    let la := (areaOf s (operandOf i)).laxa.toNat
    (k.loads 0 = true → ∀ d, loadX87 d i.wide u.mem la = loadX87 d i.wide s.mem la) ∧
    (k.loads 1 = true → readMxcsr u.mem la = readMxcsr s.mem la ∧
      ∀ o ∈ xmmBytes s.mode, u.mem.read (la + o) = s.mem.read (la + o)) ∧
    (k.loads 2 = true → ∀ o ∈ avxBytes s.mode s.cfg.extOff, u.mem.read (la + o) = s.mem.read (la + o))
end

