-- ==== Sys2Proof/Laws/Bits.lean ====
section
/-! SUPPORT. Laws/Bits.lean: the bitmaps of the tracking state and of the header, bit by bit, and the layout of a valid
configuration. -/

namespace Sys2Proof.Machine

open Sys2Proof

/-- One bit of a bitmap is set, the others stay. -/
theorem getLsbD_setBit {v : Word64} {i j : Nat} {b : Bool} (hi : i < 64) :
    (setBit v i b).getLsbD j = if j = i then b else v.getLsbD j := by
  have key : (1#64 <<< i).getLsbD j = decide (j = i) := by
    simp only [BitVec.getLsbD_shiftLeft, BitVec.getLsbD_one]
    by_cases h : j = i
    · subst h; simp [hi]
    · have : ¬ (¬ j < i ∧ j - i = 0) := by omega
      simp only [h, decide_false]
      by_cases h1 : j < i
      · simp [h1]
      · have : j - i ≠ 0 := by omega
        simp [this]
  unfold setBit
  split <;> rename_i hb
  · rw [BitVec.getLsbD_or, key]
    by_cases h : j = i <;> simp [h, hb]
  · simp only [BitVec.getLsbD_and, BitVec.getLsbD_not, key]
    by_cases h : j = i
    · simp [h, hb]
    · by_cases h2 : j < 64
      · simp [h, h2]
      · simp [h, h2, BitVec.getLsbD_of_ge v j (by omega)]

/-- The bits of a tracking bitmap after the three components are set. -/
theorem getLsbD_setComponents {v : Word64} {f : Nat → Bool} {j : Nat} :
    (setComponents [0, 1, 2] v f).getLsbD j = if j < 3 then f j else v.getLsbD j := by
  simp only [setComponents, List.foldl_cons, List.foldl_nil]
  rw [getLsbD_setBit (by omega), getLsbD_setBit (by omega), getLsbD_setBit (by omega)]
  by_cases h2 : j = 2
  · simp [h2]
  · by_cases h1 : j = 1
    · simp [h1]
    · by_cases h0 : j = 0
      · simp [h0]
      · have : ¬ j < 3 := by omega
        simp [h0, h1, h2, this]

/-- A word has no bit above the three components. -/
theorem shiftRight_three_eq_zero {v : Word64} : v >>> 3 = 0 ↔ ∀ j, 3 ≤ j → v.getLsbD j = false := by
  constructor
  · intro h j hj
    have := congrArg (fun x : Word64 => x.getLsbD (j - 3)) h
    simpa [BitVec.getLsbD_ushiftRight, show 3 + (j - 3) = j by omega] using this
  · intro h
    apply BitVec.eq_of_getLsbD_eq
    intro j _
    simp [BitVec.getLsbD_ushiftRight, h (3 + j) (by omega)]

/-! ### A valid configuration -/

/-- What a valid configuration says, with its one extended component named. -/
theorem Cfg.valid_data {cfg : Cfg} (h : Cfg.valid cfg = true) :
    cfg.mxcsrMask = ~~~cfg.mxcsrRsvd ∧ cfg.components = [0, 1, 2] ∧ 512 ≤ cfg.hdrOff ∧ cfg.hdrOff + 64 ≤ cfg.extOff ∧
      ∃ off size al, cfg.ext = [⟨2, off, size, al⟩] ∧ cfg.hdrOff + 64 ≤ off ∧ 256 ≤ size := by
  simp only [Cfg.valid, Bool.and_eq_true, decide_eq_true_eq] at h
  obtain ⟨⟨⟨⟨⟨⟨⟨h1, h2⟩, h3⟩, h4⟩, h5⟩, h6⟩, _⟩, _⟩ := h
  refine ⟨h1, h2, h4, h5, ?_⟩
  match hx : cfg.ext, h3 with
  | [], h3 => simp at h3
  | c :: c' :: cs, h3 => simp at h3
  | [c], h3 =>
    rw [hx] at h6
    simp only [List.all_cons, List.all_nil, Bool.and_true, Bool.and_eq_true, decide_eq_true_eq] at h6
    have : c.id = 2 := by simpa using h3
    exact ⟨c.stdOff, c.size, c.align64, by rw [← this], h6.1, h6.2⟩

theorem Cfg.valid_components {cfg : Cfg} (h : Cfg.valid cfg = true) : cfg.components = [0, 1, 2] :=
  (Cfg.valid_data h).2.1

/-- In the compacted format AVX state lies at `EXT_OFF` (20_memory.md R79). -/
theorem avxBaseCmp_eq {cfg : Cfg} (h : Cfg.valid cfg = true) (x : Word64) : avxBaseCmp cfg x = cfg.extOff := by
  obtain ⟨_, _, _, _, off, size, al, hx, _, _⟩ := Cfg.valid_data h
  simp only [avxBaseCmp, compactedOffset, hx, packFrom]
  split <;> simp

/-- The size of the AVX image leaves room for sixteen registers (20_memory.md R77). -/
theorem le_compSize {cfg : Cfg} (h : Cfg.valid cfg = true) : 256 ≤ compSize cfg 2 := by
  obtain ⟨_, _, _, _, off, size, al, hx, _, hs⟩ := Cfg.valid_data h
  simpa [compSize, extComp?, hx] using hs

/-- The standard-format offset of AVX state lies behind the header (20_memory.md R78). -/
theorem le_avxBaseStd {cfg : Cfg} (h : Cfg.valid cfg = true) : cfg.hdrOff + 64 ≤ avxBaseStd cfg := by
  obtain ⟨_, _, _, _, off, size, al, hx, hs, _⟩ := Cfg.valid_data h
  simpa [avxBaseStd, stdOffset, extComp?, hx] using hs

theorem nVec_le (m : Mode) : 16 * nVec m ≤ 256 := by unfold nVec; split <;> omega

/-! ### Scope -/

/-- In scope, XCR0 has no bit above 2 and IA32_XSS is 0. -/
theorem inScope_data {s : State} (h : s.inScope = true) : (∀ j, 3 ≤ j → s.xcr0.getLsbD j = false) ∧ s.xss = 0 := by
  simp only [State.inScope, Bool.and_eq_true, decide_eq_true_eq] at h
  exact ⟨shiftRight_three_eq_zero.1 h.1, h.2⟩

/-- In scope, XSAVES' requested-feature bitmap is XRSTOR's (41_xsaves.md R172). -/
theorem saveRfbm_eq {s : State} (h : s.inScope = true) : saveRfbm s = s.xcr0 &&& s.instrMask := by
  simp [saveRfbm, (inScope_data h).2]

/-! ### The header XSAVES writes -/

theorem getLsbD_xstateBv {s : State} {j : Nat} : (xstateBv s).getLsbD j = (decide (j < 3) && need s j) := by
  by_cases h0 : j = 0
  · subst h0; unfold xstateBv; cases need s 0 <;> cases need s 1 <;> cases need s 2 <;> rfl
  · by_cases h1 : j = 1
    · subst h1; unfold xstateBv; cases need s 0 <;> cases need s 1 <;> cases need s 2 <;> rfl
    · by_cases h2 : j = 2
      · subst h2; unfold xstateBv; cases need s 0 <;> cases need s 1 <;> cases need s 2 <;> rfl
      · have h3 : ¬ j < 3 := by omega
        have hz : (xstateBv s) >>> 3 = 0 := by
          unfold xstateBv; cases need s 0 <;> cases need s 1 <;> cases need s 2 <;> rfl
        simp [h3, shiftRight_three_eq_zero.1 hz j (by omega)]

theorem getLsbD_saveCompmask {s : State} {j : Nat} (hj : j < 63) :
    (saveCompmask s).getLsbD j = (saveRfbm s).getLsbD j := by
  have : (0x8000000000000000#64).getLsbD j = false := by
    rw [show (0x8000000000000000#64) = 1#64 <<< 63 from rfl, BitVec.getLsbD_shiftLeft]
    simp [hj]
  simp [saveCompmask, this]

theorem getLsbD_saveCompmask_63 {s : State} : (saveCompmask s).getLsbD 63 = true := by
  simp [saveCompmask]

end Sys2Proof.Machine
end

