-- ==== Sys2Proof/Laws/Encode.lean ====
section
/-! SUPPORT. Laws/Encode.lean: the decoder's parts on the encoder's bytes, and back (30_encoding.md R100 to R117), for the round
trips. -/

namespace Sys2Proof


/-- disp16 is read back from its bytes (R114). -/
theorem take16_bytesOf_append (v : BitVec 16) (r : List Byte) : take16 (bytesOf v 2 ++ r) = some (v, r) := by
  simp only [bytesOf, List.cons_append, List.nil_append, take16, Option.some.injEq, Prod.mk.injEq, and_true]
  apply BitVec.eq_of_getLsbD_eq
  intro i hi
  simp only [BitVec.getLsbD_append, BitVec.getLsbD_extractLsb', BitVec.getLsbD_ushiftRight]
  interval_cases i <;> simp

/-- disp32 is read back from its bytes (R114). -/
theorem take32_bytesOf_append (v : BitVec 32) (r : List Byte) : take32 (bytesOf v 4 ++ r) = some (v, r) := by
  simp only [bytesOf, List.cons_append, List.nil_append, take32, Option.some.injEq, Prod.mk.injEq, and_true]
  apply BitVec.eq_of_getLsbD_eq
  intro i hi
  simp only [BitVec.getLsbD_append, BitVec.getLsbD_extractLsb', BitVec.getLsbD_ushiftRight]
  interval_cases i <;> simp

/-- The bytes read as a disp16 are its bytes. -/
theorem eq_of_take16 (bs : List Byte) (v : BitVec 16) (r : List Byte) (h : take16 bs = some (v, r)) : bs = bytesOf v 2 ++ r := by
  match bs, h with
  | b0 :: b1 :: bs, h =>
    simp only [take16, Option.some.injEq, Prod.mk.injEq] at h
    obtain ⟨rfl, rfl⟩ := h
    simp only [bytesOf, List.cons_append, List.nil_append, List.cons.injEq, and_true]
    refine ⟨?_, ?_⟩ <;> apply BitVec.eq_of_getLsbD_eq <;> intro i hi <;>
    simp only [BitVec.getLsbD_append, BitVec.getLsbD_extractLsb', BitVec.getLsbD_ushiftRight] <;>
    interval_cases i <;> simp

/-- The bytes read as a disp32 are its bytes. -/
theorem eq_of_take32 (bs : List Byte) (v : BitVec 32) (r : List Byte) (h : take32 bs = some (v, r)) : bs = bytesOf v 4 ++ r := by
  match bs, h with
  | b0 :: b1 :: b2 :: b3 :: bs, h =>
    simp only [take32, Option.some.injEq, Prod.mk.injEq] at h
    obtain ⟨rfl, rfl⟩ := h
    simp only [bytesOf, List.cons_append, List.nil_append, List.cons.injEq, and_true]
    refine ⟨?_, ?_, ?_, ?_⟩ <;> apply BitVec.eq_of_getLsbD_eq <;> intro i hi <;>
    simp only [BitVec.getLsbD_append, BitVec.getLsbD_extractLsb', BitVec.getLsbD_ushiftRight] <;>
    interval_cases i <;> simp

/-- The high two bits of a byte put together from mod, reg and rm (or scale, index and base). -/
theorem extract_mod (a : BitVec 2) (b c : BitVec 3) : (a ++ b ++ c : BitVec 8).extractLsb' 6 2 = a := by
  revert a b c; decide

/-- The low three bits of such a byte. -/
theorem extract_rm (a : BitVec 2) (b c : BitVec 3) : (a ++ b ++ c : BitVec 8).extractLsb' 0 3 = c := by
  revert a b c; decide

/-- Bits 5:3 of such a byte. -/
theorem extract_reg (a : BitVec 2) (b c : BitVec 3) : (a ++ b ++ c : BitVec 8).extractLsb' 3 3 = b := by
  revert a b c; decide

/-- A byte is its three fields put together. -/
theorem append_fields (m : BitVec 8) : m.extractLsb' 6 2 ++ m.extractLsb' 3 3 ++ m.extractLsb' 0 3 = m := by
  revert m; decide

/-- `0F AE /5` matches the XRSTOR row of R115, whatever mod and rm are. -/
theorem matchOpcode_restore (a : BitVec 2) (c : BitVec 3) :
    matchOpcode (opcodeNumber 0x0F 0xAE (a ++ 5#3 ++ c)) = some false := by
  revert a c; decide

/-- `0F C7 /5` matches the XSAVES row of R115. -/
theorem matchOpcode_save (a : BitVec 2) (c : BitVec 3) :
    matchOpcode (opcodeNumber 0x0F 0xC7 (a ++ 5#3 ++ c)) = some true := by
  revert a c; decide

/-- The bytes that match a row of R115 are that row's opcode bytes, with reg = 5. -/
theorem matchOpcode_eq_some {sv : Bool} (o1 o2 m : BitVec 8) (h : matchOpcode (opcodeNumber o1 o2 m) = some sv) :
    o1 = 0x0F#8 ∧ o2 = (if sv then 0xC7#8 else 0xAE#8) ∧ m.extractLsb' 3 3 = 5#3 := by
  have key : ∀ c : BitVec 24, opcodeNumber o1 o2 m &&& 0xFFFF38#24 = c →
      c.extractLsb' 16 8 = o1 ∧ c.extractLsb' 8 8 = o2 ∧ c.extractLsb' 3 3 = m.extractLsb' 3 3 := by
    intro c hc
    subst hc
    refine ⟨?_, ?_, ?_⟩ <;> apply BitVec.eq_of_getLsbD_eq <;> intro i hi <;>
    simp only [opcodeNumber, BitVec.getLsbD_append, BitVec.getLsbD_extractLsb', BitVec.getLsbD_and] <;>
    interval_cases i <;> simp
  unfold matchOpcode at h
  split at h
  · rename_i hc
    have := key _ hc
    simp at h; subst h
    simpa [eq_comm] using this
  · split at h
    · rename_i hc
      have := key _ hc
      simp at h; subst h
      simpa [eq_comm] using this
    · simp at h

/-- A legacy byte is read back (R105, R106). -/
theorem decodePfx_encodePfx (p : Pfx) : decodePfx (encodePfx p) = some p := by
  cases p with
  | seg s => cases s <;> rfl
  | _ => rfl

/-- A byte read as a legacy byte is its encoding. -/
theorem encodePfx_decodePfx (b : Byte) (p : Pfx) (h : decodePfx b = some p) : encodePfx p = b := by
  unfold decodePfx at h
  repeat' split at h
  all_goals first | (simp at h; done) | skip
  all_goals (simp only [Option.some.injEq] at h; subst h; subst_vars; rfl)

/-- The legacy bytes at the front are read back, up to a byte that is none. -/
theorem takePfxs_append (ps : List Pfx) (bs : List Byte) (h : ∀ b ∈ bs.head?, decodePfx b = none) :
    takePfxs (ps.map encodePfx ++ bs) = (ps, bs) := by
  induction ps with
  | nil =>
    cases bs with
    | nil => rfl
    | cons b bs => simp [takePfxs, h b (by simp)]
  | cons p ps ih => simp [takePfxs, decodePfx_encodePfx, ih]

/-- Reading the legacy bytes drops nothing. -/
theorem takePfxs_eq (bs : List Byte) : bs = (takePfxs bs).1.map encodePfx ++ (takePfxs bs).2 := by
  induction bs with
  | nil => rfl
  | cons b bs ih =>
    unfold takePfxs
    split
    · simp
    · rename_i p hp
      simp only [List.map_cons, List.cons_append, encodePfx_decodePfx b p hp, List.cons.injEq, true_and]
      exact ih

/-- A displacement is read back from its bytes, where a full one is. -/
theorem takeDisp_encodeDisp {w : Nat} {full : List Byte → Option (BitVec w × List Byte)}
    (hfull : ∀ v r, full (bytesOf v (w / 8) ++ r) = some (v, r)) (d : Disp w) (r : List Byte) :
    takeDisp full d.mod (encodeDisp d ++ r) = some (d, r) := by
  cases d with
  | none => rfl
  | d8 v => rfl
  | full v => simp [takeDisp, Disp.mod, encodeDisp, hfull]

/-- The mod field that is none of 0, 1 and 3. -/
theorem eq_two_of_ne : ∀ m : BitVec 2, m ≠ 3#2 → m ≠ 0#2 → m ≠ 1#2 → 2 = m := by decide

/-- What follows a ModRM byte with rm = 4 at address size 32 or 64 (R110). -/
theorem takeMem_sib {asz : AddrSize} (h : asz ≠ .a16) (mod : BitVec 2) (b : Byte) (bs : List Byte) :
    takeMem asz mod 4#3 (b :: bs) =
      if mod = 0#2 ∧ b.extractLsb' 0 3 = 5#3 then
        (take32 bs).map fun (v, r) => (.sibNoBase (b.extractLsb' 6 2) (b.extractLsb' 3 3) v, r)
      else
        (takeDisp take32 mod bs).map fun (d, r) =>
          (.sib (b.extractLsb' 6 2) (b.extractLsb' 3 3) (b.extractLsb' 0 3) d, r) := by
  cases asz <;> first | (exact absurd rfl h) | rfl

/-- The bytes read as a displacement are the displacement's. -/
theorem takeDisp_eq_some {w : Nat} {full : List Byte → Option (BitVec w × List Byte)}
    (hfull : ∀ bs v r, full bs = some (v, r) → bs = bytesOf v (w / 8) ++ r) {mod : BitVec 2} {bs : List Byte} {d : Disp w}
    {r : List Byte} (hm : mod ≠ 3#2) (h : takeDisp full mod bs = some (d, r)) : bs = encodeDisp d ++ r ∧ d.mod = mod := by
  unfold takeDisp at h
  split at h
  · rename_i h0
    simp only [Option.some.injEq, Prod.mk.injEq] at h
    obtain ⟨rfl, rfl⟩ := h
    exact ⟨rfl, h0.symm⟩
  · split at h
    · rename_i h1
      obtain ⟨⟨v, r'⟩, hv, he⟩ := Option.map_eq_some_iff.1 h
      simp only [Prod.mk.injEq] at he
      obtain ⟨rfl, rfl⟩ := he
      match bs, hv with
      | b :: bs, hv =>
        simp only [take8, Option.some.injEq, Prod.mk.injEq] at hv
        obtain ⟨rfl, rfl⟩ := hv
        exact ⟨rfl, h1.symm⟩
    · rename_i h0 h1
      obtain ⟨⟨v, r'⟩, hv, he⟩ := Option.map_eq_some_iff.1 h
      simp only [Prod.mk.injEq] at he
      obtain ⟨rfl, rfl⟩ := he
      exact ⟨hfull _ _ _ hv, eq_two_of_ne mod hm h0 h1⟩

/-- The mod field of a memory operand. -/
def MemOp.mod : MemOp → BitVec 2
  | .base16 _ d => d.mod
  | .abs16 _ => 0
  | .base _ d => d.mod
  | .dispRip _ => 0
  | .sib _ _ _ d => d.mod
  | .sibNoBase _ _ _ => 0

/-- The rm field of a memory operand. -/
def MemOp.rm : MemOp → BitVec 3
  | .base16 rm _ => rm
  | .abs16 _ => 6
  | .base rm _ => rm
  | .dispRip _ => 5
  | .sib _ _ _ _ => 4
  | .sibNoBase _ _ _ => 4

/-- What follows the ModRM byte of a memory operand. -/
def MemOp.tail : MemOp → List Byte
  | .base16 _ d => encodeDisp d
  | .abs16 v => bytesOf v 2
  | .base _ d => encodeDisp d
  | .dispRip v => bytesOf v 4
  | .sib sc ix b d => (sc ++ ix ++ b) :: encodeDisp d
  | .sibNoBase sc ix v => (sc ++ ix ++ 5#3) :: bytesOf v 4

/-- The bytes of a memory operand, in parts (R108). -/
theorem encodeMem_eq (m : MemOp) : encodeMem m = (MemOp.mod m ++ 5#3 ++ MemOp.rm m) :: MemOp.tail m := by cases m <;> rfl

/-- No displacement has mod = 3. -/
theorem Disp.mod_ne {w} (d : Disp w) : d.mod ≠ 3#2 := by cases d <;> simp [Disp.mod]

/-- No memory operand has mod = 3 (R116 (c)). -/
theorem MemOp.mod_ne (m : MemOp) : MemOp.mod m ≠ 3#2 := by
  cases m <;> first | exact Disp.mod_ne _ | (simp [MemOp.mod])

/-- mod = 0 is the absence of a displacement. -/
theorem Disp.mod_zero {w} (d : Disp w) : d.mod = 0#2 ↔ d.present = false := by cases d <;> simp [Disp.mod, Disp.present]

/-- A memory operand of the right size is read back from what follows its ModRM byte (R109 to R112). -/
theorem takeMem_encode (asz : AddrSize) (m : MemOp) (r : List Byte) (hf : m.formOk = true)
    (hs : (m.is16 == (asz == .a16)) = true) :
    takeMem asz (MemOp.mod m) (MemOp.rm m) (MemOp.tail m ++ r) = some (m, r) := by
  have ha : asz = .a16 ↔ m.is16 = true := by
    cases asz <;> cases h : m.is16 <;> simp_all
  cases m with
  | base16 rm d =>
    rw [ha.2 rfl]
    simp only [MemOp.formOk, Bool.or_eq_true, bne_iff_ne] at hf
    have : ¬ (d.mod = 0#2 ∧ rm = 6#3) := by
      rintro ⟨h1, h2⟩
      rw [Disp.mod_zero] at h1
      simp_all
    simp [takeMem, MemOp.mod, MemOp.rm, MemOp.tail, this, takeDisp_encodeDisp take16_bytesOf_append]
  | abs16 v => rw [ha.2 rfl]; simp [takeMem, MemOp.mod, MemOp.rm, MemOp.tail, take16_bytesOf_append]
  | base rm d =>
    have hn : asz ≠ .a16 := fun h => by simpa [MemOp.is16] using ha.1 h
    simp only [MemOp.formOk, Bool.and_eq_true, Bool.or_eq_true, bne_iff_ne] at hf
    have : ¬ (d.mod = 0#2 ∧ rm = 5#3) := by
      rintro ⟨h1, h2⟩
      rw [Disp.mod_zero] at h1
      simp_all
    cases asz <;> simp_all [takeMem, MemOp.mod, MemOp.rm, MemOp.tail, takeDisp_encodeDisp take32_bytesOf_append]
  | dispRip v =>
    have hn : asz ≠ .a16 := fun h => by simpa [MemOp.is16] using ha.1 h
    cases asz <;> simp_all [takeMem, MemOp.mod, MemOp.rm, MemOp.tail, take32_bytesOf_append]
  | sib sc ix b d =>
    have hn : asz ≠ .a16 := fun h => by simpa [MemOp.is16] using ha.1 h
    simp only [MemOp.formOk, Bool.or_eq_true, bne_iff_ne] at hf
    have : ¬ (d.mod = 0#2 ∧ b = 5#3) := by
      rintro ⟨h1, h2⟩
      rw [Disp.mod_zero] at h1
      simp_all
    have this' : ¬ (d.mod = 0#2 ∧ (sc ++ ix ++ b).extractLsb' 0 3 = 5#3) := by rw [extract_rm]; exact this
    have e1 := extract_mod sc ix b
    have e2 := extract_reg sc ix b
    have e3 := extract_rm sc ix b
    show takeMem asz d.mod 4#3 ((sc ++ ix ++ b) :: (encodeDisp d ++ r)) = _
    rw [takeMem_sib hn, if_neg this', takeDisp_encodeDisp take32_bytesOf_append, e1, e2, e3]; rfl
  | sibNoBase sc ix v =>
    have hn : asz ≠ .a16 := fun h => by simpa [MemOp.is16] using ha.1 h
    have e1 := extract_mod sc ix 5#3
    have e2 := extract_reg sc ix 5#3
    have e3 := extract_rm sc ix 5#3
    show takeMem asz 0#2 4#3 ((sc ++ ix ++ 5#3) :: (bytesOf v 4 ++ r)) = _
    rw [takeMem_sib hn, if_pos ⟨rfl, e3⟩, take32_bytesOf_append, e1, e2]; rfl

/-- The memory operand read after a ModRM byte is one of this size that those bytes encode. -/
theorem takeMem_eq_some (asz : AddrSize) (mod : BitVec 2) (rm : BitVec 3) (bs : List Byte) (m : MemOp) (r : List Byte)
    (hm : mod ≠ 3#2) (h : takeMem asz mod rm bs = some (m, r)) :
    bs = MemOp.tail m ++ r ∧ MemOp.mod m = mod ∧ MemOp.rm m = rm ∧ m.formOk = true ∧
      (m.is16 == (asz == .a16)) = true := by
  have wide : ∀ a, a ≠ AddrSize.a16 → takeMem a mod rm bs = takeMem .a32 mod rm bs := by
    intro a ha
    cases a <;> simp_all [takeMem]
  by_cases ha : asz = .a16
  · subst ha
    simp only [takeMem] at h
    split at h
    · rename_i hc
      obtain ⟨⟨v, r'⟩, hv, he⟩ := Option.map_eq_some_iff.1 h
      simp at he; obtain ⟨rfl, rfl⟩ := he
      refine ⟨eq_of_take16 _ _ _ hv, hc.1.symm, hc.2.symm, rfl, rfl⟩
    · rename_i hc
      obtain ⟨⟨v, r'⟩, hv, he⟩ := Option.map_eq_some_iff.1 h
      simp at he; obtain ⟨rfl, rfl⟩ := he
      obtain ⟨e1, e2⟩ := takeDisp_eq_some eq_of_take16 hm hv
      refine ⟨e1, e2, rfl, ?_, rfl⟩
      simp only [MemOp.formOk, Bool.or_eq_true, bne_iff_ne]
      by_cases h6 : rm = 6#3
      · right
        by_contra hp
        exact hc ⟨by rw [← e2, Disp.mod_zero]; simpa using hp, h6⟩
      · exact .inl h6
  · rw [wide asz ha] at h
    simp only [takeMem] at h
    have h16 : (asz == AddrSize.a16) = false := by simpa using ha
    split at h
    · rename_i h4
      match bs, h with
      | s :: bs, h =>
        simp only at h
        split at h
        · rename_i hc
          obtain ⟨⟨v, r'⟩, hv, he⟩ := Option.map_eq_some_iff.1 h
          simp at he; obtain ⟨rfl, rfl⟩ := he
          refine ⟨?_, hc.1.symm, h4.symm, rfl, by simp [MemOp.is16, h16]⟩
          have hq := append_fields s
          rw [hc.2] at hq
          simp only [MemOp.tail, List.cons_append, hq]
          rw [eq_of_take32 _ _ _ hv]
        · rename_i hc
          obtain ⟨⟨v, r'⟩, hv, he⟩ := Option.map_eq_some_iff.1 h
          simp at he; obtain ⟨rfl, rfl⟩ := he
          obtain ⟨e1, e2⟩ := takeDisp_eq_some eq_of_take32 hm hv
          refine ⟨?_, e2, h4.symm, ?_, by simp [MemOp.is16, h16]⟩
          · simp only [MemOp.tail, List.cons_append, append_fields s]
            rw [← e1]
          · simp only [MemOp.formOk, Bool.or_eq_true, bne_iff_ne]
            by_cases h6 : s.extractLsb' 0 3 = 5#3
            · right
              by_contra hp
              exact hc ⟨by rw [← e2, Disp.mod_zero]; simpa using hp, h6⟩
            · exact .inl h6
    · rename_i h4
      split at h
      · rename_i hc
        obtain ⟨⟨v, r'⟩, hv, he⟩ := Option.map_eq_some_iff.1 h
        simp at he; obtain ⟨rfl, rfl⟩ := he
        exact ⟨eq_of_take32 _ _ _ hv, hc.1.symm, hc.2.symm, rfl, by simp [MemOp.is16, h16]⟩
      · rename_i hc
        obtain ⟨⟨v, r'⟩, hv, he⟩ := Option.map_eq_some_iff.1 h
        simp at he; obtain ⟨rfl, rfl⟩ := he
        obtain ⟨e1, e2⟩ := takeDisp_eq_some eq_of_take32 hm hv
        refine ⟨e1, e2, rfl, ?_, by simp [MemOp.is16, h16]⟩
        simp only [MemOp.formOk, Bool.and_eq_true, Bool.or_eq_true, bne_iff_ne]
        refine ⟨h4, ?_⟩
        by_cases h6 : rm = 5#3
        · right
          by_contra hp
          exact hc ⟨by rw [← e2, Disp.mod_zero]; simpa using hp, h6⟩
        · exact .inl h6

/-- The second opcode byte. -/
def opByte (save : Bool) : Byte := if save then 0xC7 else 0xAE

/-- The REX byte of an instruction, where it has one. -/
def Instr.rexBytes (i : Instr) : List Byte := (i.rex?.map (encodeRex i.wide)).toList

/-- The bytes of an instruction, in parts (R100). -/
theorem encode_eq (i : Instr) :
    encode i = i.pfxs.map encodePfx ++ (i.rexBytes ++ (0x0F :: opByte i.saves :: encodeMem i.mem)) := by
  cases i <;> simp [encode, Instr.pfxs, Instr.rexBytes, Instr.rex?, Instr.wide, opByte, Instr.saves, Instr.mem]

/-- A REX byte is 40H to 4FH (R103). -/
theorem encodeRex_hi (w : Bool) (r : Rex) : (encodeRex w r).extractLsb' 4 4 = 4#4 := by
  obtain ⟨x, b⟩ := r; cases w <;> cases x <;> cases b <;> rfl

/-- A REX byte is no legacy byte. -/
theorem encodeRex_pfx (w : Bool) (r : Rex) : decodePfx (encodeRex w r) = none := by
  obtain ⟨x, b⟩ := r; cases w <;> cases x <;> cases b <;> rfl

/-- The four bits `WRXB` of an encoded REX byte. -/
def rexNibble (w : Bool) (r : Rex) : BitVec 4 := (encodeRex w r).extractLsb' 0 4

/-- The form is read back from its opcode row and its REX bits (R103, R115). -/
theorem makeInstr_rex (save w : Bool) (p : List Pfx) (r : Rex) (m : MemOp) :
    makeInstr save p (some (rexNibble w r)) m =
      (if save then (if w then .xsaves64 p r m else .xsaves p (some r) m)
       else (if w then .xrstor64 p r m else .xrstor p (some r) m)) := by
  obtain ⟨x, b⟩ := r; cases w <;> cases x <;> cases b <;> cases save <;> rfl

/-- An encoded REX byte has R = 0. -/
theorem rexR_rexNibble (w : Bool) (r : Rex) : rexR (some (rexNibble w r)) = false := by
  obtain ⟨x, b⟩ := r; cases w <;> cases x <;> cases b <;> rfl

/-- The four bits `WRXB` of an instruction's REX byte, where it has one. -/
def Instr.rexNibble? (i : Instr) : Option (BitVec 4) := i.rex?.map (rexNibble i.wide)

/-- An instruction is made of its own parts. -/
theorem makeInstr_parts_of (i : Instr) : makeInstr i.saves i.pfxs (Instr.rexNibble? i) i.mem = i := by
  cases i with
  | xrstor p r m => cases r with | none => rfl | some r => exact makeInstr_rex false false p r m
  | xrstor64 p r m => exact makeInstr_rex false true p r m
  | xsaves p r m => cases r with | none => rfl | some r => exact makeInstr_rex true false p r m
  | xsaves64 p r m => exact makeInstr_rex true true p r m

/-- No instruction has REX.R = 1 (R116 (f)). -/
theorem rexR_rexNibble? (i : Instr) : rexR (Instr.rexNibble? i) = false := by
  unfold Instr.rexNibble?
  cases i.rex? with
  | none => rfl
  | some r => exact rexR_rexNibble _ r

/-- The REX byte of a well-formed instruction is read back. -/
theorem takeRex_encode (cx : DecodeCtx) (i : Instr) (bs : List Byte) (h : i.rexOk cx = true) :
    takeRex cx.mode (i.rexBytes ++ (0x0F :: bs)) = (Instr.rexNibble? i, 0x0F :: bs) := by
  unfold Instr.rexBytes Instr.rexNibble?
  cases hr : i.rex? with
  | none => simp [takeRex]
  | some r =>
    have hm : cx.mode = .long64 := by simpa [Instr.rexOk, hr] using h
    simp [takeRex, hm, encodeRex_hi, rexNibble]

/-- The parts of the instruction the decoder makes are those it read. -/
theorem makeInstr_parts (save : Bool) (p : List Pfx) (rex : Option (BitVec 4)) (m : MemOp) (hR : rexR rex = false) :
    (makeInstr save p rex m).saves = save ∧ (makeInstr save p rex m).pfxs = p ∧ (makeInstr save p rex m).mem = m ∧
    Instr.rexNibble? (makeInstr save p rex m) = rex ∧ (rex.isSome = (makeInstr save p rex m).rex?.isSome) := by
  cases rex with
  | none => cases save <;> exact ⟨rfl, rfl, rfl, rfl, rfl⟩
  | some r =>
    have : ∀ r : BitVec 4, rexR (some r) = false → rexNibble (r.getLsbD 3) ⟨r.getLsbD 1, r.getLsbD 0⟩ = r := by decide
    have hr := this r hR
    unfold makeInstr
    simp only []
    generalize r.getLsbD 3 = w at hr
    cases w <;> cases save <;> exact ⟨rfl, rfl, rfl, congrArg some hr, rfl⟩

/-! ### Lengths (30_encoding.md R101) -/

theorem length_bytesOf {w : Nat} (v : BitVec w) (k : Nat) : (bytesOf v k).length = k := by
  induction k generalizing v with
  | zero => rfl
  | succ k ih => simp [bytesOf, ih]

theorem length_encodeDisp {w : Nat} (d : Disp w) : (encodeDisp d).length = d.bytes := by
  cases d <;> simp [encodeDisp, Disp.bytes, length_bytesOf]

theorem length_encodeMem (m : MemOp) : (encodeMem m).length = 1 + m.bytes := by
  cases m <;> simp [encodeMem, MemOp.bytes, length_encodeDisp, length_bytesOf] <;> omega

end Sys2Proof
end

