-- ==== Sys2Proof/Laws/Memory.lean ====
section
/-! SUPPORT. Laws/Memory.lean: reads after writes, and that every memory operation keeps the canonical form. -/

namespace Sys2Proof.Machine

open Sys2Proof

/-! ### One byte -/

/-- In a memory canonical from `lo` on, an address below `lo` is unlisted. -/
theorem read_of_lt_of_wfFrom : ∀ {m : Memory} {lo a : Nat}, m.wfFrom lo = true → a < lo → m.read a = unlistedByte
  | [], _, _, _, _ => rfl
  | c :: cs, lo, a, h, ha => by
    simp only [Memory.wfFrom, Bool.and_eq_true, decide_eq_true_eq] at h
    have hne : c.1 ≠ a := by omega
    simp only [Memory.read, hne, if_false]
    exact read_of_lt_of_wfFrom h.2 (by omega)

/-- Canonical from `lo` on, hence from any lower address on. -/
theorem wfFrom_mono : ∀ {m : Memory} {lo lo' : Nat}, m.wfFrom lo = true → lo' ≤ lo → m.wfFrom lo' = true
  | [], _, _, _, _ => rfl
  | c :: cs, lo, lo', h, hl => by
    simp only [Memory.wfFrom, Bool.and_eq_true, decide_eq_true_eq] at h ⊢
    exact ⟨⟨by omega, h.1.2⟩, h.2⟩

/-- A write keeps the canonical form. -/
theorem wfFrom_write : ∀ {m : Memory} {lo a : Nat} {b : Byte}, m.wfFrom lo = true → lo ≤ a → (m.write a b).wfFrom lo = true
  | [], lo, a, b, _, ha => by
    unfold Memory.write
    split
    · rfl
    · simp_all [Memory.wfFrom]
  | c :: cs, lo, a, b, h, ha => by
    have h' := h
    simp only [Memory.wfFrom, Bool.and_eq_true, decide_eq_true_eq] at h'
    unfold Memory.write
    split
    · rename_i hlt
      split
      · exact h
      · rename_i hb
        simp only [Memory.wfFrom, Bool.and_eq_true, decide_eq_true_eq, bne_iff_ne, ne_eq]
        exact ⟨⟨ha, hb⟩, ⟨by omega, by simpa using h'.1.2⟩, h'.2⟩
    · split
      · split
        · exact wfFrom_mono h'.2 (by omega)
        · rename_i hb
          simp only [Memory.wfFrom, Bool.and_eq_true, decide_eq_true_eq, bne_iff_ne, ne_eq]
          exact ⟨⟨ha, hb⟩, wfFrom_mono h'.2 (by omega)⟩
      · simp only [Memory.wfFrom, Bool.and_eq_true, decide_eq_true_eq]
        exact ⟨h'.1, wfFrom_write h'.2 (by omega)⟩

theorem wf_write {m : Memory} {a : Nat} {b : Byte} (h : m.wf = true) : (m.write a b).wf = true :=
  wfFrom_write h (Nat.zero_le a)

/-- Reading after writing one byte. -/
theorem read_write_of_wfFrom : ∀ {m : Memory} {lo : Nat} (a : Nat) (b : Byte) (a' : Nat), m.wfFrom lo = true →
    (m.write a b).read a' = if a' = a then b else m.read a'
  | [], _, a, b, a', _ => by
    unfold Memory.write
    by_cases e : a' = a
    · subst e
      split
      · rename_i hb; simp [Memory.read, hb]
      · simp [Memory.read]
    · split
      · simp
      · simp [Memory.read, Ne.symm e]
  | c :: cs, lo, a, b, a', h => by
    simp only [Memory.wfFrom, Bool.and_eq_true, decide_eq_true_eq] at h
    have hlow : ∀ x, x ≤ c.1 → Memory.read cs x = unlistedByte := fun x hx => read_of_lt_of_wfFrom h.2 (by omega)
    unfold Memory.write
    split
    · rename_i hlt
      split
      · by_cases e : a' = a
        · subst e
          have : c.1 ≠ a' := by omega
          simp_all [Memory.read, hlow a' (by omega)]
        · simp [e]
      · by_cases e : a' = a
        · simp [Memory.read, e]
        · simp [Memory.read, e, Ne.symm e]
    · split
      · rename_i hnl heq
        split
        · by_cases e : a' = a
          · subst e; simp_all
          · have : c.1 ≠ a' := by omega
            simp [Memory.read, e, this]
        · by_cases e : a' = a
          · simp [Memory.read, e]
          · have : c.1 ≠ a' := by omega
            simp [Memory.read, e, Ne.symm e, this]
      · by_cases e : c.1 = a'
        · have : a' ≠ a := by omega
          simp [Memory.read, e, this]
        · simp only [Memory.read, e, if_false]
          exact read_write_of_wfFrom a b a' h.2

theorem read_write {m : Memory} (h : m.wf = true) (a : Nat) (b : Byte) (a' : Nat) :
    (m.write a b).read a' = if a' = a then b else m.read a' :=
  read_write_of_wfFrom a b a' h

/-- A write below `n` keeps every listed address below `n`. -/
theorem below_write : ∀ {m : Memory} {n a : Nat} {b : Byte}, m.below n = true → a < n → (m.write a b).below n = true
  | [], n, a, b, _, ha => by
    unfold Memory.write
    split <;> simp_all [Memory.below]
  | c :: cs, n, a, b, h, ha => by
    have h' : c.1 < n ∧ Memory.below n cs = true := by simpa [Memory.below] using h
    unfold Memory.write
    split
    · split
      · exact h
      · simpa [Memory.below, ha] using h'
    · split
      · split
        · exact h'.2
        · simpa [Memory.below, ha] using h'.2
      · have := below_write (b := b) h'.2 ha
        simpa [Memory.below, h'.1] using this

/-! ### A run of bytes -/

theorem wf_fill {la : Nat} {f : Nat → Byte} : ∀ {offs : List Nat} {m : Memory}, m.wf = true → (m.fill la offs f).wf = true
  | [], _, h => h
  | o :: os, m, h => by
    show (Memory.fill (m.write (la + o) (f o)) la os f).wf = true
    exact wf_fill (wf_write h)

theorem below_fill {la n : Nat} {f : Nat → Byte} : ∀ {offs : List Nat} {m : Memory}, m.below n = true →
    (∀ o ∈ offs, la + o < n) → (m.fill la offs f).below n = true
  | [], _, h, _ => h
  | o :: os, m, h, hb => by
    show (Memory.fill (m.write (la + o) (f o)) la os f).below n = true
    exact below_fill (below_write h (hb o (by simp))) fun x hx => hb x (by simp [hx])

/-- Everything a fill does: a byte of the run gets its value, every other byte is as before. -/
theorem read_fill {la : Nat} {f : Nat → Byte} : ∀ {offs : List Nat} {m : Memory} (_ : m.wf = true) (a : Nat),
    (m.fill la offs f).read a = if la ≤ a ∧ a - la ∈ offs then f (a - la) else m.read a
  | [], m, _, a => by simp [Memory.fill]
  | o :: os, m, h, a => by
    show (Memory.fill (m.write (la + o) (f o)) la os f).read a = _
    rw [read_fill (wf_write h) a, read_write h]
    by_cases h1 : la ≤ a ∧ a - la ∈ os
    · simp [h1]
    · simp only [h1, if_false]
      by_cases h2 : a = la + o
      · subst h2; simp
      · have : ¬ (la ≤ a ∧ a - la ∈ o :: os) := by
          rintro ⟨hl, hm⟩
          rcases List.mem_cons.1 hm with e | e
          · exact h2 (by omega)
          · exact h1 ⟨hl, e⟩
        rw [if_neg h2, if_neg this]

/-- A byte of the run gets its value. -/
theorem read_fill_mem {m : Memory} (h : m.wf = true) {la o : Nat} {offs : List Nat} {f : Nat → Byte} (ho : o ∈ offs) :
    (m.fill la offs f).read (la + o) = f o := by
  simp [read_fill h, ho]

/-- An area byte outside the run is as before. -/
theorem read_fill_not_mem {m : Memory} (h : m.wf = true) {la o : Nat} {offs : List Nat} {f : Nat → Byte} (ho : o ∉ offs) :
    (m.fill la offs f).read (la + o) = m.read (la + o) := by
  simp [read_fill h, ho]

/-! ### Little-endian fields -/

/-- A field depends on its own bytes only. -/
theorem readLE_congr {m m' : Memory} : ∀ {n a a' : Nat}, (∀ k, k < n → m.read (a + k) = m'.read (a' + k)) →
    m.readLE a n = m'.readLE a' n
  | 0, _, _, _ => rfl
  | n + 1, a, a', h => by
    have h0 : m.read a = m'.read a' := by simpa using h 0 (by omega)
    have ih : m.readLE (a + 1) n = m'.readLE (a' + 1) n := readLE_congr fun k hk => by
      simpa [Nat.add_assoc, Nat.add_comm 1] using h (k + 1) (by omega)
    simp [Memory.readLE, h0, ih]

theorem byteOf_zero (v : Nat) : byteOf v 0 = BitVec.ofNat 8 v := by simp [byteOf]

theorem byteOf_succ (v k : Nat) : byteOf v (k + 1) = byteOf (v / 256) k := by
  simp [byteOf, Nat.pow_succ', Nat.div_div_eq_div_mul]

/-- A field whose bytes are those of `v` holds `v`. -/
theorem readLE_of_bytes {m : Memory} : ∀ {n a v : Nat}, (∀ k, k < n → m.read (a + k) = byteOf v k) →
    m.readLE a n = v % 256 ^ n
  | 0, _, v, _ => by simp [Memory.readLE, Nat.mod_one]
  | n + 1, a, v, h => by
    have h0 : m.read a = byteOf v 0 := by simpa using h 0 (by omega)
    have ih : m.readLE (a + 1) n = (v / 256) % 256 ^ n := readLE_of_bytes fun k hk => by
      rw [← byteOf_succ]
      simpa [Nat.add_assoc, Nat.add_comm 1] using h (k + 1) (by omega)
    rw [Memory.readLE, h0, ih, byteOf_zero, Nat.pow_succ', Nat.mod_mul]
    simp

/-- The bytes of a field. -/
theorem byteOf_readLE {m : Memory} : ∀ {n a k : Nat}, k < n → byteOf (m.readLE a n) k = m.read (a + k)
  | 0, _, _, h => by omega
  | n + 1, a, 0, _ => by
    rw [byteOf_zero, Memory.readLE]
    apply BitVec.eq_of_toNat_eq
    have := (m.read a).isLt
    simp only [BitVec.toNat_ofNat, Nat.add_zero]
    omega
  | n + 1, a, k + 1, h => by
    have hb := (m.read a).isLt
    rw [byteOf_succ, Memory.readLE]
    have : ((m.read a).toNat + 256 * m.readLE (a + 1) n) / 256 = m.readLE (a + 1) n := by omega
    rw [this, byteOf_readLE (by omega)]
    congr 1; omega

theorem readLE_lt {m : Memory} : ∀ {n a : Nat}, m.readLE a n < 256 ^ n
  | 0, _ => by simp [Memory.readLE]
  | n + 1, a => by
    have hb := (m.read a).isLt
    have ih : m.readLE (a + 1) n < 256 ^ n := readLE_lt
    rw [Memory.readLE, Nat.pow_succ']
    omega

/-! ### Offsets -/

@[simp] theorem mem_span {lo n o : Nat} : o ∈ span lo n ↔ lo ≤ o ∧ o < lo + n := by
  simp only [span, List.mem_range'_1]

end Sys2Proof.Machine
end

