-- ==== Sys2Proof/Laws/State.lean ====
section
/-! SUPPORT. Laws/State.lean: one lemma per field per update of the state, true by rfl, so that no later proof unfolds a record
update. -/

namespace Sys2Proof.Machine

open Sys2Proof

/-! ### advance -/

@[simp] theorem State.advance_gprs (s : State) (len : Nat) :
    (s.advance len).gprs = s.gprs := rfl
@[simp] theorem State.advance_rip (s : State) (len : Nat) :
    (s.advance len).rip = s.rip + BitVec.ofNat 64 len := rfl
@[simp] theorem State.advance_eflags (s : State) (len : Nat) :
    (s.advance len).eflags = s.eflags := rfl
@[simp] theorem State.advance_cr0 (s : State) (len : Nat) :
    (s.advance len).cr0 = s.cr0 := rfl
@[simp] theorem State.advance_cr4 (s : State) (len : Nat) :
    (s.advance len).cr4 = s.cr4 := rfl
@[simp] theorem State.advance_efer (s : State) (len : Nat) :
    (s.advance len).efer = s.efer := rfl
@[simp] theorem State.advance_xcr0 (s : State) (len : Nat) :
    (s.advance len).xcr0 = s.xcr0 := rfl
@[simp] theorem State.advance_xss (s : State) (len : Nat) :
    (s.advance len).xss = s.xss := rfl
@[simp] theorem State.advance_x87 (s : State) (len : Nat) :
    (s.advance len).x87 = s.x87 := rfl
@[simp] theorem State.advance_xmm (s : State) (len : Nat) :
    (s.advance len).xmm = s.xmm := rfl
@[simp] theorem State.advance_mxcsr (s : State) (len : Nat) :
    (s.advance len).mxcsr = s.mxcsr := rfl
@[simp] theorem State.advance_ymmHi (s : State) (len : Nat) :
    (s.advance len).ymmHi = s.ymmHi := rfl
@[simp] theorem State.advance_xinuse (s : State) (len : Nat) :
    (s.advance len).xinuse = s.xinuse := rfl
@[simp] theorem State.advance_xmodified (s : State) (len : Nat) :
    (s.advance len).xmodified = s.xmodified := rfl
@[simp] theorem State.advance_xrstorInfo (s : State) (len : Nat) :
    (s.advance len).xrstorInfo = s.xrstorInfo := rfl
@[simp] theorem State.advance_cpl (s : State) (len : Nat) :
    (s.advance len).cpl = s.cpl := rfl
@[simp] theorem State.advance_vmxnr (s : State) (len : Nat) :
    (s.advance len).vmxnr = s.vmxnr := rfl
@[simp] theorem State.advance_mode (s : State) (len : Nat) :
    (s.advance len).mode = s.mode := rfl
@[simp] theorem State.advance_segs (s : State) (len : Nat) :
    (s.advance len).segs = s.segs := rfl
@[simp] theorem State.advance_csD (s : State) (len : Nat) :
    (s.advance len).csD = s.csD := rfl
@[simp] theorem State.advance_csL (s : State) (len : Nat) :
    (s.advance len).csL = s.csL := rfl
@[simp] theorem State.advance_mem (s : State) (len : Nat) :
    (s.advance len).mem = s.mem := rfl
@[simp] theorem State.advance_cfg (s : State) (len : Nat) :
    (s.advance len).cfg = s.cfg := rfl
@[simp] theorem State.advance_env (s : State) (len : Nat) :
    (s.advance len).env = s.env := rfl
@[simp] theorem State.advance_text (s : State) (len : Nat) :
    (s.advance len).text = s.text := rfl
@[simp] theorem State.advance_draws (s : State) (len : Nat) :
    (s.advance len).draws = s.draws := rfl

/-! ### withText -/

@[simp] theorem State.withText_gprs (s : State) (bytes : List Byte) :
    (s.withText bytes).gprs = s.gprs := rfl
@[simp] theorem State.withText_rip (s : State) (bytes : List Byte) :
    (s.withText bytes).rip = s.rip := rfl
@[simp] theorem State.withText_eflags (s : State) (bytes : List Byte) :
    (s.withText bytes).eflags = s.eflags := rfl
@[simp] theorem State.withText_cr0 (s : State) (bytes : List Byte) :
    (s.withText bytes).cr0 = s.cr0 := rfl
@[simp] theorem State.withText_cr4 (s : State) (bytes : List Byte) :
    (s.withText bytes).cr4 = s.cr4 := rfl
@[simp] theorem State.withText_efer (s : State) (bytes : List Byte) :
    (s.withText bytes).efer = s.efer := rfl
@[simp] theorem State.withText_xcr0 (s : State) (bytes : List Byte) :
    (s.withText bytes).xcr0 = s.xcr0 := rfl
@[simp] theorem State.withText_xss (s : State) (bytes : List Byte) :
    (s.withText bytes).xss = s.xss := rfl
@[simp] theorem State.withText_x87 (s : State) (bytes : List Byte) :
    (s.withText bytes).x87 = s.x87 := rfl
@[simp] theorem State.withText_xmm (s : State) (bytes : List Byte) :
    (s.withText bytes).xmm = s.xmm := rfl
@[simp] theorem State.withText_mxcsr (s : State) (bytes : List Byte) :
    (s.withText bytes).mxcsr = s.mxcsr := rfl
@[simp] theorem State.withText_ymmHi (s : State) (bytes : List Byte) :
    (s.withText bytes).ymmHi = s.ymmHi := rfl
@[simp] theorem State.withText_xinuse (s : State) (bytes : List Byte) :
    (s.withText bytes).xinuse = s.xinuse := rfl
@[simp] theorem State.withText_xmodified (s : State) (bytes : List Byte) :
    (s.withText bytes).xmodified = s.xmodified := rfl
@[simp] theorem State.withText_xrstorInfo (s : State) (bytes : List Byte) :
    (s.withText bytes).xrstorInfo = s.xrstorInfo := rfl
@[simp] theorem State.withText_cpl (s : State) (bytes : List Byte) :
    (s.withText bytes).cpl = s.cpl := rfl
@[simp] theorem State.withText_vmxnr (s : State) (bytes : List Byte) :
    (s.withText bytes).vmxnr = s.vmxnr := rfl
@[simp] theorem State.withText_mode (s : State) (bytes : List Byte) :
    (s.withText bytes).mode = s.mode := rfl
@[simp] theorem State.withText_segs (s : State) (bytes : List Byte) :
    (s.withText bytes).segs = s.segs := rfl
@[simp] theorem State.withText_csD (s : State) (bytes : List Byte) :
    (s.withText bytes).csD = s.csD := rfl
@[simp] theorem State.withText_csL (s : State) (bytes : List Byte) :
    (s.withText bytes).csL = s.csL := rfl
@[simp] theorem State.withText_mem (s : State) (bytes : List Byte) :
    (s.withText bytes).mem = s.mem := rfl
@[simp] theorem State.withText_cfg (s : State) (bytes : List Byte) :
    (s.withText bytes).cfg = s.cfg := rfl
@[simp] theorem State.withText_env (s : State) (bytes : List Byte) :
    (s.withText bytes).env = s.env := rfl
@[simp] theorem State.withText_text (s : State) (bytes : List Byte) :
    (s.withText bytes).text = ⟨s.fetchAddress, bytes⟩ := rfl
@[simp] theorem State.withText_draws (s : State) (bytes : List Byte) :
    (s.withText bytes).draws = s.draws := rfl

/-! ### withComponents -/

@[simp] theorem withComponents_gprs (d : Draws) (w : Bool) (ar : Area) (k : Masks) (s : State) :
    (withComponents d w ar k s).gprs = s.gprs := rfl
@[simp] theorem withComponents_rip (d : Draws) (w : Bool) (ar : Area) (k : Masks) (s : State) :
    (withComponents d w ar k s).rip = s.rip := rfl
@[simp] theorem withComponents_eflags (d : Draws) (w : Bool) (ar : Area) (k : Masks) (s : State) :
    (withComponents d w ar k s).eflags = s.eflags := rfl
@[simp] theorem withComponents_cr0 (d : Draws) (w : Bool) (ar : Area) (k : Masks) (s : State) :
    (withComponents d w ar k s).cr0 = s.cr0 := rfl
@[simp] theorem withComponents_cr4 (d : Draws) (w : Bool) (ar : Area) (k : Masks) (s : State) :
    (withComponents d w ar k s).cr4 = s.cr4 := rfl
@[simp] theorem withComponents_efer (d : Draws) (w : Bool) (ar : Area) (k : Masks) (s : State) :
    (withComponents d w ar k s).efer = s.efer := rfl
@[simp] theorem withComponents_xcr0 (d : Draws) (w : Bool) (ar : Area) (k : Masks) (s : State) :
    (withComponents d w ar k s).xcr0 = s.xcr0 := rfl
@[simp] theorem withComponents_xss (d : Draws) (w : Bool) (ar : Area) (k : Masks) (s : State) :
    (withComponents d w ar k s).xss = s.xss := rfl
@[simp] theorem withComponents_x87 (d : Draws) (w : Bool) (ar : Area) (k : Masks) (s : State) :
    (withComponents d w ar k s).x87 = restoredX87 d w s ar k := rfl
@[simp] theorem withComponents_xmm (d : Draws) (w : Bool) (ar : Area) (k : Masks) (s : State) :
    (withComponents d w ar k s).xmm = restoredXmm s ar k := rfl
@[simp] theorem withComponents_mxcsr (d : Draws) (w : Bool) (ar : Area) (k : Masks) (s : State) :
    (withComponents d w ar k s).mxcsr = restoredMxcsr s ar k := rfl
@[simp] theorem withComponents_ymmHi (d : Draws) (w : Bool) (ar : Area) (k : Masks) (s : State) :
    (withComponents d w ar k s).ymmHi = restoredYmmHi s ar k := rfl
@[simp] theorem withComponents_xinuse (d : Draws) (w : Bool) (ar : Area) (k : Masks) (s : State) :
    (withComponents d w ar k s).xinuse = s.xinuse := rfl
@[simp] theorem withComponents_xmodified (d : Draws) (w : Bool) (ar : Area) (k : Masks) (s : State) :
    (withComponents d w ar k s).xmodified = s.xmodified := rfl
@[simp] theorem withComponents_xrstorInfo (d : Draws) (w : Bool) (ar : Area) (k : Masks) (s : State) :
    (withComponents d w ar k s).xrstorInfo = s.xrstorInfo := rfl
@[simp] theorem withComponents_cpl (d : Draws) (w : Bool) (ar : Area) (k : Masks) (s : State) :
    (withComponents d w ar k s).cpl = s.cpl := rfl
@[simp] theorem withComponents_vmxnr (d : Draws) (w : Bool) (ar : Area) (k : Masks) (s : State) :
    (withComponents d w ar k s).vmxnr = s.vmxnr := rfl
@[simp] theorem withComponents_mode (d : Draws) (w : Bool) (ar : Area) (k : Masks) (s : State) :
    (withComponents d w ar k s).mode = s.mode := rfl
@[simp] theorem withComponents_segs (d : Draws) (w : Bool) (ar : Area) (k : Masks) (s : State) :
    (withComponents d w ar k s).segs = s.segs := rfl
@[simp] theorem withComponents_csD (d : Draws) (w : Bool) (ar : Area) (k : Masks) (s : State) :
    (withComponents d w ar k s).csD = s.csD := rfl
@[simp] theorem withComponents_csL (d : Draws) (w : Bool) (ar : Area) (k : Masks) (s : State) :
    (withComponents d w ar k s).csL = s.csL := rfl
@[simp] theorem withComponents_mem (d : Draws) (w : Bool) (ar : Area) (k : Masks) (s : State) :
    (withComponents d w ar k s).mem = s.mem := rfl
@[simp] theorem withComponents_cfg (d : Draws) (w : Bool) (ar : Area) (k : Masks) (s : State) :
    (withComponents d w ar k s).cfg = s.cfg := rfl
@[simp] theorem withComponents_env (d : Draws) (w : Bool) (ar : Area) (k : Masks) (s : State) :
    (withComponents d w ar k s).env = s.env := rfl
@[simp] theorem withComponents_text (d : Draws) (w : Bool) (ar : Area) (k : Masks) (s : State) :
    (withComponents d w ar k s).text = s.text := rfl
@[simp] theorem withComponents_draws (d : Draws) (w : Bool) (ar : Area) (k : Masks) (s : State) :
    (withComponents d w ar k s).draws = s.draws := rfl

/-! ### withTracking -/

@[simp] theorem withTracking_gprs (d : Draws) (k : Masks) (s : State) :
    (withTracking d k s).gprs = s.gprs := rfl
@[simp] theorem withTracking_rip (d : Draws) (k : Masks) (s : State) :
    (withTracking d k s).rip = s.rip := rfl
@[simp] theorem withTracking_eflags (d : Draws) (k : Masks) (s : State) :
    (withTracking d k s).eflags = s.eflags := rfl
@[simp] theorem withTracking_cr0 (d : Draws) (k : Masks) (s : State) :
    (withTracking d k s).cr0 = s.cr0 := rfl
@[simp] theorem withTracking_cr4 (d : Draws) (k : Masks) (s : State) :
    (withTracking d k s).cr4 = s.cr4 := rfl
@[simp] theorem withTracking_efer (d : Draws) (k : Masks) (s : State) :
    (withTracking d k s).efer = s.efer := rfl
@[simp] theorem withTracking_xcr0 (d : Draws) (k : Masks) (s : State) :
    (withTracking d k s).xcr0 = s.xcr0 := rfl
@[simp] theorem withTracking_xss (d : Draws) (k : Masks) (s : State) :
    (withTracking d k s).xss = s.xss := rfl
@[simp] theorem withTracking_x87 (d : Draws) (k : Masks) (s : State) :
    (withTracking d k s).x87 = s.x87 := rfl
@[simp] theorem withTracking_xmm (d : Draws) (k : Masks) (s : State) :
    (withTracking d k s).xmm = s.xmm := rfl
@[simp] theorem withTracking_mxcsr (d : Draws) (k : Masks) (s : State) :
    (withTracking d k s).mxcsr = s.mxcsr := rfl
@[simp] theorem withTracking_ymmHi (d : Draws) (k : Masks) (s : State) :
    (withTracking d k s).ymmHi = s.ymmHi := rfl
@[simp] theorem withTracking_xinuse (d : Draws) (k : Masks) (s : State) :
    (withTracking d k s).xinuse = setComponents s.cfg.components s.xinuse (inuseAfter d s k) := rfl
@[simp] theorem withTracking_xmodified (d : Draws) (k : Masks) (s : State) :
    (withTracking d k s).xmodified = setComponents s.cfg.components s.xmodified (modifiedAfter d s k) := rfl
@[simp] theorem withTracking_xrstorInfo (d : Draws) (k : Masks) (s : State) :
    (withTracking d k s).xrstorInfo = s.xrstorInfo := rfl
@[simp] theorem withTracking_cpl (d : Draws) (k : Masks) (s : State) :
    (withTracking d k s).cpl = s.cpl := rfl
@[simp] theorem withTracking_vmxnr (d : Draws) (k : Masks) (s : State) :
    (withTracking d k s).vmxnr = s.vmxnr := rfl
@[simp] theorem withTracking_mode (d : Draws) (k : Masks) (s : State) :
    (withTracking d k s).mode = s.mode := rfl
@[simp] theorem withTracking_segs (d : Draws) (k : Masks) (s : State) :
    (withTracking d k s).segs = s.segs := rfl
@[simp] theorem withTracking_csD (d : Draws) (k : Masks) (s : State) :
    (withTracking d k s).csD = s.csD := rfl
@[simp] theorem withTracking_csL (d : Draws) (k : Masks) (s : State) :
    (withTracking d k s).csL = s.csL := rfl
@[simp] theorem withTracking_mem (d : Draws) (k : Masks) (s : State) :
    (withTracking d k s).mem = s.mem := rfl
@[simp] theorem withTracking_cfg (d : Draws) (k : Masks) (s : State) :
    (withTracking d k s).cfg = s.cfg := rfl
@[simp] theorem withTracking_env (d : Draws) (k : Masks) (s : State) :
    (withTracking d k s).env = s.env := rfl
@[simp] theorem withTracking_text (d : Draws) (k : Masks) (s : State) :
    (withTracking d k s).text = s.text := rfl
@[simp] theorem withTracking_draws (d : Draws) (k : Masks) (s : State) :
    (withTracking d k s).draws = s.draws := rfl

/-! ### xrstorDone -/

@[simp] theorem xrstorDone_gprs (d : Draws) (w : Bool) (ar : Area) (k : Masks) (len : Nat) (s : State) :
    (xrstorDone d w ar k len s).gprs = s.gprs := rfl
@[simp] theorem xrstorDone_rip (d : Draws) (w : Bool) (ar : Area) (k : Masks) (len : Nat) (s : State) :
    (xrstorDone d w ar k len s).rip = s.rip + BitVec.ofNat 64 len := rfl
@[simp] theorem xrstorDone_eflags (d : Draws) (w : Bool) (ar : Area) (k : Masks) (len : Nat) (s : State) :
    (xrstorDone d w ar k len s).eflags = s.eflags := rfl
@[simp] theorem xrstorDone_cr0 (d : Draws) (w : Bool) (ar : Area) (k : Masks) (len : Nat) (s : State) :
    (xrstorDone d w ar k len s).cr0 = s.cr0 := rfl
@[simp] theorem xrstorDone_cr4 (d : Draws) (w : Bool) (ar : Area) (k : Masks) (len : Nat) (s : State) :
    (xrstorDone d w ar k len s).cr4 = s.cr4 := rfl
@[simp] theorem xrstorDone_efer (d : Draws) (w : Bool) (ar : Area) (k : Masks) (len : Nat) (s : State) :
    (xrstorDone d w ar k len s).efer = s.efer := rfl
@[simp] theorem xrstorDone_xcr0 (d : Draws) (w : Bool) (ar : Area) (k : Masks) (len : Nat) (s : State) :
    (xrstorDone d w ar k len s).xcr0 = s.xcr0 := rfl
@[simp] theorem xrstorDone_xss (d : Draws) (w : Bool) (ar : Area) (k : Masks) (len : Nat) (s : State) :
    (xrstorDone d w ar k len s).xss = s.xss := rfl
@[simp] theorem xrstorDone_x87 (d : Draws) (w : Bool) (ar : Area) (k : Masks) (len : Nat) (s : State) :
    (xrstorDone d w ar k len s).x87 = restoredX87 d w s ar k := rfl
@[simp] theorem xrstorDone_xmm (d : Draws) (w : Bool) (ar : Area) (k : Masks) (len : Nat) (s : State) :
    (xrstorDone d w ar k len s).xmm = restoredXmm s ar k := rfl
@[simp] theorem xrstorDone_mxcsr (d : Draws) (w : Bool) (ar : Area) (k : Masks) (len : Nat) (s : State) :
    (xrstorDone d w ar k len s).mxcsr = restoredMxcsr s ar k := rfl
@[simp] theorem xrstorDone_ymmHi (d : Draws) (w : Bool) (ar : Area) (k : Masks) (len : Nat) (s : State) :
    (xrstorDone d w ar k len s).ymmHi = restoredYmmHi s ar k := rfl
@[simp] theorem xrstorDone_xinuse (d : Draws) (w : Bool) (ar : Area) (k : Masks) (len : Nat) (s : State) :
    (xrstorDone d w ar k len s).xinuse = setComponents s.cfg.components s.xinuse (inuseAfter d (withComponents d w ar k s) k) := rfl
@[simp] theorem xrstorDone_xmodified (d : Draws) (w : Bool) (ar : Area) (k : Masks) (len : Nat) (s : State) :
    (xrstorDone d w ar k len s).xmodified = setComponents s.cfg.components s.xmodified (modifiedAfter d (withComponents d w ar k s) k) := rfl
@[simp] theorem xrstorDone_xrstorInfo (d : Draws) (w : Bool) (ar : Area) (k : Masks) (len : Nat) (s : State) :
    (xrstorDone d w ar k len s).xrstorInfo = some ⟨s.cpl, s.vmxnr, ar.laxa, k.compmask⟩ := rfl
@[simp] theorem xrstorDone_cpl (d : Draws) (w : Bool) (ar : Area) (k : Masks) (len : Nat) (s : State) :
    (xrstorDone d w ar k len s).cpl = s.cpl := rfl
@[simp] theorem xrstorDone_vmxnr (d : Draws) (w : Bool) (ar : Area) (k : Masks) (len : Nat) (s : State) :
    (xrstorDone d w ar k len s).vmxnr = s.vmxnr := rfl
@[simp] theorem xrstorDone_mode (d : Draws) (w : Bool) (ar : Area) (k : Masks) (len : Nat) (s : State) :
    (xrstorDone d w ar k len s).mode = s.mode := rfl
@[simp] theorem xrstorDone_segs (d : Draws) (w : Bool) (ar : Area) (k : Masks) (len : Nat) (s : State) :
    (xrstorDone d w ar k len s).segs = s.segs := rfl
@[simp] theorem xrstorDone_csD (d : Draws) (w : Bool) (ar : Area) (k : Masks) (len : Nat) (s : State) :
    (xrstorDone d w ar k len s).csD = s.csD := rfl
@[simp] theorem xrstorDone_csL (d : Draws) (w : Bool) (ar : Area) (k : Masks) (len : Nat) (s : State) :
    (xrstorDone d w ar k len s).csL = s.csL := rfl
@[simp] theorem xrstorDone_mem (d : Draws) (w : Bool) (ar : Area) (k : Masks) (len : Nat) (s : State) :
    (xrstorDone d w ar k len s).mem = s.mem := rfl
@[simp] theorem xrstorDone_cfg (d : Draws) (w : Bool) (ar : Area) (k : Masks) (len : Nat) (s : State) :
    (xrstorDone d w ar k len s).cfg = s.cfg := rfl
@[simp] theorem xrstorDone_env (d : Draws) (w : Bool) (ar : Area) (k : Masks) (len : Nat) (s : State) :
    (xrstorDone d w ar k len s).env = s.env := rfl
@[simp] theorem xrstorDone_text (d : Draws) (w : Bool) (ar : Area) (k : Masks) (len : Nat) (s : State) :
    (xrstorDone d w ar k len s).text = s.text := rfl
@[simp] theorem xrstorDone_draws (d : Draws) (w : Bool) (ar : Area) (k : Masks) (len : Nat) (s : State) :
    (xrstorDone d w ar k len s).draws = s.draws + 1 := rfl

/-! ### lateComponents -/

@[simp] theorem lateComponents_gprs (d : Draws) (k : Masks) (s : State) :
    (lateComponents d k s).gprs = s.gprs := rfl
@[simp] theorem lateComponents_rip (d : Draws) (k : Masks) (s : State) :
    (lateComponents d k s).rip = s.rip := rfl
@[simp] theorem lateComponents_eflags (d : Draws) (k : Masks) (s : State) :
    (lateComponents d k s).eflags = s.eflags := rfl
@[simp] theorem lateComponents_cr0 (d : Draws) (k : Masks) (s : State) :
    (lateComponents d k s).cr0 = s.cr0 := rfl
@[simp] theorem lateComponents_cr4 (d : Draws) (k : Masks) (s : State) :
    (lateComponents d k s).cr4 = s.cr4 := rfl
@[simp] theorem lateComponents_efer (d : Draws) (k : Masks) (s : State) :
    (lateComponents d k s).efer = s.efer := rfl
@[simp] theorem lateComponents_xcr0 (d : Draws) (k : Masks) (s : State) :
    (lateComponents d k s).xcr0 = s.xcr0 := rfl
@[simp] theorem lateComponents_xss (d : Draws) (k : Masks) (s : State) :
    (lateComponents d k s).xss = s.xss := rfl
@[simp] theorem lateComponents_x87 (d : Draws) (k : Masks) (s : State) :
    (lateComponents d k s).x87 = if k.rfbm.getLsbD 0 then d.lateX87 else s.x87 := rfl
@[simp] theorem lateComponents_xmm (d : Draws) (k : Masks) (s : State) :
    (lateComponents d k s).xmm = if k.rfbm.getLsbD 1 then d.lateXmm else s.xmm := rfl
@[simp] theorem lateComponents_mxcsr (d : Draws) (k : Masks) (s : State) :
    (lateComponents d k s).mxcsr = if k.writesMxcsr then d.lateMxcsr else s.mxcsr := rfl
@[simp] theorem lateComponents_ymmHi (d : Draws) (k : Masks) (s : State) :
    (lateComponents d k s).ymmHi = if k.rfbm.getLsbD 2 then d.lateYmmHi else s.ymmHi := rfl
@[simp] theorem lateComponents_xinuse (d : Draws) (k : Masks) (s : State) :
    (lateComponents d k s).xinuse = s.xinuse := rfl
@[simp] theorem lateComponents_xmodified (d : Draws) (k : Masks) (s : State) :
    (lateComponents d k s).xmodified = s.xmodified := rfl
@[simp] theorem lateComponents_xrstorInfo (d : Draws) (k : Masks) (s : State) :
    (lateComponents d k s).xrstorInfo = s.xrstorInfo := rfl
@[simp] theorem lateComponents_cpl (d : Draws) (k : Masks) (s : State) :
    (lateComponents d k s).cpl = s.cpl := rfl
@[simp] theorem lateComponents_vmxnr (d : Draws) (k : Masks) (s : State) :
    (lateComponents d k s).vmxnr = s.vmxnr := rfl
@[simp] theorem lateComponents_mode (d : Draws) (k : Masks) (s : State) :
    (lateComponents d k s).mode = s.mode := rfl
@[simp] theorem lateComponents_segs (d : Draws) (k : Masks) (s : State) :
    (lateComponents d k s).segs = s.segs := rfl
@[simp] theorem lateComponents_csD (d : Draws) (k : Masks) (s : State) :
    (lateComponents d k s).csD = s.csD := rfl
@[simp] theorem lateComponents_csL (d : Draws) (k : Masks) (s : State) :
    (lateComponents d k s).csL = s.csL := rfl
@[simp] theorem lateComponents_mem (d : Draws) (k : Masks) (s : State) :
    (lateComponents d k s).mem = s.mem := rfl
@[simp] theorem lateComponents_cfg (d : Draws) (k : Masks) (s : State) :
    (lateComponents d k s).cfg = s.cfg := rfl
@[simp] theorem lateComponents_env (d : Draws) (k : Masks) (s : State) :
    (lateComponents d k s).env = s.env := rfl
@[simp] theorem lateComponents_text (d : Draws) (k : Masks) (s : State) :
    (lateComponents d k s).text = s.text := rfl
@[simp] theorem lateComponents_draws (d : Draws) (k : Masks) (s : State) :
    (lateComponents d k s).draws = s.draws := rfl

/-! ### xrstorLate -/

@[simp] theorem xrstorLate_gprs (d : Draws) (k : Masks) (s : State) :
    (xrstorLate d k s).gprs = s.gprs := rfl
@[simp] theorem xrstorLate_rip (d : Draws) (k : Masks) (s : State) :
    (xrstorLate d k s).rip = s.rip := rfl
@[simp] theorem xrstorLate_eflags (d : Draws) (k : Masks) (s : State) :
    (xrstorLate d k s).eflags = s.eflags := rfl
@[simp] theorem xrstorLate_cr0 (d : Draws) (k : Masks) (s : State) :
    (xrstorLate d k s).cr0 = s.cr0 := rfl
@[simp] theorem xrstorLate_cr4 (d : Draws) (k : Masks) (s : State) :
    (xrstorLate d k s).cr4 = s.cr4 := rfl
@[simp] theorem xrstorLate_efer (d : Draws) (k : Masks) (s : State) :
    (xrstorLate d k s).efer = s.efer := rfl
@[simp] theorem xrstorLate_xcr0 (d : Draws) (k : Masks) (s : State) :
    (xrstorLate d k s).xcr0 = s.xcr0 := rfl
@[simp] theorem xrstorLate_xss (d : Draws) (k : Masks) (s : State) :
    (xrstorLate d k s).xss = s.xss := rfl
@[simp] theorem xrstorLate_x87 (d : Draws) (k : Masks) (s : State) :
    (xrstorLate d k s).x87 = if k.rfbm.getLsbD 0 then d.lateX87 else s.x87 := rfl
@[simp] theorem xrstorLate_xmm (d : Draws) (k : Masks) (s : State) :
    (xrstorLate d k s).xmm = if k.rfbm.getLsbD 1 then d.lateXmm else s.xmm := rfl
@[simp] theorem xrstorLate_mxcsr (d : Draws) (k : Masks) (s : State) :
    (xrstorLate d k s).mxcsr = if k.writesMxcsr then d.lateMxcsr else s.mxcsr := rfl
@[simp] theorem xrstorLate_ymmHi (d : Draws) (k : Masks) (s : State) :
    (xrstorLate d k s).ymmHi = if k.rfbm.getLsbD 2 then d.lateYmmHi else s.ymmHi := rfl
@[simp] theorem xrstorLate_xinuse (d : Draws) (k : Masks) (s : State) :
    (xrstorLate d k s).xinuse = setComponents s.cfg.components s.xinuse (fun i => if k.rfbm.getLsbD i then d.lateInuse i || !(lateComponents d k s).isInitial i else s.xinuse.getLsbD i) := rfl
@[simp] theorem xrstorLate_xmodified (d : Draws) (k : Masks) (s : State) :
    (xrstorLate d k s).xmodified = setComponents s.cfg.components s.xmodified (fun i => if k.rfbm.getLsbD i then d.lateModified i else s.xmodified.getLsbD i) := rfl
@[simp] theorem xrstorLate_xrstorInfo (d : Draws) (k : Masks) (s : State) :
    (xrstorLate d k s).xrstorInfo = s.xrstorInfo := rfl
@[simp] theorem xrstorLate_cpl (d : Draws) (k : Masks) (s : State) :
    (xrstorLate d k s).cpl = s.cpl := rfl
@[simp] theorem xrstorLate_vmxnr (d : Draws) (k : Masks) (s : State) :
    (xrstorLate d k s).vmxnr = s.vmxnr := rfl
@[simp] theorem xrstorLate_mode (d : Draws) (k : Masks) (s : State) :
    (xrstorLate d k s).mode = s.mode := rfl
@[simp] theorem xrstorLate_segs (d : Draws) (k : Masks) (s : State) :
    (xrstorLate d k s).segs = s.segs := rfl
@[simp] theorem xrstorLate_csD (d : Draws) (k : Masks) (s : State) :
    (xrstorLate d k s).csD = s.csD := rfl
@[simp] theorem xrstorLate_csL (d : Draws) (k : Masks) (s : State) :
    (xrstorLate d k s).csL = s.csL := rfl
@[simp] theorem xrstorLate_mem (d : Draws) (k : Masks) (s : State) :
    (xrstorLate d k s).mem = s.mem := rfl
@[simp] theorem xrstorLate_cfg (d : Draws) (k : Masks) (s : State) :
    (xrstorLate d k s).cfg = s.cfg := rfl
@[simp] theorem xrstorLate_env (d : Draws) (k : Masks) (s : State) :
    (xrstorLate d k s).env = s.env := rfl
@[simp] theorem xrstorLate_text (d : Draws) (k : Masks) (s : State) :
    (xrstorLate d k s).text = s.text := rfl
@[simp] theorem xrstorLate_draws (d : Draws) (k : Masks) (s : State) :
    (xrstorLate d k s).draws = s.draws + 1 := rfl

/-! ### xsavesDone -/

@[simp] theorem xsavesDone_gprs (d : Draws) (w : Bool) (o : Operand) (s : State) :
    (xsavesDone d w o s).gprs = s.gprs := rfl
@[simp] theorem xsavesDone_rip (d : Draws) (w : Bool) (o : Operand) (s : State) :
    (xsavesDone d w o s).rip = s.rip + BitVec.ofNat 64 o.len := rfl
@[simp] theorem xsavesDone_eflags (d : Draws) (w : Bool) (o : Operand) (s : State) :
    (xsavesDone d w o s).eflags = s.eflags := rfl
@[simp] theorem xsavesDone_cr0 (d : Draws) (w : Bool) (o : Operand) (s : State) :
    (xsavesDone d w o s).cr0 = s.cr0 := rfl
@[simp] theorem xsavesDone_cr4 (d : Draws) (w : Bool) (o : Operand) (s : State) :
    (xsavesDone d w o s).cr4 = s.cr4 := rfl
@[simp] theorem xsavesDone_efer (d : Draws) (w : Bool) (o : Operand) (s : State) :
    (xsavesDone d w o s).efer = s.efer := rfl
@[simp] theorem xsavesDone_xcr0 (d : Draws) (w : Bool) (o : Operand) (s : State) :
    (xsavesDone d w o s).xcr0 = s.xcr0 := rfl
@[simp] theorem xsavesDone_xss (d : Draws) (w : Bool) (o : Operand) (s : State) :
    (xsavesDone d w o s).xss = s.xss := rfl
@[simp] theorem xsavesDone_x87 (d : Draws) (w : Bool) (o : Operand) (s : State) :
    (xsavesDone d w o s).x87 = s.x87 := rfl
@[simp] theorem xsavesDone_xmm (d : Draws) (w : Bool) (o : Operand) (s : State) :
    (xsavesDone d w o s).xmm = s.xmm := rfl
@[simp] theorem xsavesDone_mxcsr (d : Draws) (w : Bool) (o : Operand) (s : State) :
    (xsavesDone d w o s).mxcsr = s.mxcsr := rfl
@[simp] theorem xsavesDone_ymmHi (d : Draws) (w : Bool) (o : Operand) (s : State) :
    (xsavesDone d w o s).ymmHi = s.ymmHi := rfl
@[simp] theorem xsavesDone_xinuse (d : Draws) (w : Bool) (o : Operand) (s : State) :
    (xsavesDone d w o s).xinuse = s.xinuse := rfl
@[simp] theorem xsavesDone_xmodified (d : Draws) (w : Bool) (o : Operand) (s : State) :
    (xsavesDone d w o s).xmodified = s.xmodified := rfl
@[simp] theorem xsavesDone_xrstorInfo (d : Draws) (w : Bool) (o : Operand) (s : State) :
    (xsavesDone d w o s).xrstorInfo = s.xrstorInfo := rfl
@[simp] theorem xsavesDone_cpl (d : Draws) (w : Bool) (o : Operand) (s : State) :
    (xsavesDone d w o s).cpl = s.cpl := rfl
@[simp] theorem xsavesDone_vmxnr (d : Draws) (w : Bool) (o : Operand) (s : State) :
    (xsavesDone d w o s).vmxnr = s.vmxnr := rfl
@[simp] theorem xsavesDone_mode (d : Draws) (w : Bool) (o : Operand) (s : State) :
    (xsavesDone d w o s).mode = s.mode := rfl
@[simp] theorem xsavesDone_segs (d : Draws) (w : Bool) (o : Operand) (s : State) :
    (xsavesDone d w o s).segs = s.segs := rfl
@[simp] theorem xsavesDone_csD (d : Draws) (w : Bool) (o : Operand) (s : State) :
    (xsavesDone d w o s).csD = s.csD := rfl
@[simp] theorem xsavesDone_csL (d : Draws) (w : Bool) (o : Operand) (s : State) :
    (xsavesDone d w o s).csL = s.csL := rfl
@[simp] theorem xsavesDone_mem (d : Draws) (w : Bool) (o : Operand) (s : State) :
    (xsavesDone d w o s).mem = savedMemory d w s (areaOf s o) := rfl
@[simp] theorem xsavesDone_cfg (d : Draws) (w : Bool) (o : Operand) (s : State) :
    (xsavesDone d w o s).cfg = s.cfg := rfl
@[simp] theorem xsavesDone_env (d : Draws) (w : Bool) (o : Operand) (s : State) :
    (xsavesDone d w o s).env = s.env := rfl
@[simp] theorem xsavesDone_text (d : Draws) (w : Bool) (o : Operand) (s : State) :
    (xsavesDone d w o s).text = s.text := rfl
@[simp] theorem xsavesDone_draws (d : Draws) (w : Bool) (o : Operand) (s : State) :
    (xsavesDone d w o s).draws = s.draws + 1 := rfl

end Sys2Proof.Machine
end

