-- ==== Sys2Proof/Laws/Exec.lean ====
section
/-! SUPPORT. Laws/Exec.lean: what the checks and the four meanings can do, said once: when no check stops, and, of an instruction
that answers a next state, a fault or a refusal, which state it is. -/

namespace Sys2Proof.Machine

open Sys2Proof

/-! ### Checks -/

@[simp] theorem firstStop_nil : firstStop [] = none := rfl

@[simp] theorem firstStop_cons (c : Option Stop) (cs : List (Option Stop)) : firstStop (c :: cs) = c.or (firstStop cs) := rfl

theorem firstStop_eq_none {cs : List (Option Stop)} : firstStop cs = none ↔ ∀ c ∈ cs, c = none := by
  induction cs with
  | nil => simp
  | cons c cs ih => simp [Option.or_eq_none_iff, ih]

/-- A check that stops is one of the list. -/
theorem mem_of_firstStop {cs : List (Option Stop)} {st : Stop} (h : firstStop cs = some st) : some st ∈ cs := by
  induction cs with
  | nil => simp at h
  | cons c cs ih =>
    rw [firstStop_cons] at h
    cases c with
    | none => exact List.mem_cons_of_mem _ (ih (by simpa using h))
    | some x => simp at h; simp [h]

theorem pageFaultAt_eq_none {s : State} {ar : Area} {acc : Access} {o : Nat} :
    pageFaultAt s ar acc o = none ↔ (s.mode ≠ .real → translate s.env (ar.at o) acc s.cpl = none) := by
  unfold pageFaultAt
  by_cases h : s.mode = .real <;> simp [h]

theorem noWrap_of_usable {s : State} {ar : Area} {acc : Access} {offs : List Nat} (h : BytesUsable s ar acc offs) :
    NoWrap s ar offs := ⟨h.linear, h.effective⟩

theorem wrapStop_eq_none {s : State} {ar : Area} {offs : List Nat} (h : NoWrap s ar offs) : wrapStop s ar offs = none := by
  have h1 : linearWraps s ar offs = false := by
    simp only [linearWraps, List.any_eq_false, decide_eq_true_eq, not_le]
    exact h.linear
  have h2 : effectiveWraps s ar offs = false := by
    by_cases hm : s.mode = .real
    · simp [effectiveWraps, hm]
    · have : offs.any (fun o => decide (2 ^ ar.asz.bits ≤ ar.ea.toNat + o)) = false := by
        simp only [List.any_eq_false, decide_eq_true_eq, not_le]
        exact h.effective hm
      simp [effectiveWraps, this]
  simp [wrapStop, h1, h2]

theorem limitStop_eq_none {s : State} {ar : Area} {offs : List Nat} :
    limitStop s ar offs = none ↔ ∀ o ∈ offs, byteAddressOk s ar o = true := by
  unfold limitStop
  split <;> simp_all

/-- A byte of `MIN` outside the limit or not canonical (20_memory.md R62, R63). -/
theorem limitStop_eq_some {s : State} {ar : Area} {offs : List Nat} (h : ∃ o ∈ offs, byteAddressOk s ar o = false) :
    limitStop s ar offs = some (addressFault s.mode ar.seg) := by
  obtain ⟨o, ho, hb⟩ := h
  refine if_neg fun hall => ?_
  rw [List.all_eq_true.1 hall o ho] at hb
  exact absurd hb (by decide)

/-- The outcome of that check (60_exceptions.md R204, R209). -/
theorem addressFault_outcome (s : State) (ar : Area) (post : State) :
    (addressFault s.mode ar.seg).outcome post =
      .fault (.exception (if ar.seg = .ss ∧ s.mode ≠ .real then .ss else .gp) (if s.mode = .real then none else some 0) none
        post) := by
  unfold addressFault
  split
  · rename_i h
    simp only [Stop.outcome, raiseExc, h.2, if_false]
  · rfl

theorem pageStop_eq_none {s : State} {ar : Area} {acc : Access} {offs : List Nat} :
    pageStop s ar acc offs = none ↔ ∀ o ∈ offs, pageFaultAt s ar acc o = none := by
  simp [pageStop, List.findSome?_eq_none_iff]

theorem footprintStop_eq_none {s : State} {ar : Area} {acc : Access} {offs : List Nat} :
    footprintStop s ar acc offs = none ↔ ∀ o ∈ offs, byteAddressOk s ar o = true ∧ pageFaultAt s ar acc o = none := by
  unfold footprintStop
  split <;> simp_all

/-- A byte of `MAX` that cannot be reached (20_memory.md R80). -/
theorem footprintStop_eq_some {s : State} {ar : Area} {acc : Access} {offs : List Nat}
    (h : ∃ o ∈ offs, ¬ ByteReachable s ar acc o) : footprintStop s ar acc offs = some (.refuse .footprint) := by
  obtain ⟨o, ho, hn⟩ := h
  refine if_neg fun hall => hn ?_
  have := List.all_eq_true.1 hall o ho
  simp only [Bool.and_eq_true, Option.isNone_iff_eq_none] at this
  exact ⟨this.1, pageFaultAt_eq_none.1 this.2⟩

theorem alignStop_eq_none {d : Draws} {s : State} {ar : Area} (h : Aligned64 ar) : alignStop d s ar = none := by
  have : alignmentOf s ar = 0 := by
    unfold alignmentOf
    split
    · exact h.linear
    · exact h.effective
  simp [alignStop, h.linear, h.effective, this]

theorem memoryStop_eq_none {s : State} {ar : Area} {acc : Access} {offs : List Nat} (h : BytesUsable s ar acc offs) :
    memoryStop s ar acc offs = none := by
  have h1 : s.env.nonOrdinary.any (overlaps ar offs) = false := by
    simp only [List.any_eq_false, overlaps, Bool.not_eq_true, List.any_eq_false]
    exact h.ordinary
  have h2 : s.env.others.any (races ar acc offs) = false := by
    simp only [List.any_eq_false, races, Bool.and_eq_true, Bool.or_eq_true, beq_iff_eq, not_and, overlaps, Bool.not_eq_true,
      List.any_eq_false]
    exact h.unshared
  have h3 : (acc == .write && offs.any (fun o => s.text.has (ar.at o))) = false := by
    cases acc with
    | read => rfl
    | write =>
      have : offs.any (fun o => s.text.has (ar.at o)) = false := by
        simp only [List.any_eq_false, Bool.not_eq_true]
        exact h.notText rfl
      simp [this]
  simp [memoryStop, h1, h2, h3]

/-- A pass over usable bytes stops nowhere, `MIN` being part of `MAX`, the area aligned on the pass that judges it. -/
theorem addressChecks_eq_none {d : Draws} {s : State} {ar : Area} {acc : Access} {first : Bool} {min max : List Nat}
    (hu : BytesUsable s ar acc max) (hsub : ∀ o ∈ min, o ∈ max) (ha : first = true → Aligned64 ar) :
    addressChecks d s ar acc first min max = none := by
  have hp : ∀ o ∈ max, pageFaultAt s ar acc o = none := fun o ho =>
    pageFaultAt_eq_none.2 fun hm => hu.translated hm o ho
  unfold addressChecks
  rw [firstStop_eq_none]
  intro c hc
  simp only [List.mem_cons, List.not_mem_nil, or_false] at hc
  rcases hc with rfl | rfl | rfl | rfl | rfl | rfl
  · exact wrapStop_eq_none (noWrap_of_usable hu)
  · exact limitStop_eq_none.2 fun o ho => hu.address o (hsub o ho)
  · cases first with
    | true => exact alignStop_eq_none (ha rfl)
    | false => rfl
  · exact pageStop_eq_none.2 fun o ho => hp o (hsub o ho)
  · exact footprintStop_eq_none.2 fun o ho => ⟨hu.address o ho, hp o ho⟩
  · exact memoryStop_eq_none hu

/-- The bytes a pass has checked do not wrap. -/
theorem linear_of_addressChecks {d : Draws} {s : State} {ar : Area} {acc : Access} {first : Bool} {min max : List Nat}
    (h : addressChecks d s ar acc first min max = none) : ∀ o ∈ max, ar.at o < 2 ^ linBits s.mode := by
  have hw : wrapStop s ar max = none := firstStop_eq_none.1 h _ (by simp)
  intro o ho
  by_contra hc
  have : linearWraps s ar max = true := by
    simp only [linearWraps, List.any_eq_true, decide_eq_true_eq]
    exact ⟨o, ho, by omega⟩
  simp [wrapStop, this] at hw

/-- Launch premises. -/
theorem launchStop_eq_none {s : State} {len : Nat} :
    launchStop s len = none ↔ Cfg.valid s.cfg = true ∧ s.inScope = true ∧ ripWraps s len = false := by
  unfold launchStop
  cases Cfg.valid s.cfg <;> cases s.inScope <;> cases ripWraps s len <;> simp

/-! ### Which exceptions and refusals a check can answer -/

theorem launchStop_refuses {s : State} {len : Nat} {st : Stop} (h : launchStop s len = some st) :
    ∃ r, st = .refuse r := by
  unfold launchStop at h
  split at h
  · exact ⟨_, (Option.some.inj h).symm⟩
  · split at h
    · exact ⟨_, (Option.some.inj h).symm⟩
    · split at h
      · exact ⟨_, (Option.some.inj h).symm⟩
      · exact absurd h (by simp)

/-- What an address check can raise: #GP and #SS with the code 0 (none for #GP in real-address mode), #AC(0) on the first pass
with alignment checking enabled, #PF with an address and a code; of these only #GP in real-address mode. -/
theorem addressChecks_raises {d : Draws} {s : State} {ar : Area} {acc : Access} {first : Bool} {min max : List Nat} {x : Exc}
    {code : Option (BitVec 32)} {info : Option Word64}
    (h : addressChecks d s ar acc first min max = some (.raise x code info)) :
    (x = .gp ∧ code = errZero s.mode ∧ info = none) ∨
    (x = .ss ∧ code = some 0 ∧ info = none ∧ ar.seg = .ss ∧ s.mode ≠ .real) ∨
    (x = .ac ∧ code = some 0 ∧ info = none ∧ first = true ∧ s.acEnabled = true ∧ s.mode ≠ .real) ∨
    (x = .pf ∧ s.mode ≠ .real ∧ s.vmxnr = false ∧ ∃ o ∈ min, info = some (BitVec.ofNat 64 (ar.at o)) ∧
      ∃ c, code = some c ∧ translate s.env (ar.at o) acc s.cpl = some c) := by
  have hm := mem_of_firstStop h
  simp only [List.mem_cons, List.not_mem_nil, or_false] at hm
  rcases hm with hm | hm | hm | hm | hm | hm
  · unfold wrapStop at hm
    split at hm <;> simp at hm
  · unfold limitStop addressFault gpZero at hm
    split at hm
    · simp at hm
    · split at hm
      · rename_i hc
        simp only [Option.some.injEq, Stop.raise.injEq] at hm
        exact .inr (.inl ⟨hm.1, hm.2.1, hm.2.2, hc.1, hc.2⟩)
      · simp only [Option.some.injEq, Stop.raise.injEq] at hm
        exact .inl hm
  · cases first with
    | false => simp at hm
    | true =>
      simp only [if_true] at hm
      unfold alignStop at hm
      split at hm
      · simp at hm
      · split at hm
        · simp at hm
        · split at hm
          · rename_i hac
            simp only [acSignaled, Bool.and_eq_true, decide_eq_true_eq] at hac
            simp only [Option.some.injEq, Stop.raise.injEq] at hm
            exact .inr (.inr (.inl ⟨hm.1, hm.2.1, hm.2.2, rfl, hac.1.1, hac.1.2⟩))
          · simp only [gpZero, Option.some.injEq, Stop.raise.injEq] at hm
            exact .inl hm
  · obtain ⟨f, hf, he⟩ := Option.map_eq_some_iff.1 hm.symm
    obtain ⟨o, ho, hof⟩ := List.exists_of_findSome?_eq_some hf
    unfold pageFaultAt at hof
    split at hof
    · simp at hof
    · rename_i hreal
      obtain ⟨c, hc, hcf⟩ := Option.map_eq_some_iff.1 hof
      split at he
      · simp at he
      · rename_i hv
        simp only [Stop.raise.injEq] at he
        subst hcf
        exact .inr (.inr (.inr ⟨he.1.symm, hreal, by simpa using hv, o, ho, he.2.2.symm, c, he.2.1.symm, hc⟩))
  · unfold footprintStop at hm
    split at hm <;> simp at hm
  · unfold memoryStop at hm
    split at hm
    · simp at hm
    · split at hm
      · simp at hm
      · split at hm <;> simp at hm

/-! ### The four meanings -/

/-- The meaning of the reading forms. -/
theorem exec_restore {i : Instr} (h : i.saves = false) (s : State) :
    exec i s = xrstorStep (Draws.at s.draws) i.wide (operandOf i) s := by
  cases i <;> first | rfl | simp [Instr.saves] at h

/-- The meaning of the writing forms. -/
theorem exec_save {i : Instr} (h : i.saves = true) (s : State) :
    exec i s = xsavesStep (Draws.at s.draws) i.wide (operandOf i) s := by
  cases i <;> first | rfl | simp [Instr.saves] at h

/-- When XRSTOR answers a next state, and which. -/
theorem xrstorStep_next {d : Draws} {w : Bool} {o : Operand} {s t : State} :
    xrstorStep d w o s = .next t ↔
      xrstorEarly d s o = none ∧ xrstorLateStop d s o = none ∧
        t = xrstorDone d w (areaOf s o) (xrstorMasks s (areaOf s o)) o.len s := by
  unfold xrstorStep
  cases h1 : xrstorEarly d s o with
  | some st => cases st <;> simp [Stop.outcome, raiseExc]
  | none =>
    cases h2 : xrstorLateStop d s o with
    | some st => cases st <;> simp [Stop.outcome, raiseExc]
    | none => simp [eq_comm]

/-- When XRSTOR answers an exception, and the state it leaves. -/
theorem xrstorStep_fault {d : Draws} {w : Bool} {o : Operand} {s post : State} {x : Exc} {code : Option (BitVec 32)}
    {info : Option Word64} :
    xrstorStep d w o s = .fault (.exception x code info post) ↔
      (xrstorEarly d s o = some (.raise x code info) ∧ post = s) ∨
      (xrstorEarly d s o = none ∧ xrstorLateStop d s o = some (.raise x code info) ∧
        post = xrstorLate d (xrstorMasks s (areaOf s o)) s) := by
  unfold xrstorStep
  cases h1 : xrstorEarly d s o with
  | some st => cases st <;> simp [Stop.outcome, raiseExc, and_assoc, eq_comm]
  | none =>
    cases h2 : xrstorLateStop d s o with
    | some st => cases st <;> simp [Stop.outcome, raiseExc, and_assoc, eq_comm]
    | none => simp

/-- When XSAVES answers a next state, and which. -/
theorem xsavesStep_next {d : Draws} {w : Bool} {o : Operand} {s t : State} :
    xsavesStep d w o s = .next t ↔
      xsavesEarly s o = none ∧ xsavesAddressStop d s o = none ∧ t = xsavesDone d w o s := by
  unfold xsavesStep
  cases h1 : xsavesEarly s o with
  | some st => cases st <;> simp [Stop.outcome, raiseExc]
  | none =>
    cases h2 : xsavesAddressStop d s o with
    | some st => cases st <;> simp [Stop.outcome, raiseExc]
    | none => simp [eq_comm]

/-- When XSAVES answers an exception, and the state it leaves. -/
theorem xsavesStep_fault {d : Draws} {w : Bool} {o : Operand} {s post : State} {x : Exc} {code : Option (BitVec 32)}
    {info : Option Word64} :
    xsavesStep d w o s = .fault (.exception x code info post) ↔
      (xsavesEarly s o = some (.raise x code info) ∧ post = s) ∨
      (xsavesEarly s o = none ∧ xsavesAddressStop d s o = some (.raise x code info) ∧ post = xsavesLate d w o s) := by
  unfold xsavesStep
  cases h1 : xsavesEarly s o with
  | some st => cases st <;> simp [Stop.outcome, raiseExc, and_assoc, eq_comm]
  | none =>
    cases h2 : xsavesAddressStop d s o with
    | some st => cases st <;> simp [Stop.outcome, raiseExc, and_assoc, eq_comm]
    | none => simp

/-- What no early check of XRSTOR stopping says. -/
theorem xrstorEarly_eq_none {d : Draws} {s : State} {o : Operand} :
    xrstorEarly d s o = none ↔
      launchStop s o.len = none ∧ xrstorPreStop s o.pfx = none ∧
        addressChecks d s (areaOf s o) .read true (headerMin s.cfg) (headerMax s.cfg) = none ∧
        headerBad s (areaOf s o) (xrstorMasks s (areaOf s o)) = false := by
  unfold xrstorEarly
  simp only [firstStop_cons, firstStop_nil, Option.or_eq_none_iff, Option.or_none]
  cases headerBad s (areaOf s o) (xrstorMasks s (areaOf s o)) <;> simp

/-- What no late check of XRSTOR stopping says. -/
theorem xrstorLateStop_eq_none {d : Draws} {s : State} {o : Operand} :
    xrstorLateStop d s o = none ↔
      addressChecks d s (areaOf s o) .read false (loadMin s.cfg s.mode (xrstorMasks s (areaOf s o)))
          (loadMax s.cfg s.xcr0 (xrstorMasks s (areaOf s o))) = none ∧
        ((xrstorMasks s (areaOf s o)).loadsMxcsr = true →
          illegalMxcsr s.cfg (readMxcsr s.mem (areaOf s o).laxa.toNat) = false) := by
  unfold xrstorLateStop
  simp only [firstStop_cons, firstStop_nil, Option.or_eq_none_iff, Option.or_none]
  cases (xrstorMasks s (areaOf s o)).loadsMxcsr <;>
    cases illegalMxcsr s.cfg (readMxcsr s.mem (areaOf s o).laxa.toNat) <;> simp

theorem xsavesEarly_eq_none {s : State} {o : Operand} :
    xsavesEarly s o = none ↔ launchStop s o.len = none ∧ xsavesPreStop s o.pfx = none := by
  simp [xsavesEarly, Option.or_eq_none_iff]

/-- When the pre-checks of XRSTOR pass. -/
theorem xrstorPreStop_eq_none {s : State} {pfx : List Pfx} :
    xrstorPreStop s pfx = none ↔
      s.cfg.xsave = true ∧ s.osxsave = true ∧ pfx.any Pfx.forbidden = false ∧ s.ts = false := by
  unfold xrstorPreStop
  cases s.cfg.xsave <;> cases s.osxsave <;> cases pfx.any Pfx.forbidden <;> cases s.ts <;> simp

/-- When the pre-checks of XSAVES pass. -/
theorem xsavesPreStop_eq_none {s : State} {pfx : List Pfx} :
    xsavesPreStop s pfx = none ↔
      s.cfg.xsave = true ∧ s.cfg.xss = true ∧ s.osxsave = true ∧ pfx.any Pfx.forbidden = false ∧ s.ts = false ∧
        s.cpl = 0#2 ∧ s.vmxnr = false := by
  unfold xsavesPreStop
  cases s.cfg.xsave <;> cases s.cfg.xss <;> cases s.osxsave <;> cases pfx.any Pfx.forbidden <;> cases s.ts <;>
    by_cases h : s.cpl = 0#2 <;> cases s.vmxnr <;> simp [h]

/-! ### Footprints -/

/-- `Enabled` passes the launch premises and the pre-checks of XRSTOR. -/
theorem xrstorPre_of_enabled {s : State} {o : Operand} (e : Enabled s o) :
    launchStop s o.len = none ∧ xrstorPreStop s o.pfx = none :=
  ⟨launchStop_eq_none.2 ⟨e.cfg, e.scope, e.noWrap⟩, xrstorPreStop_eq_none.2 ⟨e.xsave, e.osxsave, e.pfx, e.ts⟩⟩

/-- XRSTOR where pass 1 of the address checks stops: nothing changes (R147). -/
theorem exec_restore_stop {i : Instr} {s : State} {st : Stop} (hi : i.saves = false) (e : Enabled s (operandOf i))
    (h : addressChecks (Draws.at s.draws) s (areaOf s (operandOf i)) .read true (headerMin s.cfg) (headerMax s.cfg) = some st) :
    exec i s = st.outcome s := by
  have hp := xrstorPre_of_enabled e
  rw [exec_restore hi]
  unfold xrstorStep xrstorEarly
  simp only [hp.1, hp.2, h, firstStop_cons, Option.none_or, Option.some_or]

/-- XRSTOR where a check after the header stops (R130 S7, S8; R147). -/
theorem exec_restore_lateStop {i : Instr} {s : State} {st : Stop} (hi : i.saves = false)
    (he : xrstorEarly (Draws.at s.draws) s (operandOf i) = none)
    (h : xrstorLateStop (Draws.at s.draws) s (operandOf i) = some st) :
    exec i s = st.outcome (xrstorLate (Draws.at s.draws) (xrstorMasks s (areaOf s (operandOf i))) s) := by
  rw [exec_restore hi]
  unfold xrstorStep
  simp only [he, h]

/-- XSAVES where the address checks stop (R182). -/
theorem exec_save_stop {i : Instr} {s : State} {st : Stop} (hi : i.saves = true) (e : Enabled s (operandOf i))
    (hx : s.cfg.xss = true) (hc : s.cpl = 0#2) (hv : s.vmxnr = false)
    (h : xsavesAddressStop (Draws.at s.draws) s (operandOf i) = some st) :
    exec i s = st.outcome (xsavesLate (Draws.at s.draws) i.wide (operandOf i) s) := by
  have hp : xsavesEarly s (operandOf i) = none := xsavesEarly_eq_none.2
    ⟨(xrstorPre_of_enabled e).1, xsavesPreStop_eq_none.2 ⟨e.xsave, hx, e.osxsave, e.pfx, e.ts, hc, hv⟩⟩
  rw [exec_save hi]
  unfold xsavesStep
  simp only [hp, h]

theorem mem_headerMax {cfg : Cfg} {o : Nat} : o ∈ headerMax cfg ↔ cfg.hdrOff ≤ o ∧ o < cfg.hdrOff + 64 := mem_span

theorem headerMin_subset {cfg : Cfg} : ∀ o ∈ headerMin cfg, o ∈ headerMax cfg := by
  intro o ho
  have := mem_span.1 ho
  exact mem_headerMax.2 ⟨this.1, by omega⟩

/-- Every byte XSAVES writes is in `MAX` (20_memory.md R80). -/
theorem saveMin_subset {d : Draws} {s : State} {ar : Area} (hv : Cfg.valid s.cfg = true) :
    ∀ o ∈ saveMin d s ar, o ∈ saveMax s := by
  obtain ⟨_, _, h512, hext, _⟩ := Cfg.valid_data hv
  have hn := nVec_le s.mode
  have hs := le_compSize hv
  intro o ho
  simp only [saveMin, List.mem_append] at ho
  simp only [saveMax, legacyAndHeader, List.mem_append, mem_span]
  rcases ho with ((((ho | ho) | ho) | ho) | ho) | ho
  · split at ho
    · have := mem_span.1 ho; left; omega
    · simp at ho
  · split at ho
    · have := mem_span.1 ho; left; omega
    · simp at ho
  · split at ho
    · have := mem_span.1 ho; left; omega
    · simp at ho
  · split at ho
    · have := mem_span.1 ho; left; omega
    · simp at ho
  · have := mem_span.1 ho; left; omega
  · split at ho
    · rename_i hst
      have := mem_span.1 ho
      right
      have hr : (saveRfbm s).getLsbD 2 = true := by
        simp only [stores, need, Bool.and_eq_true] at hst
        exact hst.1.1
      rw [if_pos hr, mem_span]
      omega
    · simp at ho

/-- Every byte XRSTOR loads is in `MAX` of the second pass, when the header is legal (20_memory.md R80). -/
theorem loadMin_subset {s : State} {ar : Area} (hv : Cfg.valid s.cfg = true)
    (hh : headerBad s ar (xrstorMasks s ar) = false) :
    ∀ o ∈ loadMin s.cfg s.mode (xrstorMasks s ar), o ∈ loadMax s.cfg s.xcr0 (xrstorMasks s ar) := by
  obtain ⟨_, _, h512, hext, _⟩ := Cfg.valid_data hv
  have hn := nVec_le s.mode
  have hs := le_compSize hv
  intro o ho
  simp only [loadMin, List.mem_append] at ho
  simp only [loadMax, legacyAndHeader, List.mem_append, mem_span]
  rcases ho with (((ho | ho) | ho) | ho) | ho
  · split at ho
    · have := mem_span.1 ho; left; omega
    · simp at ho
  · split at ho
    · have := mem_span.1 ho; left; omega
    · simp at ho
  · split at ho
    · have := mem_span.1 ho; left; omega
    · simp at ho
  · split at ho
    · have := mem_span.1 ho; left; omega
    · simp at ho
  · split at ho
    · rename_i hl
      have := mem_span.1 ho
      right
      have hx : extendedInMax s.xcr0 (xrstorMasks s ar) = true := by
        simp only [Masks.loads, Bool.and_eq_true] at hl
        unfold extendedInMax
        unfold headerBad at hh
        split
        · have h1 := hl.1
          simp only [xrstorMasks, BitVec.getLsbD_and, Bool.and_eq_true] at h1
          exact h1.1
        · rename_i hf
          simp only [hf, Bool.or_eq_false_iff, decide_eq_false_iff_not, not_not] at hh
          have he := congrArg (fun x : Word64 => x.getLsbD 2) hh.1.2
          simpa [hl.2] using he
      rw [if_pos hx, mem_span]
      omega
    · simp at ho

end Sys2Proof.Machine
end

