-- ==== Sys2Proof/Laws/Operands.lean ====
section
/-! SUPPORT. Laws/Operands.lean: what the parts of an operand's address come to as integers modulo `2^64` and `2^asz`
(30_encoding.md R109 to R112, R114), and which segment override counts (R105). -/

namespace Sys2Proof.Machine

open Sys2Proof

/-- The word `v` is the integer `z` modulo `2^64`. -/
def WordIs (v : Word64) (z : Int) : Prop := (v.toNat : Int) ≡ z [ZMOD 2 ^ 64]

theorem WordIs.of_toNat (v : Word64) : WordIs v v.toNat := Int.ModEq.refl _

theorem WordIs.add {a b : Word64} {x y : Int} (ha : WordIs a x) (hb : WordIs b y) : WordIs (a + b) (x + y) := by
  unfold WordIs
  rw [BitVec.toNat_add]
  push_cast
  exact (Int.mod_modEq _ _).trans (Int.ModEq.add ha hb)

theorem WordIs.shiftLeft {a : Word64} {x : Int} (ha : WordIs a x) (k : Nat) : WordIs (a <<< k) (x * 2 ^ k) := by
  unfold WordIs
  rw [BitVec.toNat_shiftLeft, Nat.shiftLeft_eq]
  push_cast
  exact (Int.mod_modEq _ _).trans (Int.ModEq.mul_right _ ha)

theorem WordIs.signExtend {w : Nat} (v : BitVec w) (h : w ≤ 64) : WordIs (v.signExtend 64) v.toInt := by
  unfold WordIs
  rw [← BitVec.toInt_signExtend_of_le h, BitVec.toInt_eq_toNat_cond]
  split
  · rfl
  · simp [Int.ModEq]

theorem WordIs.dispValue {w : Nat} (d : Disp w) (h : w ≤ 64) : WordIs (Disp.value d) d.signed := by
  cases d with
  | none => exact Int.ModEq.refl _
  | d8 v => exact .signExtend v (by omega)
  | full v => exact .signExtend v h

theorem regNum_toNat (e : Bool) (n : BitVec 3) : (regNum e n).toNat = 8 * e.toNat + n.toNat := by
  cases e <;> revert n <;> decide

theorem regNum_eq_iff {e : Bool} {k : BitVec 3} {r : BitVec 4} : regNum e k = r ↔ 8 * e.toNat + k.toNat = r.toNat := by
  rw [← BitVec.toNat_inj, regNum_toNat]

/-- The register a field and its REX bit name. -/
theorem reg_regNum {s : State} {e : Bool} {k : BitVec 3} {n : Fin 16} (h : n.val = 8 * e.toNat + k.toNat) :
    s.reg (regNum e k) = s.gprs.get n := by
  have : (regNum e k).toFin = n := Fin.ext (by rw [h, ← regNum_toNat]; rfl)
  rw [State.reg, this]

theorem WordIs.reg {s : State} {e : Bool} {k : BitVec 3} {n : Fin 16} (h : n.val = 8 * e.toNat + k.toNat) :
    WordIs (s.reg (regNum e k)) (s.gprs.get n).toNat := by
  rw [reg_regNum h]; exact .of_toNat _

theorem WordIs.indexValue {s : State} {r : Rex} {k : BitVec 3} {n : Fin 16} (sc : BitVec 2)
    (h : n.val = 8 * r.x.toNat + k.toNat) :
    WordIs (indexValue s r sc k) (if n = 4 then 0 else ((s.gprs.get n).toNat : Int) * 2 ^ sc.toNat) := by
  have he : regNum r.x k = 4#4 ↔ n = 4 := by rw [regNum_eq_iff, ← h, Fin.ext_iff]; rfl
  unfold Machine.indexValue
  by_cases hn : n = 4
  · rw [if_pos (he.2 hn), if_pos hn]; exact .of_toNat _
  · rw [if_neg (mt he.1 hn), if_neg hn, reg_regNum h]; exact .shiftLeft (.of_toNat _) _

theorem truncAddr_toNat (asz : AddrSize) (v : Word64) : (truncAddr asz v).toNat = v.toNat % 2 ^ asz.bits := by
  have := v.isLt
  cases asz <;> simp only [truncAddr, AddrSize.bits, BitVec.toNat_setWidth] <;> omega

/-- The effective address is its sum, as an integer, modulo `2^asz`. -/
theorem effectiveAddress_toNat {s : State} {o : Operand} {z : Int} (h : WordIs (addressSum s o) z) :
    ((effectiveAddress s o).toNat : Int) = z % 2 ^ (operandSize s o).bits := by
  rw [effectiveAddress, truncAddr_toNat]
  push_cast
  exact Int.ModEq.of_dvd (pow_dvd_pow 2 (by cases operandSize s o <;> decide)) h

theorem lastOverride_eq_none {mode : Mode} {l : List Pfx} (h : ∀ p ∈ l, overrideOf mode p = none) : lastOverride mode l = none := by
  induction l with
  | nil => rfl
  | cons p ps ih =>
    rw [lastOverride, ih fun q hq => h q (List.mem_cons_of_mem _ hq), h p (by simp)]; rfl

/-- The last byte that makes an override decides, whatever stands before it. -/
theorem lastOverride_append {mode : Mode} {n : SegName} {p : Pfx} {post : List Pfx} (hp : overrideOf mode p = some n)
    (h : ∀ q ∈ post, overrideOf mode q = none) : ∀ pre, lastOverride mode (pre ++ p :: post) = some n
  | [] => by rw [List.nil_append, lastOverride, lastOverride_eq_none h, hp]; rfl
  | q :: pre => by rw [List.cons_append, lastOverride, lastOverride_append hp h pre]; rfl

/-- A segment byte makes its override exactly where that has effect; no other byte makes one. -/
theorem overrideOf_seg {mode : Mode} {n : SegName} : OverrideCounts mode n → overrideOf mode (.seg n) = some n := by
  cases mode <;> cases n <;> simp [OverrideCounts, overrideOf]

theorem overrideOf_eq_none {mode : Mode} {p : Pfx} (h : ∀ n, p = .seg n → ¬ OverrideCounts mode n) : overrideOf mode p = none := by
  cases p with
  | seg n => have := h n rfl; revert this; cases mode <;> cases n <;> simp [OverrideCounts, overrideOf]
  | addrSize | lock | opSize | repF3 | repF2 => rfl

end Sys2Proof.Machine
end

