-- ==== Sys2Proof/Laws/PerInstr.lean ====
section
/-! SUPPORT. Laws/PerInstr.lean: statements made of every instruction of the opcode table, one lemma per constructor. -/

namespace Sys2Proof.Laws

open Sys2Proof

/-! ### OpcodeRow: the match and mask of spec/opcode_table.json -/

/-- The opcode bytes and the ModRM byte of an encoding, after the legacy bytes and the REX byte. -/
def opcodeAndModrm (i : Instr) : List Byte := ((encode i).drop (i.pfxs.length + i.rexBytes.length)).take 3

/-- The encoding has, after its legacy bytes and its REX byte, two opcode bytes and a ModRM byte that match the instruction's row of
the table (30_encoding.md R115), with mod not 3 (R116 (c)). -/
def OpcodeRow.Statement (i : Instr) : Prop :=
  ∃ o1 o2 m : Byte, opcodeAndModrm i = [o1, o2, m] ∧
    opcodeNumber o1 o2 m &&& 0xFFFF38#24 = (if i.saves then 0x0FC728#24 else 0x0FAE28#24) ∧ m.extractLsb' 6 2 ≠ 3#2

theorem opcodeAndModrm_eq (i : Instr) :
    opcodeAndModrm i = [0x0F, opByte i.saves, MemOp.mod i.mem ++ 5#3 ++ MemOp.rm i.mem] := by
  unfold opcodeAndModrm
  rw [encode_eq, encodeMem_eq, ← List.append_assoc, List.drop_left' (by simp)]
  rfl

theorem opcodeRow_of (i : Instr) : OpcodeRow.Statement i := by
  refine ⟨_, _, _, opcodeAndModrm_eq i, ?_, ?_⟩
  · have key : ∀ (a : BitVec 2) (c : BitVec 3),
        (opcodeNumber 0x0F 0xC7 (a ++ 5#3 ++ c) &&& 0xFFFF38#24 = 0x0FC728#24) ∧
          (opcodeNumber 0x0F 0xAE (a ++ 5#3 ++ c) &&& 0xFFFF38#24 = 0x0FAE28#24) := by decide
    cases h : i.saves
    · exact (key _ _).2
    · exact (key _ _).1
  · rw [extract_mod]
    exact MemOp.mod_ne i.mem

theorem OpcodeRow.xrstor (pfx : List Pfx) (rex : Option Rex) (mem : MemOp) : OpcodeRow.Statement (.xrstor pfx rex mem) :=
  opcodeRow_of _

theorem OpcodeRow.xrstor64 (pfx : List Pfx) (rex : Rex) (mem : MemOp) : OpcodeRow.Statement (.xrstor64 pfx rex mem) :=
  opcodeRow_of _

theorem OpcodeRow.xsaves (pfx : List Pfx) (rex : Option Rex) (mem : MemOp) : OpcodeRow.Statement (.xsaves pfx rex mem) :=
  opcodeRow_of _

theorem OpcodeRow.xsaves64 (pfx : List Pfx) (rex : Rex) (mem : MemOp) : OpcodeRow.Statement (.xsaves64 pfx rex mem) :=
  opcodeRow_of _

/-! ### EncodedLength -/

/-- The encoding is as long as the instruction says (30_encoding.md R101), and no shorter than opcode and ModRM. -/
def EncodedLength.Statement (i : Instr) : Prop := (encode i).length = i.length ∧ 3 ≤ i.length

theorem encodedLength_of (i : Instr) : EncodedLength.Statement i := by
  refine ⟨?_, by simp only [Instr.length, formLength]; omega⟩
  rw [encode_eq]
  simp only [List.length_append, List.length_map, List.length_cons, length_encodeMem, Instr.rexBytes, Instr.length, formLength]
  cases i.rex? <;> simp <;> omega

theorem EncodedLength.xrstor (pfx : List Pfx) (rex : Option Rex) (mem : MemOp) :
    EncodedLength.Statement (.xrstor pfx rex mem) :=
  encodedLength_of _

theorem EncodedLength.xrstor64 (pfx : List Pfx) (rex : Rex) (mem : MemOp) :
    EncodedLength.Statement (.xrstor64 pfx rex mem) :=
  encodedLength_of _

theorem EncodedLength.xsaves (pfx : List Pfx) (rex : Option Rex) (mem : MemOp) :
    EncodedLength.Statement (.xsaves pfx rex mem) :=
  encodedLength_of _

theorem EncodedLength.xsaves64 (pfx : List Pfx) (rex : Rex) (mem : MemOp) :
    EncodedLength.Statement (.xsaves64 pfx rex mem) :=
  encodedLength_of _

end Sys2Proof.Laws
end

