-- ==== Sys2Proof/Laws/Restore.lean ====
section
/-! SUPPORT. Laws/Restore.lean: what a completed XRSTOR or XRSTOR64 leaves, register by register and bit by bit. -/

namespace Sys2Proof.Machine

open Sys2Proof

/-- What a completed XRSTOR or XRSTOR64 says: the premises, a legal header, and the state (R130). -/
theorem exec_restore_next {i : Instr} {s t : State} (hi : i.saves = false) (h : exec i s = .next t) :
    (Cfg.valid s.cfg = true ∧ s.inScope = true ∧ ripWraps s i.length = false) ∧
    headerBad s (areaOf s (operandOf i)) (xrstorMasks s (areaOf s (operandOf i))) = false ∧
    t = xrstorDone (Draws.at s.draws) i.wide (areaOf s (operandOf i)) (xrstorMasks s (areaOf s (operandOf i))) i.length s := by
  rw [exec_restore hi, xrstorStep_next] at h
  obtain ⟨h1, h2, h3⟩ := h
  rw [xrstorEarly_eq_none] at h1
  exact ⟨launchStop_eq_none.1 h1.1, h1.2.2.2, h3⟩

theorem headerZero_iff {cfg : Cfg} {m : Memory} {la lo n : Nat} :
    headerZero cfg m la lo n = true ↔ ∀ o, lo ≤ o → o < lo + n → m.read (la + (cfg.hdrOff + o)) = 0 := by
  simp [headerZero, List.all_eq_true]

/-- A legal header of the standard form passes the header checks (R134). -/
theorem headerBad_of_standard {s : State} {ar : Area} (h : StandardHeader s ar) :
    headerBad s ar (xrstorMasks s ar) = false := by
  have hz : headerZero s.cfg s.mem ar.laxa.toNat 8 16 = true := headerZero_iff.2 fun o h1 h2 => h.reserved o h1 h2
  have hf : (xrstorMasks s ar).form = .standard := by simp only [Masks.form, h.form]; rfl
  simp only [headerBad, hf, hz, h.xstateBv]; rfl

/-- A legal header of the compacted form passes the header checks (R134). -/
theorem headerBad_of_compacted {s : State} {ar : Area} (h : CompactedHeader s ar) :
    headerBad s ar (xrstorMasks s ar) = false := by
  have hz : headerZero s.cfg s.mem ar.laxa.toNat 16 48 = true := headerZero_iff.2 fun o h1 h2 => h.reserved o h1 h2
  have hf : (xrstorMasks s ar).form = .compacted := by simp only [Masks.form, h.form]; rfl
  have hx : ((xrstorMasks s ar).compmask &&& ~~~s.xcr0).extractLsb' 0 63 = 0 := by
    apply BitVec.eq_of_getLsbD_eq
    intro j hj
    have := h.xcompBv j hj
    simp only [BitVec.getLsbD_extractLsb', hj, decide_true, Bool.true_and, Nat.zero_add, BitVec.getLsbD_and, BitVec.getLsbD_not]
    cases hc : (xrstorMasks s ar).compmask.getLsbD j
    · simp
    · simp [this hc]
  simp only [headerBad, hf, hz, h.xstateBv, hx, h.xsavec]; rfl

/-- On a usable area with a header that passes its checks, and a legal MXCSR image where one is loaded, XRSTOR and XRSTOR64
answer the state of R130. -/
theorem exec_of_restoreReady {i : Instr} {s : State} (hi : i.saves = false) (hr : RestoreReady s (operandOf i))
    (hh : headerBad s (areaOf s (operandOf i)) (xrstorMasks s (areaOf s (operandOf i))) = false)
    (hm : (xrstorMasks s (areaOf s (operandOf i))).loadsMxcsr = true →
      illegalMxcsr s.cfg (readMxcsr s.mem (areaOf s (operandOf i)).laxa.toNat) = false) :
    exec i s = .next
      (xrstorDone (Draws.at s.draws) i.wide (areaOf s (operandOf i)) (xrstorMasks s (areaOf s (operandOf i))) i.length s) := by
  rw [exec_restore hi, xrstorStep_next, xrstorEarly_eq_none, xrstorLateStop_eq_none]
  have hp := xrstorPre_of_enabled hr.enabled
  refine ⟨⟨hp.1, hp.2, ?_, hh⟩, ⟨?_, hm⟩, rfl⟩
  · exact addressChecks_eq_none hr.header headerMin_subset fun _ => hr.aligned
  · exact addressChecks_eq_none hr.load (loadMin_subset hr.enabled.cfg hh) (by simp)

theorem get_ofFn {α : Type} {n : Nat} (f : Fin n → α) (j : Fin n) : (Vector.ofFn f).get j = f j := by
  show (Vector.ofFn f)[j.val] = f j
  simp

/-- A register after a load of vector registers (R136, R137). -/
@[simp] theorem get_loadVecs {m : Memory} {la base n : Nat} {old : VecFile} (j : Fin 16) :
    (loadVecs m la base n old).get j =
      if j.val < n then BitVec.ofNat 128 (m.readLE (la + (base + 16 * j.val)) 16) else old.get j := by
  unfold loadVecs; rw [get_ofFn]; rfl

/-- A register after vector registers are cleared (R136, R137). -/
@[simp] theorem get_clearVecs {n : Nat} {old : VecFile} (j : Fin 16) :
    (clearVecs n old).get j = if j.val < n then 0 else old.get j := by
  unfold clearVecs; rw [get_ofFn]

/-- A field read into a register wide enough for it. -/
theorem toNat_readLE (m : Memory) (a n w : Nat) (h : 8 * n ≤ w) : (BitVec.ofNat w (m.readLE a n)).toNat = m.readLE a n := by
  rw [BitVec.toNat_ofNat]
  apply Nat.mod_eq_of_lt
  calc m.readLE a n < 256 ^ n := readLE_lt
    _ = 2 ^ (8*n) := by rw [Nat.pow_mul]
    _ ≤ 2 ^ w := Nat.pow_le_pow_right (by omega) h

/-- Clearing registers that are all zero changes nothing. -/
theorem clearVecs_zero {n : Nat} {v : VecFile} (h : v = zeroVecs) : clearVecs n v = zeroVecs := by
  subst h
  apply Vector.ext
  intro i hi
  have := get_clearVecs (n := n) (old := zeroVecs) ⟨i, hi⟩
  change (clearVecs n zeroVecs)[i] = _ at this
  rw [this]
  have hz : zeroVecs.get ⟨i, hi⟩ = 0 := by show zeroVecs[i] = 0; simp [zeroVecs]
  rw [hz, ite_self]; simp [zeroVecs]

/-- XINUSE after a completed XRSTOR, bit by bit (R146). -/
theorem getLsbD_xrstorDone_xinuse {d : Draws} {w : Bool} {ar : Area} {k : Masks} {len : Nat} {s : State} {j : Nat}
    (hv : Cfg.valid s.cfg = true) :
    (xrstorDone d w ar k len s).xinuse.getLsbD j =
      if j < 3 then inuseAfter d (withComponents d w ar k s) k j else s.xinuse.getLsbD j := by
  show (setComponents s.cfg.components s.xinuse _).getLsbD j = _
  rw [Cfg.valid_components hv, getLsbD_setComponents]

/-- XMODIFIED after a completed XRSTOR, bit by bit (R146). -/
theorem getLsbD_xrstorDone_xmodified {d : Draws} {w : Bool} {ar : Area} {k : Masks} {len : Nat} {s : State} {j : Nat}
    (hv : Cfg.valid s.cfg = true) :
    (xrstorDone d w ar k len s).xmodified.getLsbD j =
      if j < 3 then modifiedAfter d (withComponents d w ar k s) k j else s.xmodified.getLsbD j := by
  show (setComponents s.cfg.components s.xmodified _).getLsbD j = _
  rw [Cfg.valid_components hv, getLsbD_setComponents]

/-- Tracking is no part of what makes a component initial. -/
theorem isInitial_xrstorDone {d : Draws} {w : Bool} {ar : Area} {k : Masks} {len : Nat} {s : State} {j : Nat} :
    (xrstorDone d w ar k len s).isInitial j = (withComponents d w ar k s).isInitial j := by
  match j with
  | 0 => rfl
  | 1 => rfl
  | 2 => rfl
  | _ + 3 => rfl

end Sys2Proof.Machine
end

