-- ==== Sys2Proof/Laws/Save.lean ====
section
/-! SUPPORT. Laws/Save.lean: what a completed XSAVES or XSAVES64 leaves in memory, field by field. -/

namespace Sys2Proof.Machine

open Sys2Proof

variable {d : Draws} {w : Bool} {s : State} {ar : Area}

/-- What a completed XSAVES or XSAVES64 says: the premises, no byte of `MAX` wraps, and the state (R170). -/
theorem exec_save_next {i : Instr} {t : State} (hi : i.saves = true) (h : exec i s = .next t) :
  (Cfg.valid s.cfg = true ∧ s.inScope = true ∧ ripWraps s i.length = false) ∧
  (∀ o ∈ saveMax s, (areaOf s (operandOf i)).at o < 2 ^ linBits s.mode) ∧ 
  t = xsavesDone (Draws.at s.draws) i.wide (operandOf i) s := by
  rw [exec_save hi, xsavesStep_next] at h
  obtain ⟨h1, h2, h3⟩ := h
  rw [xsavesEarly_eq_none] at h1
  exact ⟨launchStop_eq_none.1 h1.1, linear_of_addressChecks h2, h3⟩

/-- On a usable area XSAVES and XSAVES64 answer the state of R170. -/
theorem exec_of_saveReady {i : Instr} (hi : i.saves = true) (hr : SaveReady s (operandOf i)) :
  exec i s = .next (xsavesDone (Draws.at s.draws) i.wide (operandOf i) s) := by
  rw [exec_save hi, xsavesStep_next, xsavesEarly_eq_none]
  have e := hr.enabled
  refine ⟨⟨launchStop_eq_none.2 ⟨e.cfg, e.scope, e.noWrap⟩, 
      xsavesPreStop_eq_none.2 ⟨e.xsave, hr.xss, e.osxsave, e.pfx, e.ts, hr.cpl, hr.vmxnr⟩⟩, ?_, rfl⟩
  exact addressChecks_eq_none hr.area (saveMin_subset e.cfg) fun _ => hr.aligned

/-- AVX state lies at `EXT_OFF` (R175). -/
theorem saveAvxBase_eq (h : Cfg.valid s.cfg = true) : saveAvxBase s = s.cfg.extOff := avxBaseCmp_eq h _

/-- Header bytes 15:0 (R178, R179). -/
theorem savedByte_header {k : Nat} (hv : Cfg.valid s.cfg = true) (hk : k < 16) :
    savedByte d w s (s.cfg.hdrOff + k) = headerByte s k := by
  obtain ⟨_, _, h512, hext, _⟩ := Cfg.valid_data hv
  unfold savedByte
  rw [saveAvxBase_eq hv, if_neg (by omega), if_pos (by omega)]
  congr 1; omega

/-- The AVX image (R175). -/
theorem savedByte_avx {k : Nat} (hv : Cfg.valid s.cfg = true) :
    savedByte d w s (s.cfg.extOff + k) = vecByte s.ymmHi s.cfg.extOff (s.cfg.extOff + k) := by
  unfold savedByte
  rw [saveAvxBase_eq hv, if_pos (by omega)]

/-- The SSE image (R175). -/
theorem savedByte_sse {o : Nat} (hv : Cfg.valid s.cfg = true) (ho : o < 512) (h : 160 ≤ o ∨ (24 ≤ o ∧ o < 32)) :
    savedByte d w s o = sseByte s o := by
  obtain ⟨_, _, h512, hext, _⟩ := Cfg.valid_data hv
  unfold savedByte
  rw [saveAvxBase_eq hv, if_neg (by omega), if_neg (by omega), if_pos h]

/-- The x87 image (R73). -/
theorem savedByte_x87 {o : Nat} (hv : Cfg.valid s.cfg = true) (h : o < 24 ∨ (32 ≤ o ∧ o < 160)) :
    savedByte d w s o = x87Byte d w s.x87 o := by
  obtain ⟨_, _, h512, hext, _⟩ := Cfg.valid_data hv
  unfold savedByte
  rw [saveAvxBase_eq hv, if_neg (by omega), if_neg (by omega), if_neg (by omega)]

/-- The bytes XSAVES writes, region by region (R175, R177). -/
theorem mem_saveMin {o : Nat} (hv : Cfg.valid s.cfg = true) :
    o ∈ saveMin d s ar ↔
      (stores d s ar 0 = true ∧ (o < 24 ∨ (32 ≤ o ∧ o < 160))) ∨
      (stores d s ar 1 = true ∧ ((24 ≤ o ∧ o < 32) ∨ (160 ≤ o ∧ o < 160 + 16 * nVec s.mode))) ∨
      (s.cfg.hdrOff ≤ o ∧ o < s.cfg.hdrOff + 16) ∨
      (stores d s ar 2 = true ∧ s.cfg.extOff ≤ o ∧ o < s.cfg.extOff + 16 * nVec s.mode) := by
  unfold saveMin
  rw [saveAvxBase_eq hv]
  cases stores d s ar 0 <;> cases stores d s ar 1 <;> cases stores d s ar 2 <;>
    simp [x87Low, x87High, sseControlBytes, xmmBytes, avxBytes] <;> omega

/-- A byte XSAVES writes. -/
theorem read_savedMemory_mem {o : Nat} (hm : s.mem.wf = true) (ho : o ∈ saveMin d s ar) :
  (savedMemory d w s ar).read (ar.laxa.toNat + o) = savedByte d w s o := read_fill_mem hm ho

/-- A byte of the area XSAVES does not write. -/
theorem read_savedMemory_not_mem {o : Nat} (hm : s.mem.wf = true) (ho : o ∉ saveMin d s ar) :
  (savedMemory d w s ar).read (ar.laxa.toNat + o) = s.mem.read (ar.laxa.toNat + o) := read_fill_not_mem hm ho

/-- A field all of whose bytes XSAVES writes. -/
theorem readLE_savedMemory {off n v : Nat} (hm : s.mem.wf = true)
    (ho : ∀ k, k < n → off + k ∈ saveMin d s ar ∧ savedByte d w s (off + k) = byteOf v k) (hv : v < 256 ^ n) :
    (savedMemory d w s ar).readLE (ar.laxa.toNat + off) n = v := by
  rw [readLE_of_bytes (v := v), Nat.mod_eq_of_lt hv]
  intro k hk
  rw [Nat.add_assoc, read_savedMemory_mem hm (ho k hk).1, (ho k hk).2]

/-- XSTATE_BV after XSAVES (R178). -/
theorem readXstateBv_savedMemory (hv : Cfg.valid s.cfg = true) (hm : s.mem.wf = true) :
    readXstateBv s.cfg (savedMemory d w s ar) ar.laxa.toNat = xstateBv s := by
  unfold readXstateBv areaField
  rw [readLE_savedMemory (v := (xstateBv s).toNat) hm]
  · simp
  · intro k hk
    refine ⟨(mem_saveMin hv).2 (by omega), ?_⟩
    rw [savedByte_header hv (by omega)]
    simp [headerByte, hk]
  · have := (xstateBv s).isLt; omega

/-- XCOMP_BV after XSAVES (R179). -/
theorem readXcompBv_savedMemory (hv : Cfg.valid s.cfg = true) (hm : s.mem.wf = true) :
    readXcompBv s.cfg (savedMemory d w s ar) ar.laxa.toNat = saveCompmask s := by
  unfold readXcompBv areaField
  rw [readLE_savedMemory (v := (saveCompmask s).toNat) hm]
  · simp
  · intro k hk
    refine ⟨(mem_saveMin hv).2 (by omega), ?_⟩
    rw [Nat.add_assoc, savedByte_header hv (by omega)]
    have : ¬ 8 + k < 8 := by omega
    simp [headerByte]
  · have := (saveCompmask s).isLt; omega

/-- The area XSAVES has written is a legal compacted-form area, where its reserved header bytes were zero (41_xsaves.md R184,
70_reset_and_hazards.md R247). -/
theorem compactedHeader_of_saved {t : State} (hv : Cfg.valid s.cfg = true) (hsc : s.inScope = true) (hx : s.cfg.xsavec = true)
    (hm : s.mem.wf = true) (hz : ∀ o, 16 ≤ o → o < 64 → s.mem.read (ar.at (s.cfg.hdrOff + o)) = 0)
    (hmem : t.mem = savedMemory d w s ar) (hcfg : t.cfg = s.cfg) (hxcr : t.xcr0 = s.xcr0) : CompactedHeader t ar := by
  have hb : (xrstorMasks t ar).rstormask = xstateBv s := by
    show readXstateBv t.cfg t.mem _ = _
    rw [hmem, hcfg, readXstateBv_savedMemory hv hm]
  have hc : (xrstorMasks t ar).compmask = saveCompmask s := by
    show readXcompBv t.cfg t.mem _ = _
    rw [hmem, hcfg, readXcompBv_savedMemory hv hm]
  obtain ⟨_, _, h512, hext, _⟩ := Cfg.valid_data hv
  refine ⟨?_, by rw [hcfg]; exact hx, ?_, ?_, ?_⟩
  · rw [hc, getLsbD_saveCompmask_63]
  · intro j hj h
    rw [hc, getLsbD_saveCompmask hj, saveRfbm_eq hsc, BitVec.getLsbD_and, Bool.and_eq_true] at h
    rw [hxcr]; exact h.1
  · rw [hb, hc]
    apply BitVec.eq_of_getLsbD_eq
    intro j hj
    simp only [BitVec.getLsbD_and, BitVec.getLsbD_not, getLsbD_xstateBv, hj, decide_true, Bool.true_and]
    by_cases h3 : j < 3
    · rw [getLsbD_saveCompmask (by omega)]
      unfold need
      cases (saveRfbm s).getLsbD j <;> simp
    · simp [h3]
  · intro o h1 h2
    rw [hmem, hcfg]
    refine (read_savedMemory_not_mem hm fun ho => ?_).trans (hz o h1 h2)
    rw [mem_saveMin hv] at ho
    have := nVec_le s.mode
    omega

/-- In scope RFBM has no bit above the three components. -/
theorem getLsbD_saveRfbm (h : s.inScope = true) {j : Nat} (hj : 3 ≤ j) : (saveRfbm s).getLsbD j = false := by
  rw [saveRfbm_eq h, BitVec.getLsbD_and, (inScope_data h).1 j hj]; rfl

/-- XSTATE_BV bit by bit, in scope (R178). -/
theorem getLsbD_xstateBv_scope (h : s.inScope = true) (j : Nat) :
    (xstateBv s).getLsbD j =
      ((saveRfbm s).getLsbD j && (s.xinuse.getLsbD j || (j == 1 && decide (s.mxcsr ≠ 0x1F80)))) := by
  rw [getLsbD_xstateBv]
  by_cases hj : j < 3
  · simp only [hj, need, mxcsrInitial, decide_true, Bool.true_and]; rfl
  · rw [getLsbD_saveRfbm h (by omega)]; simp [hj]

theorem fin16_ofNat (j : Fin 16) : Fin.ofNat 16 j.val = j := by
  ext; simp [Fin.ofNat, Nat.mod_eq_of_lt j.isLt]

theorem fin8_ofNat (j : Fin 8) : Fin.ofNat 8 j.val = j := by
  ext; simp [Fin.ofNat, Nat.mod_eq_of_lt j.isLt]

/-- A vector register all of whose bytes XSAVES writes. -/
theorem readLE_savedMemory_vec {base : Nat} (hm : s.mem.wf = true) (v : VecFile) (j : Fin 16)
    (ho : ∀ k, k < 16 → base + 16 * j.val + k ∈ saveMin d s ar ∧
      savedByte d w s (base + 16 * j.val + k) = vecByte v base (base + 16 * j.val + k)) :
    (savedMemory d w s ar).readLE (ar.laxa.toNat + (base + 16 * j.val)) 16 = (v.get j).toNat := by
  apply readLE_savedMemory hm
  · intro k hk
    refine ⟨(ho k hk).1, ?_⟩
    rw [(ho k hk).2, vecByte]
    have h1 : (base + 16 * j.val + k - base) / 16 = j.val := by omega
    have h2 : (base + 16 * j.val + k - base) % 16 = k := by omega
    rw [h1, h2, fin16_ofNat]
  · have := (v.get j).isLt; omega

/-- A needed component is stored where the modified optimization may not skip it (R176). -/
theorem stores_of_need {i : Nat} (h : need s i = true) (h2 : modOpt s ar = false ∨ s.xmodified.getLsbD i = true) :
    stores d s ar i = true := by
  unfold stores skip
  rcases h2 with h2 | h2 <;> simp only [h, h2] <;> simp

theorem nVec_le_sixteen (m : Mode) : nVec m ≤ 16 := by
  unfold nVec; split <;> omega

/-- The SSE image of a stored component (R175). -/
theorem readLE_savedMemory_sse (hv : Cfg.valid s.cfg = true) (hm : s.mem.wf = true) (hs : stores d s ar 1 = true) :
    (savedMemory d w s ar).readLE (ar.laxa.toNat + 24) 4 = s.mxcsr.toNat ∧
    (savedMemory d w s ar).readLE (ar.laxa.toNat + 28) 4 = s.cfg.mxcsrMask.toNat ∧
    ∀ j : Fin 16, j.val < nVec s.mode →
      (savedMemory d w s ar).readLE (ar.laxa.toNat + (160 + 16 * j.val)) 16 = (s.xmm.get j).toNat := by
  refine ⟨?_, ?_, ?_⟩
  · apply readLE_savedMemory hm
    · intro k hk
      refine ⟨(mem_saveMin hv).2 (by simp only [hs, true_and]; omega), ?_⟩
      rw [savedByte_sse hv (by omega) (by omega), sseByte, if_pos (by omega)]
      congr 1; omega
    · have := s.mxcsr.isLt; omega
  · apply readLE_savedMemory hm
    · intro k hk
      refine ⟨(mem_saveMin hv).2 (by simp only [hs, true_and]; omega), ?_⟩
      rw [savedByte_sse hv (by omega) (by omega), sseByte, if_neg (by omega), if_pos (by omega)]
      congr 1; omega
    · have := s.cfg.mxcsrMask.isLt; omega
  · intro j hj
    apply readLE_savedMemory_vec hm
    intro k hk
    have := nVec_le_sixteen s.mode
    refine ⟨(mem_saveMin hv).2 (by simp only [hs, true_and]; omega), ?_⟩
    rw [savedByte_sse hv (by omega) (by omega), sseByte, if_neg (by omega), if_neg (by omega)]

/-- The AVX image of a stored component (R175). -/
theorem readLE_savedMemory_avx (hv : Cfg.valid s.cfg = true) (hm : s.mem.wf = true) (hs : stores d s ar 2 = true) :
    ∀ j : Fin 16, j.val < nVec s.mode →
      (savedMemory d w s ar).readLE (ar.laxa.toNat + (s.cfg.extOff + 16 * j.val)) 16 = (s.ymmHi.get j).toNat := by
  intro j hj
  apply readLE_savedMemory_vec hm
  intro k hk
  refine ⟨(mem_saveMin hv).2 (by simp only [hs, true_and]; omega), ?_⟩
  rw [Nat.add_assoc, savedByte_avx hv]

/-- A field of the x87 image. -/
theorem readLE_savedMemory_x87 {off n v : Nat} (hv : Cfg.valid s.cfg = true) (hm : s.mem.wf = true)
    (hs : stores d s ar 0 = true) (hr : off + n ≤ 24 ∨ (32 ≤ off ∧ off + n ≤ 160))
    (hb : ∀ k, k < n → x87Byte d w s.x87 (off + k) = byteOf v k) (hlt : v < 256 ^ n) :
    (savedMemory d w s ar).readLE (ar.laxa.toNat + off) n = v := by
  apply readLE_savedMemory hm _ hlt
  intro k hk
  refine ⟨(mem_saveMin hv).2 (by simp only [hs, true_and]; omega), ?_⟩
  rw [savedByte_x87 hv (by omega), hb k hk]

/-- The low bytes of a number are those of the number cut to them. -/
theorem byteOf_mod (v m k : Nat) (hk : k < m) : byteOf (v % 256 ^ m) k = byteOf v k := by
  unfold byteOf
  apply BitVec.eq_of_toNat_eq
  simp only [BitVec.toNat_ofNat]
  have : (256:Nat) ^ m = 256 ^ k * 256 ^ (m - k) := by rw [← Nat.pow_add]; congr 1; omega
  rw [this, Nat.mod_mul_right_div_self, show (2:Nat)^8 = 256 from rfl, show m - k = (m-k-1)+1 by omega, Nat.pow_succ, Nat.mod_mul_left_mod]

/-- A fill depends on its bytes' values only. -/
theorem fill_congr {la : Nat} {f g : Nat → Byte} : ∀ {offs : List Nat} {m : Memory}, (∀ o ∈ offs, f o = g o) →
    m.fill la offs f = m.fill la offs g
  | [], _, _ => rfl
  | o :: os, m, h => by
    show Memory.fill (m.write (la+o) (f o)) la os f = Memory.fill (m.write (la+o) (g o)) la os g
    rw [h o (by simp)]
    exact fill_congr fun x hx => h x (by simp [hx])

end Sys2Proof.Machine
end

