-- ==== Sys2Proof/Tests/Slice0.lean ====
section
/-! SUPPORT. Tests/Slice0.lean: the checks of WellFormed on ill-formed terms, decoded words written out from 30_encoding.md and
95_test_vectors.md (E1 to E22), one step of each form against the vectors XR1 to XR35 and XS1 to XS25, and a witness for the
hypotheses of every statement. -/

namespace Sys2Proof.Tests

open Sys2Proof Sys2Proof.Machine

-- The kernel decides many small facts here: one at a time, not each in a thread with a stack of its own.
set_option Elab.async false

/-! ### WellFormed refuses ill-formed terms -/

def cx64 : DecodeCtx := ⟨.long64, false⟩
def cx32 : DecodeCtx := ⟨.prot, true⟩
def cx16 : DecodeCtx := ⟨.real, false⟩

/-- `XRSTOR [RDI]`, `XRSTOR64 [RDI]`, `XSAVES [RDI]` and `XSAVES64 [RDI]` (E1 to E4). -/
def restore : Instr := .xrstor [] none (.base 7 .none)
def restore64 : Instr := .xrstor64 [] ⟨false, false⟩ (.base 7 .none)
def save : Instr := .xsaves [] none (.base 7 .none)
def save64 : Instr := .xsaves64 [] ⟨false, false⟩ (.base 7 .none)

theorem test_wellFormed_accepts :
    WellFormed cx64 restore = true ∧ WellFormed cx64 restore64 = true ∧ WellFormed cx64 save = true ∧
      WellFormed cx64 save64 = true := by decide

/-- `formOk`: rm = 4 is no base, rm = 5 and SIB base 5 and 16-bit rm = 6 are none without a displacement. -/
theorem test_wellFormed_formOk :
    WellFormed cx64 (.xrstor [] none (.base 4 .none)) = false ∧ WellFormed cx64 (.xsaves [] none (.base 5 .none)) = false ∧
      WellFormed cx64 (.xrstor [] none (.sib 0 0 5 .none)) = false ∧
      WellFormed cx16 (.xsaves [] none (.base16 6 .none)) = false := by decide

/-- `sizeOk`: a 16-bit form at address size 64, a 32-bit form at address size 16. -/
theorem test_wellFormed_sizeOk :
    WellFormed cx64 (.xrstor [] none (.base16 7 .none)) = false ∧ WellFormed cx16 restore = false := by decide

/-- `rexOk`: a REX byte outside 64-bit mode. -/
theorem test_wellFormed_rexOk :
    WellFormed cx32 restore64 = false ∧ WellFormed cx32 (.xsaves [] (some ⟨false, true⟩) (.base 7 .none)) = false := by decide

/-- `lengthOk`: 15 bytes at most. -/
theorem test_wellFormed_lengthOk :
    WellFormed cx64 (.xrstor (List.replicate 12 .addrSize) none (.base 7 .none)) = true ∧
      WellFormed cx64 (.xrstor (List.replicate 13 .addrSize) none (.base 7 .none)) = false := by decide

/-! ### Decoding, from the encodings of 30_encoding.md, bit by bit -/

/-- `0F AE /5`: mod, reg, rm written out (E1, E5), a SIB byte and disp32 (E6). -/
theorem test_decode_xrstor :
    decode cx64 [0x0F, 0xAE, 0b00#2 ++ 0b101#3 ++ 0b111#3] = .ok restore [] ∧
      decode cx64 [0x0F, 0xAE, 0b01#2 ++ 0b101#3 ++ 0b011#3, 0x40] = .ok (.xrstor [] none (.base 3 (.d8 0x40))) [] ∧
      decode cx64 [0x0F, 0xAE, 0b10#2 ++ 0b101#3 ++ 0b100#3, 0b00#2 ++ 0b100#3 ++ 0b100#3, 0x00, 0x01, 0x00, 0x00] =
        .ok (.xrstor [] none (.sib 0 4 4 (.full 0x100))) [] := by decide

/-- `REX.W+ 0F AE /5` (E2). -/
theorem test_decode_xrstor64 :
    decode cx64 [0b0100#4 ++ 0b1000#4, 0x0F, 0xAE, 0b00#2 ++ 0b101#3 ++ 0b111#3] = .ok restore64 [] := by decide

/-- `0F C7 /5` (E3, E10, E16). -/
theorem test_decode_xsaves :
    decode cx64 [0x0F, 0xC7, 0b00#2 ++ 0b101#3 ++ 0b111#3] = .ok save [] ∧
      decode cx64 [0x0F, 0xC7, 0x2C, 0x25, 0x00, 0x30, 0x00, 0x00] = .ok (.xsaves [] none (.sibNoBase 0 4 0x3000)) [] ∧
      decode cx32 [0x0F, 0xC7, 0x2B] = .ok (.xsaves [] none (.base 3 .none)) [] := by decide

/-- `REX.W+ 0F C7 /5` (E4), with bytes after it. -/
theorem test_decode_xsaves64 :
    decode cx64 [0b0100#4 ++ 0b1000#4, 0x0F, 0xC7, 0b00#2 ++ 0b101#3 ++ 0b111#3, 0x90] = .ok save64 [0x90] := by decide

/-- The other forms: E7, E8, E11 to E15, and the forbidden bytes of E17, which decode. -/
theorem test_decode_forms :
    decode cx64 [0x41, 0x0F, 0xAE, 0x28] = .ok (.xrstor [] (some ⟨false, true⟩) (.base 0 .none)) [] ∧
      decode cx64 [0x0F, 0xAE, 0x2D, 0xF9, 0x0F, 0x00, 0x00] = .ok (.xrstor [] none (.dispRip 0xFF9)) [] ∧
      decode cx64 [0x42, 0x0F, 0xAE, 0x2C, 0x23] = .ok (.xrstor [] (some ⟨true, false⟩) (.sib 0 4 3 .none)) [] ∧
      decode cx64 [0x64, 0x0F, 0xAE, 0x2F] = .ok (.xrstor [.seg .fs] none (.base 7 .none)) [] ∧
      decode cx64 [0x67, 0x0F, 0xAE, 0x2F] = .ok (.xrstor [.addrSize] none (.base 7 .none)) [] ∧
      decode cx16 [0x0F, 0xAE, 0x2F] = .ok (.xrstor [] none (.base16 7 .none)) [] ∧
      decode cx64 [0x66, 0x48, 0x0F, 0xC7, 0x2F] = .ok (.xsaves64 [.opSize] ⟨false, false⟩ (.base 7 .none)) [] := by decide

/-- E18 to E22, and a text that ends inside an instruction. -/
theorem test_decode_rejects :
    decode cx64 [0x0F, 0xAE, 0xE8] = .rejected .notInScope ∧ decode cx64 [0x0F, 0xAE, 0x27] = .rejected .notInScope ∧
      decode cx64 [0x44, 0x0F, 0xAE, 0x2F] = .rejected .rexR ∧ decode cx32 [0x48, 0x0F, 0xAE, 0x2F] = .rejected .notInScope ∧
      decode cx64 (List.replicate 11 0x2E ++ [0x0F, 0xAE, 0xAC, 0x24, 0x00, 0x01, 0x00, 0x00]) = .rejected .tooLong ∧
      decode cx64 [0x0F, 0xAE] = .rejected .truncated := by decide

/-- The encoder writes the bytes of E1 to E4 and E6. -/
theorem test_encode :
    encode restore = [0x0F, 0xAE, 0x2F] ∧ encode restore64 = [0x48, 0x0F, 0xAE, 0x2F] ∧ encode save = [0x0F, 0xC7, 0x2F] ∧
      encode save64 = [0x48, 0x0F, 0xC7, 0x2F] ∧
      encode (.xrstor [] none (.sib 0 4 4 (.full 0x100))) = [0x0F, 0xAE, 0xAC, 0x24, 0x00, 0x01, 0x00, 0x00] := by decide

/-- The match values of spec/opcode_table.json, and the same with a REX byte 48H before them (log 4). -/
theorem test_decodeTableWord :
    decodeTableWord 24 0x0FAE28 = some (.xrstor [] none (.base 0 .none)) ∧
      decodeTableWord 24 0x0FC728 = some (.xsaves [] none (.base 0 .none)) ∧
      decodeTableWord 32 0x480FAE28 = some (.xrstor64 [] ⟨false, false⟩ (.base 0 .none)) ∧
      decodeTableWord 32 0x480FC728 = some (.xsaves64 [] ⟨false, false⟩ (.base 0 .none)) := by decide

/-! ### States to step from -/

def flat : Seg := ⟨0x10, 0, 0xFFFFFFFF, .upToLimit⟩

/-- The baseline of 95_test_vectors.md section 3: 64-bit mode, CPL 0, CR4.OSXSAVE = 1, XCR0 = 7, RIP = 400000H, RDI = 1000H,
EDX:EAX = `rax`, with this memory. -/
def base (rax : Word64) (mem : Memory) : State :=
  { State.reset with
    gprs := #v[rax, 0, 0, 0x5000, 0x6000, 0x7000, 0x2000, 0x1000, 0x8000, 0, 0, 0, 0x40, 0, 0, 0]
    rip := 0x400000, cr0 := 0x60000011, cr4 := 0x40000, efer := 0x500, xcr0 := 7, mode := .long64, csL := true
    segs := ⟨flat, flat, flat, flat, flat, flat⟩
    mxcsr := 0x1FA0, xinuse := 7, mem := mem, text := ⟨0x400000, [0x0F, 0xAE, 0x2F]⟩ }

/-- The same in 32-bit protected mode. -/
def base32 (rax : Word64) (mem : Memory) : State :=
  { base rax mem with mode := .prot, csD := true, csL := false, efer := 0 }

/-- The same in real-address mode, every selector 0; the area is at DS:BX = 5000H. -/
def base16 (rax : Word64) (mem : Memory) : State :=
  { base rax mem with
    mode := .real, csD := false, csL := false, efer := 0, cr0 := 0x60000010
    segs := ⟨Seg.resetData, Seg.resetData, Seg.resetData, Seg.resetData, Seg.resetData, Seg.resetData⟩ }

/-- An area at 1000H with this MXCSR byte 25, one byte of XMM0 and of YMM_Hi128[0], XSTATE_BV and the top byte of XCOMP_BV; a zero
byte is not listed. -/
def area (mxcsr xstate xcomp top : Byte) : Memory :=
  [(0x1019, mxcsr), (0x10A0, 0x11), (0x1200, xstate), (0x1208, xcomp), (0x120F, top), (0x1240, 0x21)].filter fun c => c.2 != 0

def isNext : Host.Outcome State Fault Refusal → Bool
  | .next _ => true
  | .fault _ | .refused _ => false

theorem exists_of_isNext {o : Host.Outcome State Fault Refusal} (h : isNext o = true) : ∃ t, o = .next t := by
  cases o with
  | next t => exact ⟨t, rfl⟩
  | fault f => simp [isNext] at h
  | refused r => simp [isNext] at h

/-- A step that ends in a next state with this property. -/
def nextWith (p : State → Bool) : Host.Outcome State Fault Refusal → Bool
  | .next t => p t
  | .fault _ | .refused _ => false

/-- A step that is refused for this reason. -/
def refuses (r : Refusal) : Host.Outcome State Fault Refusal → Bool
  | .refused q => decide (q = r)
  | .next _ | .fault _ => false

/-- A step that ends in this exception. -/
def raises (x : Exc) (code : Option (BitVec 32)) : Host.Outcome State Fault Refusal → Bool
  | .fault (.exception y c _ _) => decide (y = x) && decide (c = code)
  | .next _ | .refused _ => false

theorem exists_of_raises {x : Exc} {code : Option (BitVec 32)} {o : Host.Outcome State Fault Refusal}
    (h : raises x code o = true) : ∃ info post, o = .fault (.exception x code info post) := by
  cases o with
  | next t => simp [raises] at h
  | refused r => simp [raises] at h
  | fault f =>
    cases f with
    | exception y c info post =>
      simp only [raises, Bool.and_eq_true, decide_eq_true_eq] at h
      exact ⟨info, post, by rw [h.1, h.2]⟩

/-! ### Effective addresses (E5 to E16) -/

theorem test_effectiveAddress_forms :
    areaOf (base 7 []) (operandOf (.xrstor [] none (.base 3 (.d8 0x40)))) = ⟨.ds, 0x5040, .a64, 0x5040⟩ ∧
      areaOf (base 7 []) (operandOf (.xrstor [] none (.sib 0 4 4 (.full 0x100)))) = ⟨.ss, 0x6100, .a64, 0x6100⟩ ∧
      areaOf (base 7 []) (operandOf (.xrstor [] (some ⟨false, true⟩) (.base 0 .none))) = ⟨.ds, 0x8000, .a64, 0x8000⟩ ∧
      areaOf (base 7 []) (operandOf (.xrstor [] none (.dispRip 0xFF9))) = ⟨.ds, 0x401000, .a64, 0x401000⟩ ∧
      areaOf (base32 7 []) (operandOf (.xrstor [] none (.dispRip 0x2000))) = ⟨.ds, 0x2000, .a32, 0x2000⟩ ∧
      areaOf (base 7 []) (operandOf (.xsaves [] none (.sibNoBase 0 4 0x3000))) = ⟨.ds, 0x3000, .a64, 0x3000⟩ ∧
      areaOf (base 7 []) (operandOf (.xrstor [] (some ⟨true, false⟩) (.sib 0 4 3 .none))) = ⟨.ds, 0x5040, .a64, 0x5040⟩ ∧
      areaOf (base 7 []) (operandOf (.xrstor [] none (.base 5 (.d8 0)))) = ⟨.ss, 0x7000, .a64, 0x7000⟩ ∧
      areaOf (base16 7 []) (operandOf (.xrstor [] none (.base16 7 .none))) = ⟨.ds, 0x5000, .a16, 0x5000⟩ := by decide +kernel

/-- R60: in real-address mode the base is 16 times the selector (10H), whatever base the register holds. -/
theorem test_linear_real :
    areaOf { base16 7 [] with segs := ⟨flat, { flat with base := 0x777 }, flat, flat, flat, flat⟩ }
      (operandOf (.xrstor [] none (.base16 7 .none))) = ⟨.ds, 0x5000, .a16, 0x5100⟩ := by decide +kernel

/-! ### One step of each form -/

/-- XR4 with M = 3F00H: RFBM = 4, standard form: AVX state loaded, and MXCSR although RFBM[1] = 0; the rest keeps its values, XMODIFIED = 3. -/
theorem test_xrstor_standard :
    nextWith (fun t => decide (t.mxcsr = 0x3F00) && decide ((t.ymmHi.get 0).toNat = 0x21) && decide (t.xmm = zeroVecs) &&
        decide (t.xinuse = 7) && decide (t.xmodified = 3) && decide (t.xrstorInfo = some ⟨0, false, 0x1000, 0⟩) &&
        decide (t.rip = 0x400003))
      (step (base 4 (area 0x3F 4 0 0))) = true := by decide +kernel

/-- XR15: RFBM = 2, compacted form, XSTATE_BV = 0: XMM = 0 and MXCSR = 1F80H; XINUSE = XMODIFIED = 5. -/
theorem test_xrstor_compacted :
    nextWith (fun t => decide (t.xmm = zeroVecs) && decide (t.mxcsr = 0x1F80) && decide (t.xinuse = 5) &&
        decide (t.xmodified = 5) && decide (t.xrstorInfo = some ⟨0, false, 0x1000, 0x8000000000000007⟩))
      (step { base 2 (area 0 0 7 0x80) with xmm := zeroVecs.set 3 5 }) = true := by decide +kernel

/-- XR33: the pointers are 64-bit offsets with REX.W. -/
theorem test_xrstor64_pointers :
    nextWith (fun t => decide (t.x87.fip = 0x8877665544332211) && decide (t.x87.fdp = 0x00FFEEDDCCBBAA99) &&
        decide (t.rip = 0x400004))
      (exec restore64 (base 1 [(0x1008, 0x11), (0x1009, 0x22), (0x100A, 0x33), (0x100B, 0x44), (0x100C, 0x55), (0x100D, 0x66),
        (0x100E, 0x77), (0x100F, 0x88), (0x1010, 0x99), (0x1011, 0xAA), (0x1012, 0xBB), (0x1013, 0xCC), (0x1014, 0xDD),
        (0x1015, 0xEE), (0x1016, 0xFF), (0x1200, 1)])) = true := by decide +kernel

/-- XR11: the compacted form without XSAVEC raises #GP(0). -/
theorem test_xrstor64_xsavec :
    raises .gp (some 0) (exec restore64 { base 7 (area 0x1F 7 7 0x80) with cfg := { Cfg.standard with xsavec := false } }) = true :=
  by decide +kernel

/-- XS3: XINUSE = 0 and MXCSR = 1FA0H: SSE state stored, XSTATE_BV = 2, XCOMP_BV = 80000000_00000007H, nothing else written. -/
theorem test_xsaves_mxcsr :
    nextWith (fun t => decide (t.mem = [(0x1018, 0xA0), (0x1019, 0x1F), (0x101C, 0xFF), (0x101D, 0xFF), (0x1200, 2), (0x1208, 7),
        (0x120F, 0x80)]) && decide (t.rip = 0x400003))
      (exec save { base 7 [] with xinuse := 0 }) = true := by decide +kernel

/-- XS24: outside 64-bit mode XMM8 to XMM15 are not stored. -/
theorem test_xsaves_outside_long64 :
    nextWith (fun t => decide (t.mem.read 0x1110 = 7) && decide (t.mem.read 0x1120 = 0) &&
        decide (t.mem.readLE 0x1200 8 = 2) && decide (t.mem.readLE 0x1208 8 = 0x8000000000000002))
      (exec save { base32 2 [] with xmm := (zeroVecs.set 7 7).set 8 8 }) = true := by decide +kernel

/-- XS23: the pointers are stored as 64-bit offsets with REX.W; without it as 32-bit offsets and selectors. -/
theorem test_xsaves64_pointers (d : Draws) :
    (List.range' 8 8).map (x87Byte d true { X87.initial with fip := 0x8877665544332211 }) =
        [0x11, 0x22, 0x33, 0x44, 0x55, 0x66, 0x77, 0x88] ∧
      (List.range' 8 6).map (x87Byte d false { X87.initial with fip := 0x8877665544332211, fcs := 0xABCD }) =
        [0x11, 0x22, 0x33, 0x44, 0xCD, 0xAB] := ⟨rfl, rfl⟩

/-- XS5: RFBM = 4: AVX state stored at area byte 576, the legacy region not. -/
theorem test_xsaves64_avx :
    nextWith (fun t => decide (t.mem = [(0x1200, 4), (0x1208, 4), (0x120F, 0x80), (0x1240, 0x21)]) && decide (t.rip = 0x400004))
      (exec save64 { base 4 [] with ymmHi := zeroVecs.set 0 0x21 }) = true := by decide +kernel


/-! ### Witnesses: states and operands that meet the hypotheses of the statements, `witness_<Name>` for `Obligations.<Name>` -/

/-- A 15-byte instruction and a 3-byte one. -/
def longest : Instr := .xrstor (List.replicate 7 (.seg .ds)) none (.sib 0 4 4 (.full 0x100))

theorem witness_DecodeEncodeRoundTrip : WellFormed cx64 longest = true ∧ WellFormed cx16 (.xsaves [] none (.abs16 0)) = true := by
  decide

theorem witness_EncodeDecodeRoundTrip : decode cx64 (encode longest ++ [0x90]) = .ok longest [0x90] := by decide

theorem witness_DecodedLengthBounds :
    decode cx64 (encode longest) = .ok longest [] ∧ longest.length = 15 ∧ decode cx64 (encode save) = .ok save [] ∧
      save.length = 3 := by decide

/-- Both clauses; the second at 40H and 4FH. -/
theorem witness_RexFormsOnlyIn64BitMode :
    (decode cx64 [0x48, 0x0F, 0xAE, 0x2F] = .ok restore64 [] ∧ restore64.wide = true) ∧
      (cx32.mode ≠ .long64 ∧ (0x40#8).extractLsb' 4 4 = 4#4) ∧ (cx16.mode ≠ .long64 ∧ (0x4F#8).extractLsb' 4 4 = 4#4) := by
  decide

theorem witness_StepRunsDecodedInstruction :
    fetchBytes (base 7 []) = some [0x0F, 0xAE, 0x2F] ∧ decode (base 7 []).decodeCtx [0x0F, 0xAE, 0x2F] = .ok restore [] := by
  decide +kernel

theorem witness_StepRunsEncodedInstruction :
    WellFormed (base 7 []).decodeCtx restore = true ∧ (base 7 []).text.bytes = [] ++ encode restore ++ [] ∧
      (base 7 []).fetchAddress = (base 7 []).text.start + 0 := by decide +kernel

/-- A text of one XRSTOR that ends at FFFFFFFFH, CS base 10000H, and RIP just past it. -/
def atTop : State :=
  { base32 7 [] with
    segs := ⟨{ flat with base := 0x10000 }, flat, flat, flat, flat, flat⟩
    rip := 0xFFFF0000, text := ⟨0xFFFFFFFD, [0x0F, 0xAE, 0x2F]⟩ }

/-- Just past the end of the text, where it ends at the top of the linear address space too, and before the text. -/
theorem witness_StepOutsideTextRefuses :
    (({ base 7 [] with rip := 0x400003 }).text.has ({ base 7 [] with rip := 0x400003 }).fetchAddress = false ∧
        refuses .runEnded (step { base 7 [] with rip := 0x400003 }) = true) ∧
      (atTop.fetchAddress = 0 ∧ atTop.text.has atTop.fetchAddress = false ∧ refuses .runEnded (step atTop) = true) ∧
      ({ base 7 [] with rip := 0x3FFFFF }).text.has ({ base 7 [] with rip := 0x3FFFFF }).fetchAddress = false ∧
      refuses .outsideText (step { base 7 [] with rip := 0x3FFFFF }) = true := by
  decide +kernel

/-! #### States in which the forms complete -/

theorem enabled_base (rax : Word64) (mem : Memory) : Enabled (base rax mem) (operandOf restore) := by
  refine ⟨?_, ?_, ?_, rfl, ?_, rfl, ?_⟩
  · show Cfg.valid Cfg.standard = true
    decide
  · show (base 0 []).inScope = true
    decide
  · show ripWraps (base 0 []) 3 = false
    decide +kernel
  · show (base 0 []).osxsave = true
    decide
  · show (base 0 []).ts = false
    decide

/-- `Enabled` of a concrete state, decided field by field. -/
theorem enabled_of {s : State} {o : Operand}
    (h : Cfg.valid s.cfg = true ∧ s.inScope = true ∧ ripWraps s o.len = false ∧ s.cfg.xsave = true ∧ s.osxsave = true ∧
      o.pfx.any Pfx.forbidden = false ∧ s.ts = false) : Enabled s o :=
  ⟨h.1, h.2.1, h.2.2.1, h.2.2.2.1, h.2.2.2.2.1, h.2.2.2.2.2.1, h.2.2.2.2.2.2⟩

/-- The bytes XRSTOR might access end before area byte 832. -/
theorem lt_of_mem_loadMax {x : Word64} {k : Masks} {o : Nat} (h : o ∈ loadMax Cfg.standard x k) : o < 832 := by
  have hb : k.avxBase Cfg.standard = 576 := by
    unfold Masks.avxBase
    cases k.form
    · rfl
    · exact avxBaseCmp_eq (by decide) _
  rw [loadMax, hb, List.mem_append] at h
  rcases h with h | h
  · have := mem_span.1 h
    change 0 ≤ o ∧ o < 0 + (512 + 64) at this
    omega
  · split at h
    · have := mem_span.1 h
      change 576 ≤ o ∧ o < 576 + 256 at this
      omega
    · exact absurd h List.not_mem_nil

/-- The bytes XSAVES might access end before area byte 832. -/
theorem lt_of_mem_saveMax {s : State} (hc : s.cfg = Cfg.standard) {o : Nat} (h : o ∈ saveMax s) : o < 832 := by
  have hb : saveAvxBase s = 576 := by rw [saveAvxBase_eq (by rw [hc]; decide), hc]; rfl
  rw [saveMax, hb, hc, List.mem_append] at h
  rcases h with h | h
  · have := mem_span.1 h
    change 0 ≤ o ∧ o < 0 + (512 + 64) at this
    omega
  · split at h
    · have := mem_span.1 h
      change 576 ≤ o ∧ o < 576 + 256 at this
      omega
    · exact absurd h List.not_mem_nil

/-- 64-bit mode, the default configuration, an empty environment, the text at 400000H. -/
structure Plain (s : State) : Prop where
  mode : s.mode = .long64
  cfg  : s.cfg = Cfg.standard
  env  : s.env = ⟨[], [], []⟩
  text : s.text.start = 0x400000

/-- The area at DS:1000H. -/
def at1000 : Area := ⟨.ds, 0x1000, .a64, 0x1000⟩

theorem usable_at1000 {s : State} {acc : Access} {offs : List Nat} (h : Plain s) (ho : ∀ o ∈ offs, o < 832) :
    BytesUsable s at1000 acc offs := by
  have hat : ∀ o, at1000.at o = 0x1000 + o := fun _ => rfl
  refine ⟨fun o h1 => ?_, fun _ o h1 => ?_, fun o h1 => ?_, fun _ _ _ => by rw [h.env]; rfl, ?_, ?_, fun _ o h1 => ?_⟩
  · have := ho o h1
    rw [hat, h.mode]
    show 0x1000 + o < 2 ^ 64
    omega
  · have := ho o h1
    show 0x1000 + o < 2 ^ 64
    omega
  · have := ho o h1
    unfold byteAddressOk
    rw [h.mode, h.cfg]
    show canonical 48 (0x1000 + o) = true
    simp only [canonical, Bool.or_eq_true, decide_eq_true_eq]
    omega
  · intro r hr
    rw [h.env] at hr
    exact absurd hr List.not_mem_nil
  · intro r hr
    rw [h.env] at hr
    exact absurd hr List.not_mem_nil
  · have := ho o h1
    simp only [Text.has, h.text, hat, Bool.and_eq_false_iff, decide_eq_false_iff_not]
    omega

theorem aligned_at1000 : Aligned64 at1000 := ⟨rfl, rfl⟩

/-- XRSTOR of that area is ready, whatever its header. -/
theorem ready_at1000 {s : State} {o : Operand} (h : Plain s) (e : Enabled s o) (ha : areaOf s o = at1000) :
    RestoreReady s o := by
  refine ⟨e, ?_, ?_, ?_⟩ <;> rw [ha]
  · exact aligned_at1000
  · refine usable_at1000 h fun o ho => ?_
    rw [h.cfg] at ho
    have := mem_headerMax.1 ho
    change 512 ≤ o ∧ o < 512 + 64 at this
    omega
  · refine usable_at1000 h fun o ho => ?_
    rw [h.cfg] at ho
    exact lt_of_mem_loadMax ho

/-- XSAVES of that area is ready, whatever is saved. -/
theorem readySave_at1000 {s : State} {o : Operand} (h : Plain s) (e : Enabled s o) (ha : areaOf s o = at1000)
    (hc : s.cpl = 0#2) (hv : s.vmxnr = false) : SaveReady s o := by
  refine ⟨e, by rw [h.cfg]; rfl, hc, hv, ?_, ?_⟩ <;> rw [ha]
  · exact aligned_at1000
  · exact usable_at1000 h fun o ho => lt_of_mem_saveMax h.cfg ho

theorem plain_base (rax : Word64) (mem : Memory) : Plain (base rax mem) := ⟨rfl, rfl, rfl, rfl⟩

theorem ready (rax : Word64) (mem : Memory) : RestoreReady (base rax mem) (operandOf restore) :=
  ready_at1000 (plain_base rax mem) (enabled_base rax mem) rfl

/-- A standard-form area, all components in it; a compacted-form one with SSE state absent. -/
def std : State := base 7 (area 0x1F 7 0 0)
def cmp : State := base 7 (area 0x1F 5 7 0x80)

theorem ready_std : RestoreReady std (operandOf restore) := ready _ _
theorem ready_cmp : RestoreReady cmp (operandOf restore) := ready _ _

theorem header_std : StandardHeader std (areaOf std (operandOf restore)) := by constructor <;> decide +kernel
theorem header_cmp : CompactedHeader cmp (areaOf cmp (operandOf restore)) := by constructor <;> decide +kernel

theorem next_std : ∃ t, exec restore std = .next t :=
  ⟨_, exec_of_restoreReady rfl ready_std (headerBad_of_standard header_std) fun _ => by decide +kernel⟩

theorem next_cmp : ∃ t, exec restore cmp = .next t :=
  ⟨_, exec_of_restoreReady rfl ready_cmp (headerBad_of_compacted header_cmp) fun _ => by decide +kernel⟩

theorem ready_save (rax : Word64) (mem : Memory) : SaveReady (base rax mem) (operandOf save) :=
  readySave_at1000 (plain_base rax mem) (enabled_base rax mem) rfl rfl rfl

theorem next_save (rax : Word64) (mem : Memory) : ∃ t, exec save (base rax mem) = .next t :=
  ⟨_, exec_of_saveReady rfl (ready_save rax mem)⟩

theorem memoryOk_std : MemoryOk std := by constructor <;> decide +kernel

theorem inv_std : Inv std := by
  refine ⟨memoryOk_std, ⟨?_, ?_, ?_⟩, ?_⟩
  · intro h; exact absurd h (by decide)
  · intro h; exact absurd h (by decide)
  · intro h; exact absurd h (by decide)
  · constructor <;> decide

/-! #### XRSTOR and XRSTOR64 -/

theorem witness_XrstorStandardFormCompletes :
    restore.saves = false ∧ RestoreReady std (operandOf restore) ∧ StandardHeader std (areaOf std (operandOf restore)) ∧
      readMxcsr std.mem (areaOf std (operandOf restore)).laxa.toNat &&& std.cfg.mxcsrRsvd = 0 :=
  ⟨rfl, ready_std, header_std, by decide +kernel⟩

theorem witness_XrstorCompactedFormCompletes :
    restore.saves = false ∧ RestoreReady cmp (operandOf restore) ∧ CompactedHeader cmp (areaOf cmp (operandOf restore)) ∧
      readMxcsr cmp.mem (areaOf cmp (operandOf restore)).laxa.toNat &&& cmp.cfg.mxcsrRsvd = 0 :=
  ⟨rfl, ready_cmp, header_cmp, by decide +kernel⟩

/-- Component 0 is loaded, 1 initialised, 2 not requested. -/
theorem witness_XrstorTracking :
    restore.saves = false ∧ (∃ t, exec restore (base 3 (area 0x1F 1 0 0)) = .next t) ∧
      ((base 3 (area 0x1F 1 0 0)).xcr0 &&& (base 3 (area 0x1F 1 0 0)).instrMask) = 3 ∧
      readXstateBv Cfg.standard (area 0x1F 1 0 0) 0x1000 = 1 :=
  ⟨rfl, exists_of_isNext (by decide +kernel), by decide, by decide +kernel⟩

/-- Nothing requested, in each form; AVX state requested and SSE state not, in each form. -/
theorem witness_XrstorKeepsUnrequestedComponents :
    (∃ t, exec restore (base 0 (area 0x1F 7 0 0)) = .next t) ∧ (∃ t, exec restore (base 0 (area 0x1F 5 7 0x80)) = .next t) ∧
      (∃ t, exec restore (base 4 (area 0x1F 7 0 0)) = .next t) ∧ (∃ t, exec restore (base 4 (area 0x1F 5 7 0x80)) = .next t) :=
  ⟨exists_of_isNext (by decide +kernel), exists_of_isNext (by decide +kernel), exists_of_isNext (by decide +kernel),
    exists_of_isNext (by decide +kernel)⟩

/-- With every component requested; with none; outside 64-bit mode (register 8 is the first that keeps its value). -/
theorem witness_XrstorFrame :
    (∃ t, exec restore std = .next t) ∧ (∃ t, exec restore (base 0 (area 0x1F 7 0 0)) = .next t) ∧
      (∃ t, exec restore (base32 7 (area 0x1F 7 0 0)) = .next t) ∧ (base32 7 (area 0x1F 7 0 0)).mode ≠ .long64 :=
  ⟨next_std, exists_of_isNext (by decide +kernel), exists_of_isNext (by decide +kernel), by decide⟩

theorem witness_XrstorWithoutRequest :
    restore.saves = false ∧ (∃ t, exec restore (base 0 (area 0x1F 7 0 0)) = .next t) ∧
      (base 0 (area 0x1F 7 0 0)).xcr0 &&& (base 0 (area 0x1F 7 0 0)).instrMask = 0 :=
  ⟨rfl, exists_of_isNext (by decide +kernel), by decide⟩

/-- Each of the two cases; both forms complete there. -/
theorem witness_XrstorFormsAgreeWithoutX87Load :
    ((base 6 (area 0x1F 7 0 0)).xcr0 &&& (base 6 (area 0x1F 7 0 0)).instrMask).getLsbD 0 = false ∧
      (readXstateBv Cfg.standard (area 0x1F 6 0 0) (areaOf (base 7 (area 0x1F 6 0 0)) (operandOf restore64)).laxa.toNat).getLsbD 0 =
        false ∧
      isNext (exec restore64 (base 6 (area 0x1F 7 0 0))) = true ∧ isNext (exec restore64 (base 7 (area 0x1F 6 0 0))) = true := by
  decide +kernel

/-! #### XSAVES and XSAVES64 -/

theorem witness_XsavesCompletes :
    save.saves = true ∧ SaveReady std (operandOf save) ∧ MemoryOk std := ⟨rfl, ready_save _ _, memoryOk_std⟩

theorem witness_XsavesWritesHeader : save.saves = true ∧ MemoryOk std ∧ ∃ t, exec save std = .next t :=
  ⟨rfl, memoryOk_std, next_save _ _⟩

/-- SSE and AVX state needed, without the modified optimization, and with it but modified. -/
theorem witness_XsavesStoresVectorState :
    (∃ t, exec save std = .next t) ∧ need std 1 = true ∧ need std 2 = true ∧ modOpt std (areaOf std (operandOf save)) = false ∧
      need { std with xrstorInfo := some ⟨0, false, 0x1000, 0x8000000000000007⟩ } 1 = true ∧
      modOpt { std with xrstorInfo := some ⟨0, false, 0x1000, 0x8000000000000007⟩ } (areaOf std (operandOf save)) = true ∧
      std.xmodified.getLsbD 1 = true ∧ std.xmodified.getLsbD 2 = true :=
  ⟨next_save _ _, by decide +kernel⟩

theorem witness_XsavesStoresX87State :
    (∃ t, exec save std = .next t) ∧ MemoryOk std ∧ need std 0 = true ∧ modOpt std (areaOf std (operandOf save)) = false ∧
      std.xmodified.getLsbD 0 = true :=
  ⟨next_save _ _, memoryOk_std, by decide +kernel⟩

theorem witness_XsavesFrame : save.saves = true ∧ MemoryOk std ∧ ∃ t, exec save std = .next t :=
  ⟨rfl, memoryOk_std, next_save _ _⟩

/-- Nothing requested, so nothing stored; outside 64-bit mode. -/
theorem witness_XsavesNeverWrites :
    (∃ t, exec save (base 0 []) = .next t) ∧ stores (Draws.at 0) (base 0 []) (areaOf (base 0 []) (operandOf save)) 0 = false ∧
      stores (Draws.at 0) (base 0 []) (areaOf (base 0 []) (operandOf save)) 1 = false ∧
      stores (Draws.at 0) (base 0 []) (areaOf (base 0 []) (operandOf save)) 2 = false ∧
      (∃ t, exec save (base32 2 []) = .next t) ∧ (base32 2 []).mode ≠ .long64 :=
  ⟨next_save _ _, by decide +kernel, by decide +kernel, by decide +kernel, exists_of_isNext (by decide +kernel), by decide⟩

theorem witness_XsavesWithoutRequest :
    (∃ t, exec save (base 0 []) = .next t) ∧ ((base 0 []).xcr0 ||| (base 0 []).xss) &&& (base 0 []).instrMask = 0 :=
  ⟨next_save _ _, by decide⟩

/-- Each component needed; with the modified optimization not allowed, and allowed for each. -/
theorem witness_XsavesSkipsWholeComponentOrNothing :
    (∃ t, exec save std = .next t) ∧ MemoryOk std ∧ (need std 0 = true ∧ need std 1 = true ∧ need std 2 = true) ∧
      modOpt std (areaOf std (operandOf save)) = false ∧
      (let s := { std with xrstorInfo := some ⟨0, false, 0x1000, 0x8000000000000007⟩, xmodified := 0 }
       (∃ t, exec save s = .next t) ∧ modOpt s (areaOf s (operandOf save)) = true ∧ need s 0 = true ∧ need s 1 = true ∧
         need s 2 = true) :=
  ⟨next_save _ _, memoryOk_std, by decide +kernel, by decide +kernel,
    ⟨_, exec_of_saveReady rfl (readySave_at1000 ⟨rfl, rfl, rfl, rfl⟩ (enabled_of (by decide +kernel)) rfl rfl rfl)⟩,
    by decide +kernel⟩

theorem witness_XsavesFormsAgreeWithoutX87Store :
    stores (Draws.at 0) (base 6 []) (areaOf (base 6 []) (operandOf save64)) 0 = false ∧
      isNext (exec save64 (base 6 [])) = true := by decide +kernel

/-- After a compacted-form XRSTOR of this area MODOPT = 1; with another CPL, VMXNR, LAXA (`[RBX]`), RFBM or XRSTOR_INFO it is 0. -/
def modOptOnlyAsRestored (t : State) : Bool :=
  modOpt t (areaOf t (operandOf save)) && !modOpt { t with cpl := 3#2 } (areaOf t (operandOf save))
    && !modOpt { t with vmxnr := true } (areaOf t (operandOf save))
    && !modOpt t (areaOf t (operandOf (.xsaves [] none (.base 3 .none))))
    && !modOpt { t with gprs := t.gprs.set 0 6 } (areaOf t (operandOf save))
    && !modOpt { t with xrstorInfo := none } (areaOf t (operandOf save))

/-- Both forms. -/
theorem witness_StandardRestoreDisablesModifiedOptimization :
    (restore.saves = false ∧ (∃ t, exec restore std = .next t) ∧ (readXcompBv std.cfg std.mem 0x1000).getLsbD 63 = false) ∧
      (∃ t, exec restore cmp = .next t) ∧ nextWith modOptOnlyAsRestored (exec restore cmp) = true :=
  ⟨⟨rfl, next_std, header_std.form⟩, next_cmp, by decide +kernel⟩

/-! #### Exceptions -/

/-- Each of the four conditions, and none of them. -/
theorem witness_InvalidOpcodeRaisedExactly :
    (Cfg.valid std.cfg = true ∧ std.inScope = true ∧ ripWraps std restore.length = false) ∧
      raises .ud none (exec restore { std with cfg := { Cfg.standard with xsave := false } }) = true ∧
      raises .ud none (exec restore { std with cr4 := 0 }) = true ∧
      raises .ud none (exec (.xrstor [.lock] none (.base 7 .none)) std) = true ∧
      raises .ud none (exec save { std with cfg := { Cfg.standard with xss := false } }) = true ∧
      isNext (exec restore { std with cfg := { Cfg.standard with xss := false } }) = true := by decide +kernel

/-- With CR0.TS = 1 (XR23, XS15) and with CR0.TS = 0. -/
theorem witness_DeviceNotAvailableRaisedExactly :
    (Cfg.valid std.cfg = true ∧ std.inScope = true ∧ ripWraps std save.length = false ∧ std.cfg.xsave = true ∧
        std.osxsave = true ∧ save.pfxs.any Pfx.forbidden = false ∧ std.cfg.xss = true) ∧
      raises .nm none (exec restore { std with cr0 := 0x60000019 }) = true ∧
      raises .nm none (exec save { std with cr0 := 0x60000019, cpl := 3 }) = true ∧ isNext (exec restore std) = true := by
  decide +kernel

theorem witness_XsavesPrivilegeFault :
    save.saves = true ∧ Enabled { std with cpl := 3 } (operandOf save) ∧ std.cfg.xss = true ∧
      ({ std with cpl := 3 } : State).cpl ≠ 0#2 := ⟨rfl, enabled_of (by decide +kernel), rfl, by decide⟩

theorem witness_XsavesRefusedInVmxNonRoot :
    save.saves = true ∧ Enabled { std with vmxnr := true } (operandOf save) ∧ std.cfg.xss = true ∧ std.cpl = 0#2 :=
  ⟨rfl, enabled_of (by decide +kernel), rfl, rfl⟩

/-- The area at `la` in place of 1000H. -/
def at_ (la : Word64) (s : State) : State := { s with gprs := s.gprs.set 7 la }

/-- `XRSTOR [RBP]` with RBP not canonical (XR27), in SS; `XRSTOR [RDI]` (XR26), in DS: the hypotheses, and the two exceptions. -/
theorem witness_XrstorAddressFault :
    let s := at_ 0x800000000000 std
    let ar := areaOf s (operandOf restore)
    Enabled s (operandOf restore) ∧ (∀ o ∈ headerMax s.cfg, ar.at o < 2 ^ linBits s.mode) ∧
      (s.mode ≠ .real → ∀ o ∈ headerMax s.cfg, ar.ea.toNat + o < 2 ^ ar.asz.bits) ∧
      (∃ o ∈ headerMin s.cfg, byteAddressOk s ar o = false) ∧ raises .gp (some 0) (exec restore s) = true ∧
      raises .ss (some 0) (exec (.xrstor [.seg .ss] none (.base 7 .none)) { at_ 0xFFF0 (base32 7 []) with
        segs := ⟨flat, flat, flat, flat, flat, Seg.resetData⟩ }) = true ∧
      raises .gp none (exec (.xrstor [] none (.base16 7 .none)) { base16 7 [] with gprs := (base16 7 []).gprs.set 3 0xFE00 }) =
        true :=
  ⟨enabled_of (by decide +kernel), by decide +kernel, by decide +kernel, by decide +kernel, by decide +kernel,
    by decide +kernel, by decide +kernel⟩

/-- Protected mode, SS the operand's segment, with an area at 1000H whose last byte is outside the limit. -/
def shortSs : State :=
  { base32 7 (area 0x1F 7 0 0) with segs := ⟨flat, flat, flat, flat, flat, { flat with limit := 0x12BE }⟩ }

def restoreSs : Instr := .xrstor [.seg .ss] none (.base 7 .none)
def saveSs : Instr := .xsaves [.seg .ss] none (.base 7 .none)

/-- 64-bit mode, the AVX image the first bytes that are not canonical. -/
def topCanonical : State := at_ 0x7FFFFFFFFDC0 (base 4 [(0x7FFFFFFFFFC0, 4)])

/-- Real-address mode, the AVX image above FFFFH. -/
def topReal : State := { base16 4 [(0xFFC0, 4)] with gprs := (base16 4 []).gprs.set 3 0xFDC0 }

/-- XR26, XR27 for the second pass: the hypotheses, and the exceptions for SS, for another segment and in real-address mode. -/
theorem witness_XrstorComponentAddressFault :
    let s := shortSs
    let ar := areaOf s (operandOf restoreSs)
    let k := xrstorMasks s ar
    (Enabled s (operandOf restoreSs) ∧ Aligned64 ar ∧ BytesUsable s ar .read (headerMax s.cfg) ∧ StandardHeader s ar ∧
        NoWrap s ar (loadMax s.cfg s.xcr0 k) ∧ ∃ o ∈ loadMin s.cfg s.mode k, byteAddressOk s ar o = false) ∧
      raises .ss (some 0) (exec restoreSs s) = true ∧ raises .gp (some 0) (exec restore topCanonical) = true ∧
      raises .gp none (exec (.xrstor [] none (.base16 7 .none)) topReal) = true :=
  ⟨⟨enabled_of (by decide +kernel), ⟨by decide, by decide⟩, ⟨by decide +kernel, by decide +kernel, by decide +kernel,
    by decide +kernel, by decide +kernel, by decide +kernel, by decide +kernel⟩, ⟨by decide +kernel, by decide +kernel,
    by decide +kernel⟩, ⟨by decide +kernel, by decide +kernel⟩, 703, by decide +kernel, by decide +kernel⟩, by decide +kernel,
    by decide +kernel, by decide +kernel⟩

/-- The same for the bytes XSAVES writes. -/
theorem witness_XsavesAddressFault :
    let s := shortSs
    let ar := areaOf s (operandOf saveSs)
    (Enabled s (operandOf saveSs) ∧ s.cfg.xss = true ∧ s.cpl = 0#2 ∧ s.vmxnr = false ∧ NoWrap s ar (saveMax s) ∧
        ∃ o ∈ saveMin (Draws.at s.draws) s ar, byteAddressOk s ar o = false) ∧
      raises .gp (some 0) (exec save topCanonical) = true ∧
      raises .gp none (exec (.xsaves [] none (.base16 7 .none)) topReal) = true :=
  ⟨⟨enabled_of (by decide +kernel), rfl, rfl, rfl, ⟨by decide +kernel, by decide +kernel⟩, 703, by decide +kernel,
    by decide +kernel⟩, by decide +kernel, by decide +kernel⟩

/-- At 1008H: XRSTOR and XSAVES in 64-bit mode (XR21, XS18), and real-address mode. -/
theorem witness_MisalignedAreaFaults :
    let s := at_ 0x1008 std
    let ar := areaOf s (operandOf save)
    Enabled s (operandOf save) ∧ (s.cfg.xss = true ∧ s.cpl = 0#2 ∧ s.vmxnr = false) ∧
      (∀ o ∈ saveMax s, ar.at o < 2 ^ linBits s.mode ∧ byteAddressOk s ar o = true) ∧
      (s.mode ≠ .real → ∀ o ∈ saveMax s, ar.ea.toNat + o < 2 ^ ar.asz.bits) ∧ ar.laxa.toNat % 64 ≠ 0 ∧ ar.ea.toNat % 64 ≠ 0 ∧
      s.acEnabled = false ∧ raises .gp (some 0) (exec restore s) = true ∧
      raises .gp none (exec (.xrstor [] none (.base16 7 .none)) { base16 7 [] with gprs := (base16 7 []).gprs.set 3 0x5008 }) =
        true :=
  ⟨enabled_of (by decide +kernel), ⟨rfl, rfl, rfl⟩, by decide +kernel, by decide +kernel, by decide +kernel, by decide +kernel,
    by decide +kernel, by decide +kernel, by decide +kernel⟩

/-- XR22: CPL 3, alignment checking enabled, a misalignment of 8; the table says #AC, the table says #GP, no table. -/
def acState (table : Option (BitVec 64)) : State :=
  { at_ 0x1008 std with cpl := 3, cr0 := 0x60040011, eflags := 0x40002, cfg := { Cfg.standard with acOnMisalign := table } }

theorem witness_AlignmentCheckInPlaceOfGeneralProtection :
    let s := acState none
    let ar := areaOf s (operandOf restore)
    Enabled s (operandOf restore) ∧ (∀ o ∈ headerMax s.cfg, ar.at o < 2 ^ linBits s.mode ∧ byteAddressOk s ar o = true) ∧
      (∀ o ∈ headerMax s.cfg, ar.ea.toNat + o < 2 ^ ar.asz.bits) ∧ ar.laxa.toNat % 64 ≠ 0 ∧ ar.ea.toNat % 64 ≠ 0 ∧
      s.acEnabled = true ∧ s.mode ≠ .real ∧ raises .ac (some 0) (exec restore (acState (some 0x100))) = true ∧
      raises .gp (some 0) (exec restore (acState (some 0x4))) = true :=
  ⟨enabled_of (by decide +kernel), by decide +kernel, by decide +kernel, by decide +kernel, by decide +kernel,
    by decide +kernel, by decide +kernel, by decide +kernel, by decide +kernel⟩

/-- FS.base = 8, so that only the linear address is misaligned. -/
theorem witness_AlignmentBasisRefused :
    let s := { std with segs := ⟨flat, flat, flat, { flat with base := 8 }, flat, flat⟩ }
    let i : Instr := .xsaves [.seg .fs] none (.base 7 .none)
    let ar := areaOf s (operandOf i)
    Enabled s (operandOf i) ∧ (s.cfg.xss = true ∧ s.cpl = 0#2 ∧ s.vmxnr = false) ∧
      (∀ o ∈ saveMax s, ar.at o < 2 ^ linBits s.mode ∧ byteAddressOk s ar o = true) ∧
      (s.mode ≠ .real → ∀ o ∈ saveMax s, ar.ea.toNat + o < 2 ^ ar.asz.bits) ∧
      ¬ (ar.laxa.toNat % 64 = 0 ↔ ar.ea.toNat % 64 = 0) :=
  ⟨enabled_of (by decide +kernel), ⟨rfl, rfl, rfl⟩, by decide +kernel, by decide +kernel, by decide +kernel⟩

/-- `s` with no translation of the addresses from `lo` to `hi` for these accesses (code 9). -/
def unmapped (lo hi : Nat) (acc : Option Access) (s : State) : State :=
  { s with env := ⟨[⟨⟨lo, hi⟩, acc, 0xF, 9⟩], [], []⟩ }

/-- XR28: the first header byte fails; and the last of the 24. -/
theorem witness_XrstorHeaderPageFault :
    let s := unmapped 0x1217 0x1217 none std
    let ar := areaOf s (operandOf restore)
    Enabled s (operandOf restore) ∧ Aligned64 ar ∧ s.mode ≠ .real ∧
      (∀ o' ∈ headerMax s.cfg, ar.at o' < 2 ^ linBits s.mode ∧ byteAddressOk s ar o' = true ∧
        ar.ea.toNat + o' < 2 ^ ar.asz.bits) ∧
      translate s.env (ar.at (s.cfg.hdrOff + 23)) .read s.cpl = some 9 ∧
      (∀ o', o' < 23 → translate s.env (ar.at (s.cfg.hdrOff + o')) .read s.cpl = none) ∧
      raises .pf (some 9) (exec restore (unmapped 0x1200 0x1200 (some .read) std)) = true :=
  ⟨enabled_of (by decide +kernel), ⟨by decide, by decide⟩, by decide, by decide +kernel, by decide +kernel, by decide +kernel,
    by decide +kernel⟩

/-- The six conditions at boundary values: XSTATE_BV[3], header bytes 8 and 23, the missing feature, XCOMP_BV[62] outside XCR0,
XSTATE_BV[2] outside XCOMP_BV, header bytes 16 and 63 (XR6, XR7, XR10 to XR13, XR18). -/
theorem witness_HeaderFaults :
    (Enabled std (operandOf restore) ∧ Aligned64 (areaOf std (operandOf restore)) ∧
        BytesUsable std (areaOf std (operandOf restore)) .read (headerMax std.cfg)) ∧
      [[(0x1200, 8#8)], [(0x1208, 1)], [(0x1217, 1)], [(0x120F, 0xC0)], [(0x1200, 4), (0x1208, 3), (0x120F, 0x80)],
        [(0x120F, 0x80), (0x1210, 1)], [(0x120F, 0x80), (0x123F, 1)]].all
        (fun m => raises .gp (some 0) (exec restore (base 0 m))) = true ∧
      raises .gp (some 0) (exec restore { cmp with cfg := { Cfg.standard with xsavec := false } }) = true :=
  ⟨⟨enabled_base _ _, ready_std.aligned, ready_std.header⟩, by decide +kernel, by decide +kernel⟩

/-- MXCSR bit 16, the lowest reserved one, set: loaded (XR3) and not (XR14); bit 15 set; both forms. -/
theorem witness_IllegalMxcsrFaultsExactly :
    (RestoreReady std (operandOf restore) ∧ StandardHeader std (areaOf std (operandOf restore))) ∧
      (RestoreReady cmp (operandOf restore) ∧ CompactedHeader cmp (areaOf cmp (operandOf restore))) ∧
      raises .gp (some 0) (exec restore (base 7 [(0x101A, 1)])) = true ∧
      raises .gp (some 0) (exec restore (base 2 [(0x101A, 1), (0x1200, 2), (0x1208, 7), (0x120F, 0x80)])) = true ∧
      isNext (exec restore (base 4 [(0x101A, 1), (0x1200, 7), (0x1208, 7), (0x120F, 0x80)])) = true ∧
      isNext (exec restore (base 7 [(0x1019, 0x80)])) = true :=
  ⟨⟨ready_std, header_std⟩, ⟨ready_cmp, header_cmp⟩, by decide +kernel, by decide +kernel, by decide +kernel,
    by decide +kernel⟩

/-- XR29: the last byte of the AVX image is not mapped. -/
theorem witness_XrstorComponentPageFault :
    let s := unmapped 0x133F 0x1FFF none std
    let ar := areaOf s (operandOf restore)
    let k := xrstorMasks s ar
    Enabled s (operandOf restore) ∧ s.mode ≠ .real ∧ s.vmxnr = false ∧ Aligned64 ar ∧ StandardHeader s ar ∧
      BytesUsable s ar .read (headerMax s.cfg) ∧
      (∀ o ∈ loadMax s.cfg s.xcr0 k, ar.at o < 2 ^ linBits s.mode ∧ ar.ea.toNat + o < 2 ^ ar.asz.bits ∧
        byteAddressOk s ar o = true) ∧
      831 ∈ loadMin s.cfg s.mode k ∧ translate s.env (ar.at 831) .read s.cpl = some 9 ∧
      (∀ o' ∈ loadMin s.cfg s.mode k, o' < 831 → translate s.env (ar.at o') .read s.cpl = none) ∧
      raises .pf (some 9) (exec restore s) = true :=
  ⟨enabled_of (by decide +kernel), by decide, rfl, ⟨by decide, by decide⟩, ⟨by decide +kernel, by decide +kernel,
    by decide +kernel⟩, ⟨by decide +kernel, by decide +kernel, by decide +kernel, by decide +kernel, by decide +kernel,
    by decide +kernel, by decide +kernel⟩, by decide +kernel, by decide +kernel, by decide +kernel, by decide +kernel, by decide +kernel⟩

/-- XS22: a write to the area is not mapped. -/
theorem witness_XsavesPageFault :
    let s := unmapped 0x1000 0x1FFF (some .write) std
    let ar := areaOf s (operandOf save)
    Enabled s (operandOf save) ∧ s.cfg.xss = true ∧ s.cpl = 0#2 ∧ s.vmxnr = false ∧ s.mode ≠ .real ∧ Aligned64 ar ∧
      (∀ o ∈ saveMax s, ar.at o < 2 ^ linBits s.mode ∧ ar.ea.toNat + o < 2 ^ ar.asz.bits ∧ byteAddressOk s ar o = true) ∧
      0 ∈ saveMin (Draws.at s.draws) s ar ∧ translate s.env (ar.at 0) .write s.cpl = some 9 ∧
      (∀ o' ∈ saveMin (Draws.at s.draws) s ar, o' < 0 → translate s.env (ar.at o') .write s.cpl = none) ∧
      raises .pf (some 9) (exec save s) = true :=
  ⟨enabled_of (by decide +kernel), rfl, rfl, rfl, by decide, ⟨by decide, by decide⟩, by decide +kernel, by decide +kernel,
    by decide +kernel, fun _ _ h => absurd h (by omega), by decide +kernel⟩

/-- Bytes that only might be accessed and are not mapped (XR30): header byte 16 for an XSAVES with nothing requested; header byte 24 in
pass 1 of XRSTOR; area byte 0 in pass 2 of an XRSTOR with nothing requested. -/
theorem witness_UncertainFootprintRefused :
    (let s := unmapped 0x1210 0x1210 none (base 0 [])
     let ar := areaOf s (operandOf save)
     Enabled s (operandOf save) ∧ Aligned64 ar ∧ s.cfg.xss = true ∧ s.cpl = 0#2 ∧ s.vmxnr = false ∧ NoWrap s ar (saveMax s) ∧
       (∀ o ∈ saveMin (Draws.at s.draws) s ar, ByteReachable s ar .write o) ∧ ∃ o ∈ saveMax s, ¬ ByteReachable s ar .write o) ∧
    (let s := unmapped 0x1218 0x1218 none std
     let ar := areaOf s (operandOf restore)
     Enabled s (operandOf restore) ∧ Aligned64 ar ∧ NoWrap s ar (headerMax s.cfg) ∧
       (∀ o ∈ headerMin s.cfg, ByteReachable s ar .read o) ∧ ∃ o ∈ headerMax s.cfg, ¬ ByteReachable s ar .read o) ∧
    (let s := unmapped 0x1000 0x1000 none (base 0 (area 0x1F 7 0 0))
     let ar := areaOf s (operandOf restore)
     let k := xrstorMasks s ar
     Enabled s (operandOf restore) ∧ Aligned64 ar ∧ BytesUsable s ar .read (headerMax s.cfg) ∧ StandardHeader s ar ∧
       NoWrap s ar (loadMax s.cfg s.xcr0 k) ∧ (∀ o ∈ loadMin s.cfg s.mode k, ByteReachable s ar .read o) ∧
       ∃ o ∈ loadMax s.cfg s.xcr0 k, ¬ ByteReachable s ar .read o) := by
  refine ⟨⟨enabled_of (by decide +kernel), ⟨by decide, by decide⟩, rfl, rfl, rfl, ⟨by decide +kernel, by decide +kernel⟩,
      fun o ho => ?_, 528, by decide +kernel, fun h => absurd (h.translated (by decide)) (by decide +kernel)⟩,
    ⟨enabled_of (by decide +kernel), ⟨by decide, by decide⟩, ⟨by decide +kernel, by decide +kernel⟩,
      fun o ho => ?_, 536, by decide +kernel, fun h => absurd (h.translated (by decide)) (by decide +kernel)⟩,
    ⟨enabled_of (by decide +kernel), ⟨by decide, by decide⟩, ⟨by decide +kernel, by decide +kernel, by decide +kernel,
      by decide +kernel, by decide +kernel, by decide +kernel, by decide +kernel⟩, ⟨by decide +kernel, by decide +kernel,
      by decide +kernel⟩, ⟨by decide +kernel, by decide +kernel⟩, ?_, 0, by decide +kernel,
      fun h => absurd (h.translated (by decide)) (by decide +kernel)⟩⟩
  · exact ⟨(by decide +kernel : ∀ o ∈ saveMin (Draws.at 0) (unmapped 0x1210 0x1210 none (base 0 []))
        (areaOf (base 0 []) (operandOf save)), byteAddressOk (base 0 []) (areaOf (base 0 []) (operandOf save)) o = true) o ho,
      fun _ => (by decide +kernel : ∀ o ∈ saveMin (Draws.at 0) (unmapped 0x1210 0x1210 none (base 0 []))
        (areaOf (base 0 []) (operandOf save)),
        translate (unmapped 0x1210 0x1210 none (base 0 [])).env (0x1000 + o) .write 0 = none) o ho⟩
  · exact ⟨(by decide +kernel : ∀ o ∈ headerMin Cfg.standard, byteAddressOk std (areaOf std (operandOf restore)) o = true) o ho,
      fun _ => (by decide +kernel : ∀ o ∈ headerMin Cfg.standard,
        translate (unmapped 0x1218 0x1218 none std).env (0x1000 + o) .read 0 = none) o ho⟩
  · have h0 : loadMin Cfg.standard .long64 (xrstorMasks (unmapped 0x1000 0x1000 none (base 0 (area 0x1F 7 0 0)))
        (areaOf (base 0 []) (operandOf restore))) = [] := by decide +kernel
    intro o ho
    exact absurd (h0 ▸ ho) List.not_mem_nil

/-- XS25: the program text is inside the area. -/
theorem witness_SelfModifyingSaveRefused :
    let s := { base 7 [] with text := ⟨0x1100, [0x0F, 0xC7, 0x2F]⟩ }
    let ar := areaOf s (operandOf save)
    Enabled s (operandOf save) ∧ s.cfg.xss = true ∧ s.cpl = 0#2 ∧ s.vmxnr = false ∧ Aligned64 ar ∧
      BytesUsable { s with text := { start := 0, bytes := [] } } ar .write (saveMax s) ∧
      (∃ o ∈ saveMax s, s.text.has (ar.at o) = true) :=
  ⟨enabled_of (by decide +kernel), rfl, rfl, rfl, ⟨by decide, by decide⟩,
    ⟨by decide +kernel, by decide +kernel, by decide +kernel, by decide +kernel, by decide +kernel, by decide +kernel,
      by decide +kernel⟩, ⟨256, by decide +kernel, by decide +kernel⟩⟩

/-- An exception before anything is accessed, and a late one (XR5, XR3). -/
theorem witness_XrstorFaultFrame :
    restore.saves = false ∧
      (∃ info post, exec restore (base 7 [(0x1200, 8)]) = .fault (.exception .gp (some 0) info post)) ∧
      ∃ info post, exec restore (base 7 [(0x101A, 1)]) = .fault (.exception .gp (some 0) info post) :=
  ⟨rfl, exists_of_raises (by decide +kernel), exists_of_raises (by decide +kernel)⟩

theorem witness_XsavesFaultFrame :
    save.saves = true ∧ MemoryOk (unmapped 0x1000 0x1FFF none std) ∧
      ∃ info post, exec save (unmapped 0x1000 0x1FFF none std) = .fault (.exception .pf (some 9) info post) :=
  ⟨rfl, memoryOk_std, exists_of_raises (by decide +kernel)⟩

/-- Real-address mode, and one exception of each other kind: #SS, #AC and #PF are in the witnesses above. -/
theorem witness_ExceptionsPerMode :
    (∃ info post, exec (.xrstor [.lock] none (.base16 7 .none)) (base16 7 []) = .fault (.exception .ud none info post)) ∧
      (∃ info post, exec (.xrstor [] none (.base16 7 .none)) (base16 7 [(0x5200, 8)]) =
        .fault (.exception .gp none info post)) ∧
      (∃ info post, exec restore (acState (some 0x100)) = .fault (.exception .ac (some 0) info post)) ∧
      ∃ info post, exec restore (unmapped 0x1200 0x1200 none std) = .fault (.exception .pf (some 9) info post) :=
  ⟨exists_of_raises (by decide +kernel), exists_of_raises (by decide +kernel), exists_of_raises (by decide +kernel),
    exists_of_raises (by decide +kernel)⟩

/-! #### Invariants and whole-machine rules -/

theorem step_std : step std = exec restore std := rfl

/-- The same state with the text of XSAVES. -/
def stdSave : State := { std with text := ⟨0x400000, [0x0F, 0xC7, 0x2F]⟩ }

theorem inv_stdSave : Inv stdSave := ⟨inv_std.memory, inv_std.xinuse, inv_std.tracking⟩

/-- A step that is an XRSTOR; one that is an XSAVES of SSE and AVX state. -/
theorem witness_StepKeepsInvariant :
    (Inv std ∧ ∃ t, step std = .next t) ∧ Inv stdSave ∧ ∃ t, step { stdSave with gprs := stdSave.gprs.set 0 6 } = .next t :=
  ⟨⟨inv_std, next_std⟩, inv_stdSave, exists_of_isNext (by decide +kernel)⟩

/-- A late exception of XRSTOR, and one of XSAVES. -/
theorem witness_FaultKeepsInvariant :
    (Inv (unmapped 0x133F 0x1FFF none std) ∧
        ∃ info post, step (unmapped 0x133F 0x1FFF none std) = .fault (.exception .pf (some 9) info post)) ∧
      Inv (unmapped 0x1000 0x1FFF none stdSave) ∧
        ∃ info post, step (unmapped 0x1000 0x1FFF none stdSave) = .fault (.exception .pf (some 9) info post) :=
  ⟨⟨⟨inv_std.memory, inv_std.xinuse, inv_std.tracking⟩, exists_of_raises (by decide +kernel)⟩,
    ⟨inv_std.memory, inv_std.xinuse, inv_std.tracking⟩, exists_of_raises (by decide +kernel)⟩

theorem witness_StepKeepsContext : ∃ t, step std = .next t := next_std

/-- XMODIFIED = 0: the registers are those of `r`, here of the state itself. -/
theorem witness_XsavesKeepsModifiedTracking :
    save.saves = true ∧ InvXmod { std with xmodified := 0 } { std with xmodified := 0 } ∧
      ∃ t, exec save { std with xmodified := 0 } = .next t :=
  ⟨rfl, ⟨fun _ => rfl, fun _ => ⟨rfl, rfl⟩, fun _ => rfl⟩, exists_of_isNext (by decide +kernel)⟩

/-- A completion in each form, and an exception. -/
theorem witness_XrstorRecordsInfo :
    restore.saves = false ∧ (∃ t, exec restore std = .next t) ∧ (∃ t, exec restore cmp = .next t) ∧
      (readXcompBv std.cfg std.mem 0x1000).getLsbD 63 = false ∧
      ∃ info post, exec restore (base 7 [(0x101A, 1)]) = .fault (.exception .gp (some 0) info post) :=
  ⟨rfl, next_std, next_cmp, by decide +kernel, exists_of_raises (by decide +kernel)⟩

theorem witness_StepAdvancesRip : ∃ t, step std = .next t := next_std

/-- Another register file: RAX and RDX with other upper halves, every register the operand does not name with another value; for
`[RDI]`, for `[SI]` (16-bit, rm = 4) and for a SIB byte with base RBX and no index. -/
theorem witness_OnlyNamedRegistersMatter :
    let g : Vector Word64 16 := #v[0xFFFFFFFF00000007, 9, 0xFFFFFFFF00000000, 9, 9, 9, 9, 0x1000, 9, 9, 9, 9, 9, 9, 9, 9]
    let g2 : Vector Word64 16 := #v[0xFFFFFFFF00000007, 9, 0xFFFFFFFF00000000, 0x5000, 9, 9, 0x2000, 9, 9, 9, 9, 9, 9, 9, 9, 9]
    ((∀ n ∈ operandRegs (operandOf restore), g.get n.toFin = std.gprs.get n.toFin) ∧
        (g.get 0).extractLsb' 0 32 = (std.gprs.get 0).extractLsb' 0 32 ∧
        (g.get 2).extractLsb' 0 32 = (std.gprs.get 2).extractLsb' 0 32) ∧
      (∀ n ∈ operandRegs (operandOf (.xrstor [] none (.base16 4 .none))), g2.get n.toFin = std.gprs.get n.toFin) ∧
      (∀ n ∈ operandRegs (operandOf (.xrstor [] none (.sib 0 4 3 .none))), g2.get n.toFin = std.gprs.get n.toFin) ∧
      operandRegs (operandOf (.xrstor [] none (.base16 4 .none))) = [6#4] ∧
      operandRegs (operandOf (.xrstor [] none (.sib 0 4 3 .none))) = [3#4] := by decide

/-- Each clause, with a sum that wraps where it can. -/
theorem witness_LinearAddressByMode :
    let s16 := { base16 7 [] with segs := ⟨flat, { flat with selector := 0xFFFF }, flat, flat, flat, flat⟩ }
    let s32 := { base32 7 [] with segs := ⟨flat, { flat with base := 0xFFFFFFC0 }, flat, flat, flat, flat⟩ }
    let s64 := { base 7 [] with segs := ⟨flat, flat, flat, { flat with base := 0xFFFFFFFFFFFFFFC0 }, flat, flat⟩ }
    (s16.mode = .real ∧ (linear s16 .ds 0xFFFFFFC0).toNat = 0xFFFB0 ∧ (linear { s16 with mode := .v8086 } .ds 0).toNat = 0xFFFF0) ∧
      (s32.mode = .prot ∧ (linear s32 .ds 0x80).toNat = 0x40 ∧ (linear { s32 with mode := .compat } .ds 0x80).toNat = 0x40) ∧
      (s64.mode = .long64 ∧ (linear s64 .fs 0x80).toNat = 0x40) ∧ (s64.mode = .long64 ∧ linear s64 .ds 0x80 = 0x80) := by decide

/-- Every form, with a sum that wraps, a negative displacement and registers 8 and 12, and every address size (R107, R109 to R112). -/
theorem witness_EffectiveAddressWithinSize :
    let ea := fun (s : State) (pfx : List Pfx) (rex : Option Rex) (m : MemOp) =>
      ((areaOf s (operandOf (.xrstor pfx rex m))).ea, (areaOf s (operandOf (.xrstor pfx rex m))).asz)
    let s64 := { base 7 [] with gprs := (base 7 []).gprs.set 7 0xFFFFFFFFFFFFFFC0 }
    let s16 := base16 7 []
    (ea s64 [] none (.base 7 (.d8 0x40)) = (0, .a64) ∧ ea s64 [.addrSize] none (.base 7 (.d8 0xFF)) = (0xFFFFFFBF, .a32) ∧
        ea s64 [] (some ⟨false, true⟩) (.base 0 (.full 0xFFFFFFFF)) = (0x7FFF, .a64)) ∧
      (ea s64 [] none (.dispRip 0xFFFFFFF9) = (0x400000, .a64) ∧ ea (base32 7 []) [] none (.dispRip 0xFFFFFFF9) = (0xFFFFFFF9, .a32)) ∧
      (ea s64 [] (some ⟨true, false⟩) (.sib 3 4 3 .none) = (0x5200, .a64) ∧ ea s64 [] none (.sib 3 4 3 .none) = (0x5000, .a64)) ∧
      (ea s64 [] none (.sibNoBase 1 6 0xFFFFFFC0) = (0x3FC0, .a64) ∧ ea s64 [] none (.sibNoBase 3 4 0x40) = (0x40, .a64)) ∧
      ea s16 [] none (.abs16 0xFFFF) = (0xFFFF, .a16) ∧
      [0, 1, 2, 3, 4, 5, 6, 7].map (fun rm => (ea s16 [] none (.base16 rm (.d8 0xFF))).1) =
        [0x6FFF, 0x5FFF, 0x8FFF, 0x7FFF, 0x1FFF, 0xFFF, 0x6FFF, 0x4FFF] ∧
      ea s16 [] none (.base16 7 (.full 0xB000)) = (0, .a16) ∧
      [ea { s16 with mode := .v8086 } [.addrSize], ea (base32 7 []) [.addrSize], ea { base32 7 [] with csD := false } [],
        ea { base32 7 [] with mode := .compat, csD := false } [.addrSize]].map (fun f => (f none (.abs16 0)).2) =
        [.a32, .a16, .a16, .a32] := by decide +kernel

/-- Every form and every kind of override: without effect, the last of two, and one without effect after one with it (R113). -/
theorem witness_OperandSegmentByForm :
    let seg := fun (s : State) (pfx : List Pfx) (rex : Option Rex) (m : MemOp) =>
      (WellFormed s.decodeCtx (.xrstor pfx rex m), (areaOf s (operandOf (.xrstor pfx rex m))).seg)
    let s64 := base 7 []
    let s16 := base16 7 []
    (seg s64 [.seg .fs, .seg .ds] none (.base 7 .none) = (true, .fs) ∧ seg s64 [.seg .ss] none (.base 7 .none) = (true, .ds) ∧
        seg (base32 7 []) [.seg .fs, .seg .es] none (.base 5 (.d8 0)) = (true, .es)) ∧
      (seg s64 [] none (.base 5 (.d8 0)) = (true, .ss) ∧ seg s64 [] (some ⟨false, true⟩) (.base 5 (.d8 0)) = (true, .ds)) ∧
      (seg s64 [] none (.sib 0 4 4 .none) = (true, .ss) ∧ seg s64 [] none (.sib 0 4 5 (.d8 0)) = (true, .ss) ∧
        seg s64 [] (some ⟨false, true⟩) (.sib 0 5 4 .none) = (true, .ds)) ∧
      (seg s16 [] none (.base16 2 .none) = (true, .ss) ∧ seg s16 [] none (.base16 6 (.d8 0)) = (true, .ss) ∧
        seg s16 [] none (.base16 0 .none) = (true, .ds)) ∧
      seg s64 [] none (.dispRip 0) = (true, .ds) ∧ seg s16 [] none (.abs16 0) = (true, .ds) ∧
      seg s64 [] none (.sibNoBase 0 5 0) = (true, .ds) := by decide +kernel

/-! #### A save and a restore, one after the other -/

/-- Every component saved from `std`, into zeroed memory. -/
def saved : State := { std with mem := [] }

theorem inv_saved : Inv saved := ⟨⟨rfl, rfl⟩, inv_std.xinuse, inv_std.tracking⟩

/-- The state an XSAVES or XSAVES64 of `saved` leaves. -/
def afterSave (i : Instr) : State := xsavesDone (Draws.at 0) i.wide (operandOf i) saved

/-- It completes, and an XRSTOR of what it wrote completes: every component is stored and loaded. -/
theorem save_then_restore {i j : Instr} (hi : i.saves = true) (hj : j.saves = false) (ei : Enabled saved (operandOf i))
    (ai : areaOf saved (operandOf i) = at1000) (ej : Enabled (afterSave i) (operandOf j))
    (aj : areaOf (afterSave i) (operandOf j) = at1000) :
    exec i saved = .next (afterSave i) ∧ ∃ u, exec j (afterSave i) = .next u := by
  have hv : Cfg.valid saved.cfg = true := ei.cfg
  have hmem : (afterSave i).mem = savedMemory (Draws.at 0) i.wide saved at1000 := by
    rw [← ai, afterSave, xsavesDone_mem]
  have hs : stores (Draws.at 0) saved at1000 1 = true := stores_of_need (by decide +kernel) (.inl (by decide +kernel))
  refine ⟨exec_of_saveReady hi (readySave_at1000 ⟨rfl, rfl, rfl, rfl⟩ ei ai rfl rfl), _,
    exec_of_restoreReady hj (ready_at1000 ⟨rfl, rfl, rfl, rfl⟩ ej aj) ?_ fun _ => ?_⟩
  · rw [aj]
    exact headerBad_of_compacted (compactedHeader_of_saved hv ei.scope rfl rfl (fun _ _ _ => rfl) hmem rfl rfl)
  · rw [aj, hmem]
    unfold readMxcsr areaField
    rw [(readLE_savedMemory_sse hv rfl hs).1]
    show illegalMxcsr Cfg.standard 0x1FA0 = false
    decide

/-- With REX.W and without, x87 state in it. -/
theorem witness_SaveThenRestoreReturnsState :
    Inv saved ∧ (saved.xcr0 &&& saved.instrMask) = 7 ∧
      (modOpt saved (areaOf saved (operandOf save)) = false ∧ modOpt saved (areaOf saved (operandOf save64)) = false) ∧
      (save.wide = restore.wide ∧ exec save saved = .next (afterSave save) ∧ (∃ u, exec restore (afterSave save) = .next u) ∧
        (areaOf (afterSave save) (operandOf restore)).laxa = (areaOf saved (operandOf save)).laxa) ∧
      (save64.wide = restore64.wide ∧ exec save64 saved = .next (afterSave save64) ∧
        (∃ u, exec restore64 (afterSave save64) = .next u) ∧
        (areaOf (afterSave save64) (operandOf restore64)).laxa = (areaOf saved (operandOf save64)).laxa) := by
  have h := save_then_restore (i := save) (j := restore) rfl rfl (enabled_of (by decide +kernel)) rfl
    (enabled_of (by decide +kernel)) rfl
  have h64 := save_then_restore (i := save64) (j := restore64) rfl rfl (enabled_of (by decide +kernel)) rfl
    (enabled_of (by decide +kernel)) rfl
  exact ⟨inv_saved, by decide, by decide +kernel, ⟨rfl, h.1, h.2, rfl⟩, rfl, h64.1, h64.2, rfl⟩

/-- A compacted-form area with every component in it. -/
def full : State := base 7 (area 0x1F 7 7 0x80)

/-- The state an XRSTOR or XRSTOR64 of `full` leaves. -/
def afterRestore (i : Instr) : State :=
  xrstorDone (Draws.at 0) i.wide (areaOf full (operandOf i)) (xrstorMasks full (areaOf full (operandOf i))) i.length full

/-- It completes, and an XSAVES to the same area completes. -/
theorem restore_then_save {i j : Instr} (hi : i.saves = false) (hj : j.saves = true) (ei : Enabled full (operandOf i))
    (ai : areaOf full (operandOf i) = at1000) (ej : Enabled (afterRestore i) (operandOf j))
    (aj : areaOf (afterRestore i) (operandOf j) = at1000) :
    exec i full = .next (afterRestore i) ∧ ∃ u, exec j (afterRestore i) = .next u := by
  have hh : CompactedHeader full at1000 := by constructor <;> decide +kernel
  refine ⟨exec_of_restoreReady hi (ready_at1000 ⟨rfl, rfl, rfl, rfl⟩ ei ai) ?_ fun _ => ?_, _,
    exec_of_saveReady hj (readySave_at1000 ⟨rfl, rfl, rfl, rfl⟩ ej aj rfl rfl)⟩
  · rw [ai]
    exact headerBad_of_compacted hh
  · rw [ai]
    decide +kernel

/-- With REX.W and without. -/
theorem witness_RestoreThenSaveKeepsImage :
    MemoryOk full ∧ (xrstorMasks full (areaOf full (operandOf restore))).form = .compacted ∧
      (∀ j, j < 3 → (xrstorMasks full (areaOf full (operandOf restore))).loads j = true) ∧
      (restore.wide = save.wide ∧ exec restore full = .next (afterRestore restore) ∧
        (∃ u, exec save (afterRestore restore) = .next u) ∧
        (areaOf (afterRestore restore) (operandOf save)).laxa = (areaOf full (operandOf restore)).laxa) ∧
      (restore64.wide = save64.wide ∧ exec restore64 full = .next (afterRestore restore64) ∧
        (∃ u, exec save64 (afterRestore restore64) = .next u) ∧
        (areaOf (afterRestore restore64) (operandOf save64)).laxa = (areaOf full (operandOf restore64)).laxa) := by
  have h := restore_then_save (i := restore) (j := save) rfl rfl (enabled_of (by decide +kernel)) rfl
    (enabled_of (by decide +kernel)) rfl
  have h64 := restore_then_save (i := restore64) (j := save64) rfl rfl (enabled_of (by decide +kernel)) rfl
    (enabled_of (by decide +kernel)) rfl
  exact ⟨⟨by decide +kernel, by decide +kernel⟩, by decide +kernel, by decide +kernel, ⟨rfl, h.1, h.2, rfl⟩, rfl, h64.1, h64.2,
    rfl⟩

end Sys2Proof.Tests
end

section
/-! Fetching: what `fetch` and `step` answer when there are bytes and they decode, and the scope family's statement (00_scope.md R14). -/

namespace Sys2Proof.Machine

open Sys2Proof

/-- Bytes of the program text at CS:RIP are decoded in the current mode. -/
theorem fetch_of_fetchBytes {s : State} {bs : List Byte} (hbytes : fetchBytes s = some bs) :
    fetch s = .inl (decode s.decodeCtx bs) := by
  simp only [fetch, hbytes]

/-- R14: a fetched instruction is executed, with nothing around its meaning. -/
theorem step_of_fetch_ok {s : State} {i : Instr} {rest : List Byte} (hfetch : fetch s = .inl (.ok i rest)) :
    step s = exec i s := by
  simp only [step, hfetch]

/-- Settles O6: the bytes at CS:RIP fetch what they decode to, and a step executes what it fetches. -/
theorem stepRunsDecodedInstruction : Obligations.StepRunsDecodedInstruction := by
  intro s bs rest i hbytes hdecode
  have hfetch : fetch s = .inl (.ok i rest) := by rw [fetch_of_fetchBytes hbytes, hdecode]
  exact step_of_fetch_ok hfetch

end Sys2Proof.Machine
end

section
/-! The state family (10_state.md): what a completed step says, said once for the four forms, and from it the frame of a step, the
advance of RIP, the tracking invariant and the values after reset. -/

namespace Sys2Proof.Machine

open Sys2Proof

/-! ### What a completed step says -/

/-- A step that answers a next state has fetched and decoded an instruction, whose meaning answers that state (R14). -/
theorem exists_exec_of_step_next {s t : State} (h : step s = .next t) :
    ∃ (i : Instr) (bs rest : List Byte),
      fetchBytes s = some bs ∧ decode s.decodeCtx bs = .ok i rest ∧ exec i s = .next t := by
  cases hbytes : fetchBytes s with
  | none => simp [step, fetch, hbytes] at h
  | some bs =>
    have hfetch := fetch_of_fetchBytes hbytes
    cases hdecode : decode s.decodeCtx bs with
    | rejected r => simp [step, hfetch, hdecode] at h
    | ok i rest =>
      rw [hdecode] at hfetch
      exact ⟨i, bs, rest, rfl, hdecode, step_of_fetch_ok hfetch ▸ h⟩

/-- A completed instruction is a completed restore or a completed save, in a valid configuration and with no wrap of RIP; a save's
footprint does not wrap either. -/
theorem exec_next_cases {i : Instr} {s t : State} (h : exec i s = .next t) :
    Cfg.valid s.cfg = true ∧ ripWraps s i.length = false ∧
      ((i.saves = false ∧ t = xrstorDone (Draws.at s.draws) i.wide (areaOf s (operandOf i))
          (xrstorMasks s (areaOf s (operandOf i))) i.length s) ∨
        (i.saves = true ∧ (∀ o ∈ saveMax s, (areaOf s (operandOf i)).at o < 2 ^ linBits s.mode) ∧
          t = xsavesDone (Draws.at s.draws) i.wide (operandOf i) s)) := by
  cases hi : i.saves with
  | false =>
    obtain ⟨⟨hcfg, _, hrip⟩, _, ht⟩ := exec_restore_next hi h
    exact ⟨hcfg, hrip, .inl ⟨rfl, ht⟩⟩
  | true =>
    obtain ⟨⟨hcfg, _, hrip⟩, hlin, ht⟩ := exec_save_next hi h
    exact ⟨hcfg, hrip, .inr ⟨rfl, hlin, ht⟩⟩

/-! ### The invariant -/

/-- `INV_XINUSE` over all component numbers: of those above 2 nothing is asked. -/
theorem invXinuse_iff {s : State} : InvXinuse s ↔ ∀ i, s.xinuse.getLsbD i = false → s.isInitial i = true := by
  constructor
  · rintro ⟨h0, h1, h2⟩ i hi
    match i with
    | 0 => exact decide_eq_true (h0 hi)
    | 1 => exact decide_eq_true (h1 hi)
    | 2 => exact decide_eq_true (h2 hi)
    | _ + 3 => rfl
  · exact fun h => ⟨fun h0 => of_decide_eq_true (h 0 h0), fun h1 => of_decide_eq_true (h 1 h1),
      fun h2 => of_decide_eq_true (h 2 h2)⟩

/-- A component that is not requested keeps its registers (R138), so it is as initial as before. -/
theorem isInitial_withComponents_of_not_requested {d : Draws} {w : Bool} {ar : Area} {k : Masks} {s : State} {i : Nat}
    (h : k.rfbm.getLsbD i = false) : (withComponents d w ar k s).isInitial i = s.isInitial i := by
  have hn : ¬ k.rfbm.getLsbD i = true := ne_true_of_eq_false h
  match i with
  | 0 =>
    have hx : (withComponents d w ar k s).x87 = s.x87 := if_neg hn
    simp only [State.isInitial, hx]
  | 1 =>
    have hx : (withComponents d w ar k s).xmm = s.xmm := if_neg hn
    simp only [State.isInitial, hx]
  | 2 =>
    have hx : (withComponents d w ar k s).ymmHi = s.ymmHi := if_neg hn
    simp only [State.isInitial, hx]
  | _ + 3 => rfl

/-- `InitTrack(i)` answers 0 for initial components only, whatever it draws (R146). -/
theorem isInitial_of_initTrack_eq_false {d : Draws} {s : State} {i : Nat} (h : initTrack d s i = false) :
    s.isInitial i = true := by
  unfold initTrack at h
  split at h
  · assumption
  · exact absurd h (by decide)

/-- `Track` marks a component as not in use only where it is initial, if the state before did so (R146). -/
theorem isInitial_of_inuseAfter_eq_false {d : Draws} {w : Bool} {ar : Area} {k : Masks} {s : State} {i : Nat}
    (hs : InvXinuse s) (h : inuseAfter d (withComponents d w ar k s) k i = false) :
    (withComponents d w ar k s).isInitial i = true := by
  unfold inuseAfter at h
  cases hr : k.rfbm.getLsbD i with
  | false =>
    rw [isInitial_withComponents_of_not_requested hr]
    exact invXinuse_iff.1 hs i (by simpa [hr] using h)
  | true =>
    cases hl : k.rstormask.getLsbD i with
    | false => exact isInitial_of_initTrack_eq_false (by simpa [hr, hl] using h)
    | true => simp [hr, hl] at h

/-- A completed restore keeps `INV_XINUSE`. -/
theorem invXinuse_xrstorDone {d : Draws} {w : Bool} {ar : Area} {k : Masks} {len : Nat} {s : State}
    (hv : Cfg.valid s.cfg = true) (hs : InvXinuse s) : InvXinuse (xrstorDone d w ar k len s) := by
  rw [invXinuse_iff]
  intro i hi
  rw [isInitial_xrstorDone]
  rw [getLsbD_xrstorDone_xinuse hv] at hi
  by_cases h3 : i < 3
  · exact isInitial_of_inuseAfter_eq_false hs (by simpa [h3] using hi)
  · obtain ⟨j, rfl⟩ : ∃ j, i = j + 3 := ⟨i - 3, by omega⟩
    rfl

/-- A completed restore sets no tracking bit above the components. -/
theorem trackingInRange_xrstorDone {d : Draws} {w : Bool} {ar : Area} {k : Masks} {len : Nat} {s : State}
    (hv : Cfg.valid s.cfg = true) (ht : TrackingInRange s) : TrackingInRange (xrstorDone d w ar k len s) := by
  obtain ⟨hinuse, hmodified⟩ := ht
  rw [shiftRight_three_eq_zero] at hinuse hmodified
  refine ⟨shiftRight_three_eq_zero.2 fun j hj => ?_, shiftRight_three_eq_zero.2 fun j hj => ?_⟩
  · rw [getLsbD_xrstorDone_xinuse hv, if_neg (by omega), hinuse j hj]
  · rw [getLsbD_xrstorDone_xmodified hv, if_neg (by omega), hmodified j hj]

theorem inv_xrstorDone {d : Draws} {w : Bool} {ar : Area} {k : Masks} {len : Nat} {s : State}
    (hv : Cfg.valid s.cfg = true) (h : Inv s) : Inv (xrstorDone d w ar k len s) :=
  ⟨h.memory, invXinuse_xrstorDone hv h.xinuse, trackingInRange_xrstorDone hv h.tracking⟩

theorem linBits_le (mode : Mode) : linBits mode ≤ 64 := by
  cases mode <;> decide

/-- A save whose footprint does not wrap keeps memory canonical and below `2^64` (R43, R80). -/
theorem memoryOk_xsavesDone {d : Draws} {w : Bool} {o : Operand} {s : State} (hv : Cfg.valid s.cfg = true)
    (hlin : ∀ off ∈ saveMax s, (areaOf s o).at off < 2 ^ linBits s.mode) (h : MemoryOk s) :
    MemoryOk (xsavesDone d w o s) := by
  obtain ⟨hwf, hbelow⟩ := h
  refine ⟨wf_fill hwf, below_fill hbelow fun off hoff => ?_⟩
  calc (areaOf s o).at off < 2 ^ linBits s.mode := hlin off (saveMin_subset hv off hoff)
    _ ≤ 2 ^ 64 := Nat.pow_le_pow_right (by decide) (linBits_le s.mode)

/-- A completed save keeps the invariant: components and tracking are as before. -/
theorem inv_xsavesDone {d : Draws} {w : Bool} {o : Operand} {s : State} (hv : Cfg.valid s.cfg = true)
    (hlin : ∀ off ∈ saveMax s, (areaOf s o).at off < 2 ^ linBits s.mode) (h : Inv s) : Inv (xsavesDone d w o s) :=
  ⟨memoryOk_xsavesDone hv hlin h.memory, h.xinuse, h.tracking⟩

theorem exec_keeps_inv {i : Instr} {s t : State} (hs : Inv s) (h : exec i s = .next t) : Inv t := by
  obtain ⟨hv, _, ⟨_, rfl⟩ | ⟨_, hlin, rfl⟩⟩ := exec_next_cases h
  · exact inv_xrstorDone hv hs
  · exact inv_xsavesDone hv hlin hs

/-- Settles O45: a restore tracks as unused only what it leaves initial, a save writes below `2^64` only. -/
theorem stepKeepsInvariant : Obligations.StepKeepsInvariant := by
  intro s t hs h
  obtain ⟨i, _, _, _, _, hexec⟩ := exists_exec_of_step_next h
  exact exec_keeps_inv hs hexec

/-- Settles O46: memory is empty, and the components not in use, SSE and AVX state, are zero (R44). -/
theorem invariantHoldsAtReset : Obligations.InvariantHoldsAtReset where
  memory := ⟨rfl, rfl⟩
  xinuse := ⟨fun h => absurd h (by decide), fun _ => rfl, fun _ => rfl⟩
  tracking := ⟨rfl, rfl⟩

/-- Settles O49: a save changes no register of a component and no tracking (R181). -/
theorem xsavesKeepsModifiedTracking : Obligations.XsavesKeepsModifiedTracking := by
  intro i r s t hi hmod h
  obtain ⟨_, _, rfl⟩ := exec_save_next hi h
  exact ⟨hmod, rfl, rfl, rfl⟩

/-! ### The frame of a step, RIP, and the values after reset -/

theorem sameContext_xrstorDone (d : Draws) (w : Bool) (ar : Area) (k : Masks) (len : Nat) (s : State) :
    SameContext s (xrstorDone d w ar k len s) := by
  constructor <;> simp

theorem sameContext_xsavesDone (d : Draws) (w : Bool) (o : Operand) (s : State) :
    SameContext s (xsavesDone d w o s) := by
  constructor <;> simp

/-- Settles O48: by the frames of a completed restore and of a completed save. -/
theorem stepKeepsContext : Obligations.StepKeepsContext := by
  intro s t h
  obtain ⟨i, _, _, _, _, hexec⟩ := exists_exec_of_step_next h
  obtain ⟨_, _, ⟨_, rfl⟩ | ⟨_, _, rfl⟩⟩ := exec_next_cases hexec
  · exact sameContext_xrstorDone ..
  · exact sameContext_xsavesDone ..

/-- RIP after a completed instruction, as a word (R21). -/
theorem rip_of_exec_next {i : Instr} {s t : State} (h : exec i s = .next t) : t.rip = s.rip + BitVec.ofNat 64 i.length := by
  obtain ⟨_, _, ⟨_, rfl⟩ | ⟨_, _, rfl⟩⟩ := exec_next_cases h
  · rfl
  · rfl

theorem rip_add_lt_of_not_ripWraps {s : State} {len : Nat} (h : ripWraps s len = false) :
    s.rip.toNat + len < 2 ^ linBits s.mode := by
  simp only [ripWraps, Bool.or_eq_false_iff, decide_eq_false_iff_not, not_le] at h
  exact h.1

/-- Settles O51: a completed instruction passed the check that its end does not wrap (D14), so the sum of words is that of numbers. -/
theorem stepAdvancesRip : Obligations.StepAdvancesRip := by
  intro s t h
  obtain ⟨i, bs, rest, hbytes, hdecode, hexec⟩ := exists_exec_of_step_next h
  obtain ⟨_, hwrap, _⟩ := exec_next_cases hexec
  have hlt := rip_add_lt_of_not_ripWraps hwrap
  have hlt64 : s.rip.toNat + i.length < 2 ^ 64 :=
    hlt.trans_le (Nat.pow_le_pow_right (by decide) (linBits_le s.mode))
  have hrip : t.rip.toNat = s.rip.toNat + i.length := by
    rw [rip_of_exec_next hexec, BitVec.toNat_add, BitVec.toNat_ofNat, Nat.add_mod_mod, Nat.mod_eq_of_lt hlt64]
  exact ⟨i, bs, rest, hbytes, hdecode, hrip, hrip ▸ hlt⟩

/-- Settles O55: each value is read off the state after reset; the first fetch is at CS base plus RIP. -/
theorem resetValues : Obligations.ResetValues :=
  ⟨rfl, rfl, rfl, rfl, rfl, rfl, rfl, rfl, by decide⟩

end Sys2Proof.Machine
end

section
/-! The noninterference statement of the state family (10_state.md R20): an execution reads the general registers through EDX:EAX and
through the registers its operand names, and through nothing else. -/

namespace Sys2Proof.Machine

open Sys2Proof

/-! ### The operand's address -/

section Address

variable {g : Vector Word64 16} {s : State}

theorem reg_withGprs {n : BitVec 4} (h : g.get n.toFin = s.gprs.get n.toFin) : (withGprs g s).reg n = s.reg n := h

/-- A row of the 16-bit table reads the registers `base16Regs` lists (R112). -/
theorem base16Sum_withGprs {rm : BitVec 3} (h : ∀ n ∈ base16Regs rm, g.get n.toFin = s.gprs.get n.toFin) :
    base16Sum (withGprs g s) rm = base16Sum s rm := by
  have hreg : ∀ n ∈ base16Regs rm, (withGprs g s).reg n = s.reg n := h
  unfold base16Regs at hreg
  unfold base16Sum
  split_ifs at hreg ⊢ <;> simp [hreg]

/-- A SIB byte reads its index register, number 4 being none (R110). -/
theorem indexValue_withGprs {rex : Rex} {scale : BitVec 2} {index : BitVec 3}
    (h : ∀ n ∈ indexRegs rex index, g.get n.toFin = s.gprs.get n.toFin) :
    indexValue (withGprs g s) rex scale index = indexValue s rex scale index := by
  unfold indexValue
  split
  · rfl
  · rename_i hne
    rw [reg_withGprs (h _ (by simp [indexRegs, hne]))]

/-- The address sum reads the registers the operand names (R109 to R112). -/
theorem addressSum_withGprs {o : Operand} (h : ∀ n ∈ operandRegs o, g.get n.toFin = s.gprs.get n.toFin) :
    addressSum (withGprs g s) o = addressSum s o := by
  unfold operandRegs at h
  unfold addressSum
  cases hm : o.mem with
  | base16 rm disp =>
    rw [hm] at h
    simp only [base16Sum_withGprs h]
  | abs16 v => rfl
  | base rm disp =>
    rw [hm] at h
    simp only [reg_withGprs (h _ (List.mem_singleton_self _))]
  | dispRip v => rfl
  | sib scale index base disp =>
    rw [hm] at h
    simp only [reg_withGprs (h _ List.mem_cons_self), indexValue_withGprs fun n hn => h n (List.mem_cons_of_mem _ hn)]
  | sibNoBase scale index v =>
    rw [hm] at h
    simp only [indexValue_withGprs h]

/-- So does the area: segment and address size read no general register. -/
theorem areaOf_withGprs {o : Operand} (h : ∀ n ∈ operandRegs o, g.get n.toFin = s.gprs.get n.toFin) :
    areaOf (withGprs g s) o = areaOf s o := by
  have hea : effectiveAddress (withGprs g s) o = effectiveAddress s o :=
    congrArg (truncAddr (operandSize s o)) (addressSum_withGprs h)
  unfold areaOf
  rw [hea]
  rfl

/-- EDX:EAX reads the low halves of RDX and RAX. -/
theorem instrMask_withGprs (hax : (g.get 0).extractLsb' 0 32 = (s.gprs.get 0).extractLsb' 0 32)
    (hdx : (g.get 2).extractLsb' 0 32 = (s.gprs.get 2).extractLsb' 0 32) : (withGprs g s).instrMask = s.instrMask :=
  congrArg₂ (· ++ ·) hdx hax

/-- The outcome of a stopping check carries the register file of the state it stops in. -/
theorem stop_outcome_withGprs (st : Stop) (post : State) :
    st.outcome (withGprs g post) = outcomeWithGprs g (st.outcome post) := by
  cases st <;> rfl

end Address

/-! ### The two meanings, where the mask and the area are the same -/

section Meanings

variable {g : Vector Word64 16} {s : State} {o : Operand} {d : Draws} {w : Bool} {ar : Area}

variable (hmask : (withGprs g s).instrMask = s.instrMask) (harea : areaOf (withGprs g s) o = areaOf s o)

section Restore

include hmask

theorem xrstorMasks_withGprs : xrstorMasks (withGprs g s) ar = xrstorMasks s ar := by
  unfold xrstorMasks
  rw [hmask]
  rfl

include harea

theorem xrstorEarly_withGprs : xrstorEarly d (withGprs g s) o = xrstorEarly d s o := by
  simp only [xrstorEarly, harea, xrstorMasks_withGprs hmask]
  rfl

theorem xrstorLateStop_withGprs : xrstorLateStop d (withGprs g s) o = xrstorLateStop d s o := by
  simp only [xrstorLateStop, harea, xrstorMasks_withGprs hmask]
  rfl

theorem xrstorStep_withGprs : xrstorStep d w o (withGprs g s) = outcomeWithGprs g (xrstorStep d w o s) := by
  unfold xrstorStep
  dsimp only
  rw [harea, xrstorMasks_withGprs hmask, xrstorEarly_withGprs hmask harea, xrstorLateStop_withGprs hmask harea]
  cases xrstorEarly d s o with
  | some st => exact stop_outcome_withGprs st s
  | none =>
    cases xrstorLateStop d s o with
    | some st => exact stop_outcome_withGprs st (xrstorLate d (xrstorMasks s (areaOf s o)) s)
    | none => rfl

end Restore

section Save

include hmask

theorem saveRfbm_withGprs : saveRfbm (withGprs g s) = saveRfbm s := congrArg ((s.xcr0 ||| s.xss) &&& ·) hmask

theorem saveCompmask_withGprs : saveCompmask (withGprs g s) = saveCompmask s :=
  congrArg (· ||| 0x8000000000000000#64) (saveRfbm_withGprs hmask)

theorem need_withGprs (i : Nat) : need (withGprs g s) i = need s i := by
  unfold need
  rw [saveRfbm_withGprs hmask]
  rfl

theorem stores_withGprs (i : Nat) : stores d (withGprs g s) ar i = stores d s ar i := by
  unfold stores skip modOpt
  rw [need_withGprs hmask, saveCompmask_withGprs hmask]
  rfl

theorem saveAvxBase_withGprs : saveAvxBase (withGprs g s) = saveAvxBase s :=
  congrArg (avxBaseCmp s.cfg) (saveCompmask_withGprs hmask)

theorem saveMin_withGprs : saveMin d (withGprs g s) ar = saveMin d s ar := by
  unfold saveMin
  rw [saveAvxBase_withGprs hmask]
  simp only [stores_withGprs hmask]
  rfl

theorem saveMax_withGprs : saveMax (withGprs g s) = saveMax s := by
  unfold saveMax
  rw [saveAvxBase_withGprs hmask, saveRfbm_withGprs hmask]
  rfl

theorem headerByte_withGprs (b : Nat) : headerByte (withGprs g s) b = headerByte s b := by
  unfold headerByte xstateBv
  simp only [need_withGprs hmask, saveCompmask_withGprs hmask]

theorem savedByte_withGprs : savedByte d w (withGprs g s) = savedByte d w s := by
  funext b
  unfold savedByte
  rw [saveAvxBase_withGprs hmask, headerByte_withGprs hmask]
  rfl

theorem savedMemory_withGprs : savedMemory d w (withGprs g s) ar = savedMemory d w s ar := by
  unfold savedMemory
  rw [saveMin_withGprs hmask, savedByte_withGprs hmask]
  rfl

theorem lateMemory_withGprs : lateMemory d w (withGprs g s) ar = lateMemory d w s ar := by
  unfold lateMemory
  rw [saveMin_withGprs hmask, savedByte_withGprs hmask]
  rfl

include harea

theorem xsavesAddressStop_withGprs : xsavesAddressStop d (withGprs g s) o = xsavesAddressStop d s o := by
  simp only [xsavesAddressStop, harea, saveMin_withGprs hmask, saveMax_withGprs hmask]
  rfl

theorem xsavesLate_withGprs : xsavesLate d w o (withGprs g s) = withGprs g (xsavesLate d w o s) := by
  simp only [xsavesLate, harea, saveMin_withGprs hmask, lateMemory_withGprs hmask]
  rw [apply_ite (withGprs g)]
  rfl

theorem xsavesDone_withGprs : xsavesDone d w o (withGprs g s) = withGprs g (xsavesDone d w o s) := by
  unfold xsavesDone
  rw [harea, savedMemory_withGprs hmask]
  rfl

theorem xsavesStep_withGprs : xsavesStep d w o (withGprs g s) = outcomeWithGprs g (xsavesStep d w o s) := by
  have hearly : xsavesEarly (withGprs g s) o = xsavesEarly s o := rfl
  unfold xsavesStep
  rw [hearly, xsavesAddressStop_withGprs hmask harea, xsavesLate_withGprs hmask harea, xsavesDone_withGprs hmask harea]
  cases xsavesEarly s o with
  | some st => exact stop_outcome_withGprs st s
  | none =>
    cases xsavesAddressStop d s o with
    | some st => exact stop_outcome_withGprs st (xsavesLate d w o s)
    | none => rfl

end Save

end Meanings

/-- Settles O52: both meanings read the register file through the mask and the area only, and these read the low halves of RDX and
RAX and the registers the operand names. -/
theorem onlyNamedRegistersMatter : Obligations.OnlyNamedRegistersMatter := by
  intro i s g hregs hax hdx
  have hmask := instrMask_withGprs hax hdx
  have harea := areaOf_withGprs hregs
  cases hi : i.saves with
  | false =>
    rw [exec_restore hi, exec_restore hi]
    exact xrstorStep_withGprs hmask harea
  | true =>
    rw [exec_save hi, exec_save hi]
    exact xsavesStep_withGprs hmask harea

end Sys2Proof.Machine
end

section
/-! The memory family (20_memory.md R60, R61, R72, R73): the effective address of each addressing form, the linear address of each
mode, and the fields of the x87 image. -/

namespace Sys2Proof.Machine

open Sys2Proof

/-! ### The address size -/

/-- `asz` in 64-bit mode (R107). -/
theorem addrSize_long64 {cx : DecodeCtx} {pfx : List Pfx} (h : cx.mode = .long64) :
    Sys2Proof.addrSize cx pfx = if Pfx.addrSize ∈ pfx then .a32 else .a64 := by
  simp only [Sys2Proof.addrSize, h, List.contains_iff_mem]

/-- `asz` by CS.D, 67H selecting the other (R107). -/
theorem addrSize_protected {cx : DecodeCtx} {pfx : List Pfx} (h : cx.mode = .prot ∨ cx.mode = .compat) :
    Sys2Proof.addrSize cx pfx = if cx.csD = true then (if Pfx.addrSize ∈ pfx then .a16 else .a32)
      else (if Pfx.addrSize ∈ pfx then .a32 else .a16) := by
  have hbits : Sys2Proof.addrSize cx pfx = if (cx.csD != pfx.contains .addrSize) = true then .a32 else .a16 := by
    rcases h with h | h <;> simp only [Sys2Proof.addrSize, h]
  rw [hbits]
  cases cx.csD with
  | false => simp
  | true => simp

/-- `asz` in real-address and virtual-8086 mode (R107). -/
theorem addrSize_real {cx : DecodeCtx} {pfx : List Pfx} (h : cx.mode = .real ∨ cx.mode = .v8086) :
    Sys2Proof.addrSize cx pfx = if Pfx.addrSize ∈ pfx then .a32 else .a16 := by
  rcases h with h | h <;> simp only [Sys2Proof.addrSize, h, List.contains_iff_mem]

theorem sixteen_le_bits (asz : AddrSize) : 16 ≤ asz.bits := by
  cases asz <;> decide

theorem effectiveAddress_lt (s : State) (o : Operand) : (effectiveAddress s o).toNat < 2 ^ (operandSize s o).bits := by
  rw [effectiveAddress, truncAddr_toNat]
  exact Nat.mod_lt _ (Nat.two_pow_pos _)

/-! ### The address sum of each form, as an integer (R109 to R112) -/

section AddressSum

variable {s : State} {o : Operand}

theorem wordIs_addressSum_base {rm : BitVec 3} {d : Disp 32} {n : Fin 16} (hm : o.mem = .base rm d)
    (hn : n.val = 8 * o.rex.b.toNat + rm.toNat) : WordIs (addressSum s o) ((s.gprs.get n).toNat + d.signed) := by
  simp only [addressSum, hm]
  exact (WordIs.reg hn).add (.dispValue d (by decide))

theorem wordIs_addressSum_dispRip {v : BitVec 32} (hm : o.mem = .dispRip v) :
    WordIs (addressSum s o) (if s.mode = .long64 then s.rip.toNat + o.len + v.toInt else v.toInt) := by
  have hlen : WordIs (BitVec.ofNat 64 o.len) o.len := by
    rw [WordIs, BitVec.toNat_ofNat]
    push_cast
    exact Int.mod_modEq _ _
  simp only [addressSum, hm]
  split
  · exact ((WordIs.of_toNat _).add hlen).add (.signExtend v (by decide))
  · exact .signExtend v (by decide)

theorem wordIs_addressSum_sib {scale : BitVec 2} {idx base : BitVec 3} {d : Disp 32} {n m : Fin 16}
    (hm : o.mem = .sib scale idx base d) (hn : n.val = 8 * o.rex.b.toNat + base.toNat)
    (hx : m.val = 8 * o.rex.x.toNat + idx.toNat) :
    WordIs (addressSum s o)
      ((s.gprs.get n).toNat + (if m = 4 then 0 else ((s.gprs.get m).toNat : Int) * 2 ^ scale.toNat) + d.signed) := by
  simp only [addressSum, hm]
  exact ((WordIs.reg hn).add (.indexValue scale hx)).add (.dispValue d (by decide))

theorem wordIs_addressSum_sibNoBase {scale : BitVec 2} {idx : BitVec 3} {v : BitVec 32} {m : Fin 16}
    (hm : o.mem = .sibNoBase scale idx v) (hx : m.val = 8 * o.rex.x.toNat + idx.toNat) :
    WordIs (addressSum s o) ((if m = 4 then 0 else ((s.gprs.get m).toNat : Int) * 2 ^ scale.toNat) + v.toInt) := by
  simp only [addressSum, hm]
  exact (WordIs.indexValue scale hx).add (.signExtend v (by decide))

/-- A row of the 16-bit table: its registers and the displacement (R112). -/
theorem wordIs_addressSum_base16 {rm : BitVec 3} {d : Disp 16} {z : Int} (hm : o.mem = .base16 rm d)
    (hz : WordIs (base16Sum s rm) z) : WordIs (addressSum s o) (z + d.signed) := by
  simp only [addressSum, hm]
  exact hz.add (.dispValue d (by decide))

/-- disp16 alone is below every `2^asz` (R112). -/
theorem effectiveAddress_abs16 {v : BitVec 16} (hm : o.mem = .abs16 v) : (effectiveAddress s o).toNat = v.toNat := by
  have hv : v.toNat < 2 ^ (operandSize s o).bits :=
    v.isLt.trans_le (Nat.pow_le_pow_right (by decide) (sixteen_le_bits _))
  have hsum : (addressSum s o).toNat = v.toNat := by
    simp only [addressSum, hm, BitVec.toNat_setWidth]
    exact Nat.mod_eq_of_lt (v.isLt.trans (by decide))
  rw [effectiveAddress, truncAddr_toNat, hsum, Nat.mod_eq_of_lt hv]

end AddressSum

/-- Settles O54: the effective address is the form's sum, an integer modulo `2^64`, cut to `asz` bits. -/
theorem effectiveAddressWithinSize : Obligations.EffectiveAddressWithinSize := by
  intro s i ar size ea reg index b x
  have cut {z : Int} (h : WordIs (addressSum s (operandOf i)) z) : ea = z % size := effectiveAddress_toNat h
  refine ⟨fun h => addrSize_long64 h, fun h => addrSize_protected h, fun h => addrSize_real h, ?_, ?_, ?_, ?_, ?_, ?_, ?_⟩
  · show ((effectiveAddress s (operandOf i)).toNat : Int) < 2 ^ (operandSize s (operandOf i)).bits
    exact_mod_cast effectiveAddress_lt s (operandOf i)
  · exact fun rm d n hm hn => cut (wordIs_addressSum_base hm hn)
  · intro v hm
    rw [cut (wordIs_addressSum_dispRip hm)]
    exact apply_ite (· % size) _ _ _
  · exact fun scale idx base d n m hm hn hx => cut (wordIs_addressSum_sib hm hn hx)
  · exact fun scale idx v m hm hx => cut (wordIs_addressSum_sibNoBase hm hx)
  · exact fun v hm => congrArg Nat.cast (effectiveAddress_abs16 hm)
  · intro rm d hm
    have two (n m : BitVec 4) : WordIs (s.reg n + s.reg m) (reg n.toFin + reg m.toFin) :=
      (WordIs.of_toNat _).add (.of_toNat _)
    have one (n : BitVec 4) : WordIs (s.reg n) (reg n.toFin) := .of_toNat _
    have row {z : Int} (hz : WordIs (base16Sum s rm) z) : ea = (z + d.signed) % size :=
      cut (wordIs_addressSum_base16 hm hz)
    refine ⟨?_, ?_, ?_, ?_, ?_, ?_, ?_, ?_⟩ <;> rintro rfl
    · exact row (two 3 6)
    · exact row (two 3 7)
    · exact row (two 5 6)
    · exact row (two 5 7)
    · exact row (one 6)
    · exact row (one 7)
    · exact row (one 5)
    · exact row (one 3)

/-! ### The linear address (R60) -/

theorem linear_toNat_of_ne_long64 {s : State} (h : s.mode ≠ .long64) (n : SegName) (ea : Word64) :
    (linear s n ea).toNat = ((segBase s n).toNat + ea.toNat) % 2 ^ 32 := by
  rw [linear, truncLinear, if_neg h, truncAddr_toNat, BitVec.toNat_add]
  exact Nat.mod_mod_of_dvd _ (by decide)

theorem linear_of_long64 {s : State} (h : s.mode = .long64) (n : SegName) (ea : Word64) :
    linear s n ea = segBase s n + ea := by
  rw [linear, truncLinear, if_pos h]
  rfl

/-- The base of real-address and virtual-8086 mode does not overflow (GK18). -/
theorem segBase_toNat_of_real {s : State} (h : s.mode = .real ∨ s.mode = .v8086) (n : SegName) :
    (segBase s n).toNat = 16 * (s.segs.get n).selector.toNat := by
  have hbase : segBase s n = (s.segs.get n).selector.setWidth 64 <<< 4 := by
    rcases h with h | h <;> simp only [segBase, h]
  have hlt := (s.segs.get n).selector.isLt
  rw [hbase, BitVec.toNat_shiftLeft, BitVec.toNat_setWidth, Nat.shiftLeft_eq]
  omega

theorem segBase_of_protected {s : State} (h : s.mode = .prot ∨ s.mode = .compat) (n : SegName) :
    segBase s n = (s.segs.get n).base := by
  rcases h with h | h <;> simp only [segBase, h]

theorem segBase_of_fs_or_gs {s : State} {n : SegName} (h : s.mode = .long64) (hn : n = .fs ∨ n = .gs) :
    segBase s n = (s.segs.get n).base := by
  rcases hn with rfl | rfl <;> simp only [segBase, h, Segs.get]

theorem segBase_eq_zero {s : State} {n : SegName} (h : s.mode = .long64) (hfs : n ≠ .fs) (hgs : n ≠ .gs) :
    segBase s n = 0 := by
  cases n <;> simp_all [segBase]

/-- Settles O53: the base of each mode, added and taken modulo the width of its linear addresses. -/
theorem linearAddressByMode : Obligations.LinearAddressByMode := by
  refine ⟨fun s i => rfl, fun s n ea => ⟨fun h => ?_, fun h => ?_, fun h hn => ?_, fun h hfs hgs => ?_⟩⟩
  · rw [linear_toNat_of_ne_long64 (by rcases h with h | h <;> simp [h]), segBase_toNat_of_real h]
  · rw [linear_toNat_of_ne_long64 (by rcases h with h | h <;> simp [h]), segBase_of_protected h]
  · rw [linear_of_long64 h, segBase_of_fs_or_gs h hn, BitVec.toNat_add]
  · rw [linear_of_long64 h, segBase_eq_zero h hfs hgs]
    exact BitVec.zero_add ea

/-! ### The x87 image (R72, R73) -/

/-- A one-byte field is its byte. -/
theorem ofNat_readLE_one (m : Memory) (a : Nat) : BitVec.ofNat 8 (m.readLE a 1) = m.read a := by
  simp [Memory.readLE]

/-- Settles O11: each register is as wide as its field, but FOP, which keeps the low 11 bits. -/
theorem loadX87FieldsByForm : Obligations.LoadX87FieldsByForm := by
  intro d m la
  refine ⟨fun w => ⟨?_, ?_, ?_, ?_, fun j => ?_⟩, ?_, ?_, ?_, ?_, ?_, ?_⟩
  · exact toNat_readLE m la 2 16 le_rfl
  · exact toNat_readLE m (la + 2) 2 16 le_rfl
  · exact ofNat_readLE_one m (la + 4)
  · exact BitVec.toNat_ofNat _ _
  · rw [loadX87, get_ofFn]
    exact toNat_readLE m _ 10 80 le_rfl
  · exact toNat_readLE m (la + 8) 4 64 (by decide)
  · exact toNat_readLE m (la + 12) 2 16 le_rfl
  · exact toNat_readLE m (la + 16) 4 64 (by decide)
  · exact toNat_readLE m (la + 20) 2 16 le_rfl
  · exact toNat_readLE m (la + 8) 8 64 le_rfl
  · exact toNat_readLE m (la + 16) 8 64 le_rfl

end Sys2Proof.Machine
end

section
/-! The address checks of the memory family (20_memory.md R62 to R67, R80, R81, R86): where each check of a pass stops it, what an
instruction then answers, and the family's statements about faults and refusals. -/

namespace Sys2Proof.Machine

open Sys2Proof

/-! ### A pass whose earlier checks let it through (R64, R80) -/

section Pass

variable {d : Draws} {s : State} {ar : Area} {acc : Access} {first : Bool} {min max : List Nat} {st : Stop}

/-- A byte of `MIN` outside the limit or not canonical stops a pass that does not wrap. -/
theorem addressChecks_of_badAddress (hw : NoWrap s ar max) (hbad : ∃ o ∈ min, byteAddressOk s ar o = false) :
    addressChecks d s ar acc first min max = some (addressFault s.mode ar.seg) := by
  simp only [addressChecks, firstStop_cons, wrapStop_eq_none hw, limitStop_eq_some hbad, Option.none_or, Option.some_or]

theorem addressChecks_of_alignStop (hw : NoWrap s ar max) (hok : ∀ o ∈ min, byteAddressOk s ar o = true)
    (h : alignStop d s ar = some st) : addressChecks d s ar acc true min max = some st := by
  simp only [addressChecks, firstStop_cons, wrapStop_eq_none hw, limitStop_eq_none.2 hok, if_true, h, Option.none_or,
    Option.some_or]

/-- The pass that judges alignment does not stop there on an aligned area. -/
theorem alignStop_ite_eq_none (ha : first = true → Aligned64 ar) : (if first then alignStop d s ar else none) = none := by
  cases first with
  | true => exact alignStop_eq_none (ha rfl)
  | false => rfl

theorem addressChecks_of_pageStop (hw : NoWrap s ar max) (hok : ∀ o ∈ min, byteAddressOk s ar o = true)
    (ha : first = true → Aligned64 ar) (h : pageStop s ar acc min = some st) :
    addressChecks d s ar acc first min max = some st := by
  simp only [addressChecks, firstStop_cons, wrapStop_eq_none hw, limitStop_eq_none.2 hok, alignStop_ite_eq_none ha, h,
    Option.none_or, Option.some_or]

theorem pageFaultAt_of_reachable {o : Nat} (h : ByteReachable s ar acc o) : pageFaultAt s ar acc o = none :=
  pageFaultAt_eq_none.2 h.translated

/-- `MIN` can be accessed, a byte of `MAX` cannot: neither the fault nor the completion is claimed (D8). -/
theorem addressChecks_of_unreachable (ha : first = true → Aligned64 ar) (hw : NoWrap s ar max)
    (hmin : ∀ o ∈ min, ByteReachable s ar acc o) (hmax : ∃ o ∈ max, ¬ ByteReachable s ar acc o) :
    addressChecks d s ar acc first min max = some (.refuse .footprint) := by
  have hlimit : limitStop s ar min = none := limitStop_eq_none.2 fun o ho => (hmin o ho).address
  have hpage : pageStop s ar acc min = none := pageStop_eq_none.2 fun o ho => pageFaultAt_of_reachable (hmin o ho)
  simp only [addressChecks, firstStop_cons, wrapStop_eq_none hw, hlimit, alignStop_ite_eq_none ha, hpage,
    footprintStop_eq_some hmax, Option.none_or, Option.some_or]

/-- Every byte can be reached: what is left is the check of what else touches the memory. -/
theorem addressChecks_of_reachable (ha : first = true → Aligned64 ar) (hw : NoWrap s ar max)
    (hmax : ∀ o ∈ max, ByteReachable s ar acc o) (hsub : ∀ o ∈ min, o ∈ max) :
    addressChecks d s ar acc first min max = memoryStop s ar acc max := by
  have hlimit : limitStop s ar min = none := limitStop_eq_none.2 fun o ho => (hmax o (hsub o ho)).address
  have hpage : pageStop s ar acc min = none :=
    pageStop_eq_none.2 fun o ho => pageFaultAt_of_reachable (hmax o (hsub o ho))
  have hfoot : footprintStop s ar acc max = none :=
    footprintStop_eq_none.2 fun o ho => ⟨(hmax o ho).address, pageFaultAt_of_reachable (hmax o ho)⟩
  simp only [addressChecks, firstStop_cons, firstStop_nil, wrapStop_eq_none hw, hlimit, alignStop_ite_eq_none ha, hpage, hfoot,
    Option.none_or, Option.or_none]

end Pass

/-! ### The alignment check (R66, R67) -/

section Alignment

variable {d : Draws} {s : State} {ar : Area}

/-- The two bases disagree (D4). -/
theorem alignStop_of_disagree (h : ¬ (ar.laxa.toNat % 64 = 0 ↔ ar.ea.toNat % 64 = 0)) :
    alignStop d s ar = some (.refuse .alignBasis) := by
  have hne : (decide (ar.laxa.toNat % 64 = 0) != decide (ar.ea.toNat % 64 = 0)) = true := by
    rw [bne_iff_ne, ne_eq, decide_eq_decide]
    exact h
  rw [alignStop, if_pos hne]

/-- Misaligned on both bases: #AC(0) where it is signaled, else #GP(0). -/
theorem alignStop_of_misaligned (hl : ar.laxa.toNat % 64 ≠ 0) (he : ar.ea.toNat % 64 ≠ 0) :
    alignStop d s ar = some (if acSignaled d s ar then .raise .ac (some 0) none else gpZero s.mode) := by
  have hbasis : alignmentOf s ar ≠ 0 := by
    unfold alignmentOf
    split
    · exact hl
    · exact he
  rw [alignStop, if_neg (by simp [hl, he]), if_neg hbasis]
  exact (apply_ite some _ _ _).symm

/-- No #AC without alignment checking, nor in real-address mode. -/
theorem acSignaled_eq_false (h : s.acEnabled = false ∨ s.mode = .real) : acSignaled d s ar = false := by
  rcases h with h | h <;> simp [acSignaled, h]

/-- With alignment checking outside real-address mode the table answers, or, left open, the draw (D5). -/
theorem acSignaled_of_enabled (hac : s.acEnabled = true) (hreal : s.mode ≠ .real) :
    acSignaled d s ar = (s.cfg.acOnMisalign.map fun table => table.getLsbD (ar.laxa.toNat % 64)).getD d.ac := by
  unfold acSignaled
  cases s.cfg.acOnMisalign <;> simp [hac, hreal]

end Alignment

/-! ### The first page fault of a sorted footprint (R81) -/

/-- The offsets rise strictly within `lo` to `hi`: the footprints list the bytes in the order of access (R80). -/
structure SortedIn (lo hi : Nat) (l : List Nat) : Prop where
  le     : lo ≤ hi
  sorted : l.Pairwise (· < ·)
  bounds : ∀ o ∈ l, lo ≤ o ∧ o < hi

theorem SortedIn.span {lo hi a n : Nat} (hlo : lo ≤ a) (hhi : a + n ≤ hi) : SortedIn lo hi (span a n) where
  le := by omega
  sorted := List.pairwise_lt_range'
  bounds o ho := by
    have := mem_span.1 ho
    omega

theorem SortedIn.ite {lo hi : Nat} {l : List Nat} (b : Bool) (h : SortedIn lo hi l) :
    SortedIn lo hi (if b then l else []) := by
  cases b with
  | true => exact h
  | false => exact ⟨h.le, .nil, by simp⟩

theorem SortedIn.append {lo mid hi : Nat} {l r : List Nat} (hl : SortedIn lo mid l) (hr : SortedIn mid hi r) :
    SortedIn lo hi (l ++ r) where
  le := hl.le.trans hr.le
  sorted := List.pairwise_append.2
    ⟨hl.sorted, hr.sorted, fun a ha b hb => (hl.bounds a ha).2.trans_le (hr.bounds b hb).1⟩
  bounds o ho := by
    rcases List.mem_append.1 ho with ho | ho
    · exact ⟨(hl.bounds o ho).1, (hl.bounds o ho).2.trans_le hr.le⟩
    · exact ⟨hl.le.trans (hr.bounds o ho).1, (hr.bounds o ho).2⟩

/-- AVX state lies behind the header in both formats (R78, R79). -/
theorem le_avxBase {cfg : Cfg} (hv : Cfg.valid cfg = true) (k : Masks) : cfg.hdrOff + 64 ≤ k.avxBase cfg := by
  obtain ⟨_, _, _, hext, _⟩ := Cfg.valid_data hv
  unfold Masks.avxBase
  split
  · exact le_avxBaseStd hv
  · rw [avxBaseCmp_eq hv]
    exact hext

theorem loadMin_sorted {cfg : Cfg} (hv : Cfg.valid cfg = true) (mode : Mode) (k : Masks) :
    (loadMin cfg mode k).Pairwise (· < ·) := by
  obtain ⟨_, _, hhdr, _⟩ := Cfg.valid_data hv
  have havx := le_avxBase hv k
  have hn := nVec_le mode
  have hx87Low : SortedIn 0 24 x87Low := .span (by omega) (by omega)
  have hmxcsr : SortedIn 24 32 mxcsrBytes := .span (by omega) (by omega)
  have hx87High : SortedIn 32 160 x87High := .span (by omega) (by omega)
  have hxmm : SortedIn 160 416 (xmmBytes mode) := .span (by omega) (by omega)
  have hymm : SortedIn 416 (k.avxBase cfg + 256) (avxBytes mode (k.avxBase cfg)) := .span (by omega) (by omega)
  exact (((((hx87Low.ite _).append (hmxcsr.ite _)).append (hx87High.ite _)).append (hxmm.ite _)).append (hymm.ite _)).sorted

theorem saveMin_sorted {d : Draws} {s : State} {ar : Area} (hv : Cfg.valid s.cfg = true) :
    (saveMin d s ar).Pairwise (· < ·) := by
  obtain ⟨_, _, hhdr, hext, _⟩ := Cfg.valid_data hv
  have hbase := saveAvxBase_eq hv
  have hn := nVec_le s.mode
  have hx87Low : SortedIn 0 24 x87Low := .span (by omega) (by omega)
  have hcontrol : SortedIn 24 32 sseControlBytes := .span (by omega) (by omega)
  have hx87High : SortedIn 32 160 x87High := .span (by omega) (by omega)
  have hxmm : SortedIn 160 416 (xmmBytes s.mode) := .span (by omega) (by omega)
  have hheader : SortedIn 416 (s.cfg.hdrOff + 64) (span s.cfg.hdrOff 16) := .span (by omega) (by omega)
  have hymm : SortedIn (s.cfg.hdrOff + 64) (saveAvxBase s + 256) (avxBytes s.mode (saveAvxBase s)) :=
    .span (by omega) (by omega)
  exact ((((((hx87Low.ite _).append (hcontrol.ite _)).append (hx87High.ite _)).append (hxmm.ite _)).append hheader).append
    (hymm.ite _)).sorted

/-- In a rising list the first hit is the one below which there is none. -/
theorem findSome?_of_sorted {β : Type} {l : List Nat} {f : Nat → Option β} {o : Nat} {b : β} (hsort : l.Pairwise (· < ·))
    (ho : o ∈ l) (hb : f o = some b) (hfirst : ∀ o' ∈ l, o' < o → f o' = none) : l.findSome? f = some b := by
  obtain ⟨before, after, rfl⟩ := List.append_of_mem ho
  have hbefore : before.findSome? f = none := List.findSome?_eq_none_iff.2 fun o' ho' =>
    hfirst o' (List.mem_append_left _ ho') ((List.pairwise_append.1 hsort).2.2 o' ho' o List.mem_cons_self)
  rw [List.findSome?_append, hbefore, Option.none_or, List.findSome?_cons_of_isSome]
  · exact hb
  · simp [hb]

/-- The page check stops at the first byte of a sorted `MIN` whose translation fails. -/
theorem pageStop_of_first {s : State} {ar : Area} {acc : Access} {min : List Nat} {o : Nat} {code : BitVec 32}
    (hsort : min.Pairwise (· < ·)) (hreal : s.mode ≠ .real) (ho : o ∈ min)
    (hcode : translate s.env (ar.at o) acc s.cpl = some code)
    (hfirst : ∀ o' ∈ min, o' < o → translate s.env (ar.at o') acc s.cpl = none) :
    pageStop s ar acc min = some (if s.vmxnr then .refuse .vmxTranslate
      else .raise .pf (some code) (some (BitVec.ofNat 64 (ar.at o)))) := by
  have hfault : pageFaultAt s ar acc o = some (BitVec.ofNat 64 (ar.at o), code) := by
    rw [pageFaultAt, if_neg hreal, hcode]
    rfl
  have hnone : ∀ o' ∈ min, o' < o → pageFaultAt s ar acc o' = none := fun o' ho' hlt =>
    pageFaultAt_eq_none.2 fun _ => hfirst o' ho' hlt
  rw [pageStop, findSome?_of_sorted hsort ho hfault hnone]
  rfl

/-! ### An instruction whose checks stop -/

section Stops

variable {i : Instr} {s : State} {st : Stop}

/-- Every form stops at the alignment check with the state unchanged, XSAVES because nothing is accessed before it (R66; log 20). -/
theorem exec_alignStop (e : Enabled s (operandOf i))
    (hsave : i.saves = true → s.cfg.xss = true ∧ s.cpl = 0#2 ∧ s.vmxnr = false)
    (hw : NoWrap s (areaOf s (operandOf i)) (if i.saves then saveMax s else headerMax s.cfg))
    (hok : ∀ o ∈ (if i.saves then saveMax s else headerMax s.cfg), byteAddressOk s (areaOf s (operandOf i)) o = true)
    (h : alignStop (Draws.at s.draws) s (areaOf s (operandOf i)) = some st) : exec i s = st.outcome s := by
  cases hi : i.saves with
  | false =>
    rw [hi] at hw hok
    exact exec_restore_stop hi e (addressChecks_of_alignStop hw (fun o ho => hok o (headerMin_subset o ho)) h)
  | true =>
    rw [hi] at hw hok
    obtain ⟨hxss, hcpl, hvmx⟩ := hsave hi
    have hmin : ∀ o ∈ saveMin (Draws.at s.draws) s (areaOf s (operandOf i)), byteAddressOk s (areaOf s (operandOf i)) o = true :=
      fun o ho => hok o (saveMin_subset e.cfg o ho)
    have hlate : xsavesLate (Draws.at s.draws) i.wide (operandOf i) s = s := by
      simp [xsavesLate, limitStop_eq_none.2 hmin, h]
    rw [exec_save_stop hi e hxss hcpl hvmx (addressChecks_of_alignStop hw hmin h), hlate]

theorem headerBad_of_legal {ar : Area} (h : StandardHeader s ar ∨ CompactedHeader s ar) :
    headerBad s ar (xrstorMasks s ar) = false :=
  h.elim headerBad_of_standard headerBad_of_compacted

/-- XRSTOR where pass 2 of the address checks stops, after a usable and legal header (R130 S7). -/
theorem exec_restore_pass2_stop (hi : i.saves = false) (e : Enabled s (operandOf i)) (ha : Aligned64 (areaOf s (operandOf i)))
    (hu : BytesUsable s (areaOf s (operandOf i)) .read (headerMax s.cfg))
    (hh : StandardHeader s (areaOf s (operandOf i)) ∨ CompactedHeader s (areaOf s (operandOf i)))
    (h : addressChecks (Draws.at s.draws) s (areaOf s (operandOf i)) .read false
      (loadMin s.cfg s.mode (xrstorMasks s (areaOf s (operandOf i))))
      (loadMax s.cfg s.xcr0 (xrstorMasks s (areaOf s (operandOf i)))) = some st) :
    exec i s = st.outcome (xrstorLate (Draws.at s.draws) (xrstorMasks s (areaOf s (operandOf i))) s) := by
  obtain ⟨hlaunch, hpre⟩ := xrstorPre_of_enabled e
  refine exec_restore_lateStop hi (xrstorEarly_eq_none.2 ⟨hlaunch, hpre, ?_, headerBad_of_legal hh⟩) ?_
  · exact addressChecks_eq_none hu headerMin_subset fun _ => ha
  · simp only [xrstorLateStop, firstStop_cons, h, Option.some_or]

end Stops

/-- What an exception of XSAVES leaves is the state but for memory and the count of draws (R182). -/
theorem xsavesLate_keeps_registers (d : Draws) (w : Bool) (o : Operand) (s : State) :
    SameContext s (xsavesLate d w o s) ∧ SameComponents s (xsavesLate d w o s) ∧ (xsavesLate d w o s).rip = s.rip := by
  unfold xsavesLate
  dsimp only
  split
  · exact ⟨by constructor <;> rfl, by constructor <;> rfl, rfl⟩
  · exact ⟨by constructor <;> rfl, by constructor <;> rfl, rfl⟩

/-! ### The statements: addresses and alignment -/

/-- Settles O31: the limit check of pass 1 comes before every other check of the header but the one for wrapping. -/
theorem xrstorAddressFault : Obligations.XrstorAddressFault := by
  intro i s hi e ar hlin heff hbad
  rw [exec_restore_stop hi e (addressChecks_of_badAddress ⟨hlin, heff⟩ hbad)]
  exact addressFault_outcome s ar s

/-- Settles O58: with a legal header the same check of pass 2 decides, and leaves the late state. -/
theorem xrstorComponentAddressFault : Obligations.XrstorComponentAddressFault := by
  intro i s hi e ar k ha hu hh hw hbad
  refine ⟨xrstorLate (Draws.at s.draws) k s, ?_, rfl, rfl, rfl⟩
  rw [exec_restore_pass2_stop hi e ha hu hh (addressChecks_of_badAddress hw hbad)]
  exact addressFault_outcome s ar _

/-- Settles O59: likewise in the one pass of XSAVES. -/
theorem xsavesAddressFault : Obligations.XsavesAddressFault := by
  intro i s hi e hxss hcpl hvmx ar hw hbad
  refine ⟨xsavesLate (Draws.at s.draws) i.wide (operandOf i) s, ?_, xsavesLate_keeps_registers ..⟩
  rw [exec_save_stop hi e hxss hcpl hvmx (addressChecks_of_badAddress hw hbad)]
  exact addressFault_outcome s ar _

/-- Settles O32: a misaligned area stops at the alignment check, with #GP(0) as no #AC is signaled. -/
theorem misalignedAreaFaults : Obligations.MisalignedAreaFaults := by
  intro i s e hsave ar max hmax heff hl he hac
  have hstop : alignStop (Draws.at s.draws) s ar = some (gpZero s.mode) := by
    rw [alignStop_of_misaligned hl he, acSignaled_eq_false hac]
    rfl
  exact exec_alignStop e hsave ⟨fun o ho => (hmax o ho).1, heff⟩ (fun o ho => (hmax o ho).2) hstop

/-- Settles O34: the two bases disagree at the alignment check. -/
theorem alignmentBasisRefused : Obligations.AlignmentBasisRefused := by
  intro i s e hsave ar max hmax heff hdis
  exact exec_alignStop e hsave ⟨fun o ho => (hmax o ho).1, heff⟩ (fun o ho => (hmax o ho).2) (alignStop_of_disagree hdis)

/-- Settles O33: a misaligned area stops at the alignment check, with #AC(0) where the table or the draw says so. -/
theorem alignmentCheckInPlaceOfGeneralProtection : Obligations.AlignmentCheckInPlaceOfGeneralProtection := by
  intro i s hi e ar hmax heff hl he hac hreal
  have hexec : exec i s =
      .fault (.exception (if acSignaled (Draws.at s.draws) s ar then .ac else .gp) (some 0) none s) := by
    rw [exec_alignStop e (by simp [hi]) ⟨?_, ?_⟩ ?_ (alignStop_of_misaligned hl he)]
    · cases acSignaled (Draws.at s.draws) s ar with
      | true => rfl
      | false => simp [gpZero, errZero, hreal, Stop.outcome, raiseExc]
    · simpa [hi] using fun o ho => (hmax o ho).1
    · simpa [hi] using fun _ => heff
    · simpa [hi] using fun o ho => (hmax o ho).2
  rw [acSignaled_of_enabled hac hreal] at hexec
  refine ⟨fun table ht => ?_, fun _ => ⟨_, ?_, hexec⟩⟩
  · rw [ht] at hexec
    exact hexec
  · split
    · exact .inl rfl
    · exact .inr rfl

/-! ### The statements: page faults -/

/-- Settles O35: header bytes are checked in rising order, and nothing before the page check stops. -/
theorem xrstorHeaderPageFault : Obligations.XrstorHeaderPageFault := by
  intro i s o code hi e ar ha hreal hmax ho hcode hfirst
  have hw : NoWrap s ar (headerMax s.cfg) := ⟨fun o' ho' => (hmax o' ho').1, fun _ o' ho' => (hmax o' ho').2.2⟩
  have hok : ∀ o' ∈ headerMin s.cfg, byteAddressOk s ar o' = true := fun o' ho' => (hmax o' (headerMin_subset o' ho')).2.1
  have hmem : s.cfg.hdrOff + o ∈ headerMin s.cfg := mem_span.2 ⟨by omega, by omega⟩
  have hbelow : ∀ o' ∈ headerMin s.cfg, o' < s.cfg.hdrOff + o → translate s.env (ar.at o') .read s.cpl = none := by
    intro o' ho' hlt
    obtain ⟨j, rfl⟩ := Nat.exists_eq_add_of_le (mem_span.1 ho').1
    exact hfirst j (by omega)
  have hstop := pageStop_of_first List.pairwise_lt_range' hreal hmem hcode hbelow
  rw [exec_restore_stop hi e (addressChecks_of_pageStop hw hok (fun _ => ha) hstop)]
  cases s.vmxnr <;> rfl

/-- Settles O38: the bytes of the components are checked in rising order, after a legal header. -/
theorem xrstorComponentPageFault : Obligations.XrstorComponentPageFault := by
  intro i s hi e hreal hvmx ar k ha hu hh hmax o ho code hcode hfirst
  have hw : NoWrap s ar (loadMax s.cfg s.xcr0 k) := ⟨fun o' ho' => (hmax o' ho').1, fun _ o' ho' => (hmax o' ho').2.1⟩
  have hok : ∀ o' ∈ loadMin s.cfg s.mode k, byteAddressOk s ar o' = true := fun o' ho' =>
    (hmax o' (loadMin_subset e.cfg (headerBad_of_legal hh) o' ho')).2.2
  have hstop := pageStop_of_first (loadMin_sorted e.cfg s.mode k) hreal ho hcode hfirst
  refine ⟨xrstorLate (Draws.at s.draws) k s, ?_, rfl, rfl, rfl⟩
  rw [exec_restore_pass2_stop hi e ha hu hh (addressChecks_of_pageStop hw hok (by simp) hstop), hvmx]
  rfl

/-- Settles O39: the bytes XSAVES writes are checked in rising order. -/
theorem xsavesPageFault : Obligations.XsavesPageFault := by
  intro i s hi e hxss hcpl hvmx hreal ar min ha hmax o ho code hcode hfirst
  have hw : NoWrap s ar (saveMax s) := ⟨fun o' ho' => (hmax o' ho').1, fun _ o' ho' => (hmax o' ho').2.1⟩
  have hok : ∀ o' ∈ min, byteAddressOk s ar o' = true := fun o' ho' => (hmax o' (saveMin_subset e.cfg o' ho')).2.2
  have hstop := pageStop_of_first (saveMin_sorted e.cfg) hreal ho hcode hfirst
  refine ⟨xsavesLate (Draws.at s.draws) i.wide (operandOf i) s, ?_, xsavesLate_keeps_registers ..⟩
  rw [exec_save_stop hi e hxss hcpl hvmx (addressChecks_of_pageStop hw hok (fun _ => ha) hstop), hvmx]
  rfl

/-! ### The statements: refused footprints -/

/-- Settles O40: in each pass the check of `MAX` is the first to stop. -/
theorem uncertainFootprintRefused : Obligations.UncertainFootprintRefused := by
  intro i s e ar k ha
  refine ⟨fun hi hxss hcpl hvmx hw hmin hmax => ?_, fun hi hw hmin hmax => ?_, fun hi hu hh hw hmin hmax => ?_⟩
  · exact exec_save_stop hi e hxss hcpl hvmx (addressChecks_of_unreachable (fun _ => ha) hw hmin hmax)
  · exact exec_restore_stop hi e (addressChecks_of_unreachable (fun _ => ha) hw hmin hmax)
  · exact exec_restore_pass2_stop hi e ha hu hh (addressChecks_of_unreachable (by simp) hw hmin hmax)

/-- A write to ordinary memory that no other agent touches, over a byte of the program text (R86). -/
theorem memoryStop_of_text {s : State} {ar : Area} {max : List Nat}
    (hord : ∀ r ∈ s.env.nonOrdinary, ∀ o ∈ max, r.has (ar.at o) = false)
    (hagents : ∀ x ∈ s.env.others, ∀ o ∈ max, x.range.has (ar.at o) = false)
    (htext : ∃ o ∈ max, s.text.has (ar.at o) = true) : memoryStop s ar .write max = some (.refuse .selfModifying) := by
  have hno : s.env.nonOrdinary.any (overlaps ar max) = false := by
    simpa [overlaps] using hord
  have hnr : s.env.others.any (races ar .write max) = false := by
    simpa [races, overlaps] using hagents
  have hover : max.any (fun o => s.text.has (ar.at o)) = true := List.any_eq_true.2 htext
  simp [memoryStop, hno, hnr, hover]

/-- Settles O41: an area usable but for the program text passes every check before the one for it. -/
theorem selfModifyingSaveRefused : Obligations.SelfModifyingSaveRefused := by
  intro i s hi e hxss hcpl hvmx ar ha hu htext
  have hw : NoWrap s ar (saveMax s) := ⟨hu.linear, hu.effective⟩
  have hreach : ∀ o ∈ saveMax s, ByteReachable s ar .write o := fun o ho =>
    ⟨hu.address o ho, fun hreal => hu.translated hreal o ho⟩
  have hmemory : memoryStop s ar .write (saveMax s) = some (.refuse .selfModifying) :=
    memoryStop_of_text (s := s) hu.ordinary (fun x hx => hu.unshared x hx (.inr rfl)) htext
  exact exec_save_stop hi e hxss hcpl hvmx
    ((addressChecks_of_reachable (fun _ => ha) hw hreach (saveMin_subset e.cfg)).trans hmemory)

end Sys2Proof.Machine
end

section
/-! The round trips of the encoding family (30_encoding.md R100 to R117): the decoder run on an encoding, the decoder's answer taken
apart, and from the two the family's statements about bytes. -/

namespace Sys2Proof

/-! ### Well-formedness, and decoding in its three parts -/

theorem wellFormed_iff {cx : DecodeCtx} {i : Instr} :
    WellFormed cx i = true ↔ i.mem.formOk = true ∧ i.sizeOk cx = true ∧ i.rexOk cx = true ∧ i.length ≤ 15 := by
  simp only [WellFormed, Instr.lengthOk, Bool.and_eq_true, decide_eq_true_eq, and_assoc]

/-- Legacy bytes, then the REX byte, then the rest (R100). -/
theorem decode_eq_decodeTail {cx : DecodeCtx} {bs bs1 bs2 : List Byte} {pfx : List Pfx} {rex : Option (BitVec 4)}
    (hpfx : takePfxs bs = (pfx, bs1)) (hrex : takeRex cx.mode bs1 = (rex, bs2)) :
    decode cx bs = decodeTail cx pfx rex bs2 := by
  simp only [decode, hpfx, hrex]

/-! ### Decoding an encoding -/

/-- What follows the legacy bytes of an instruction begins with a REX byte or with 0FH, and neither is a legacy byte. -/
theorem takePfxs_encode (i : Instr) (bs : List Byte) :
    takePfxs (i.pfxs.map encodePfx ++ (i.rexBytes ++ 0x0F :: bs)) = (i.pfxs, i.rexBytes ++ 0x0F :: bs) := by
  refine takePfxs_append _ _ fun b hb => ?_
  unfold Instr.rexBytes at hb
  cases hr : i.rex? with
  | none =>
    obtain rfl : 0x0F = b := by simpa [hr] using hb
    rfl
  | some r =>
    obtain rfl : encodeRex i.wide r = b := by simpa [hr] using hb
    exact encodeRex_pfx _ _

/-- `0F AE /5` and `0F C7 /5` match the rows of R115 they were written from. -/
theorem matchOpcode_opByte (save : Bool) (mod : BitVec 2) (rm : BitVec 3) :
    matchOpcode (opcodeNumber 0x0F (opByte save) (mod ++ 5#3 ++ rm)) = some save := by
  cases save with
  | false => exact matchOpcode_restore mod rm
  | true => exact matchOpcode_save mod rm

/-- The opcode bytes and the operand of a well-formed instruction are read back, whatever follows them. -/
theorem decodeTail_encode {cx : DecodeCtx} {i : Instr} (hi : WellFormed cx i = true) (rest : List Byte) :
    decodeTail cx i.pfxs (Instr.rexNibble? i) (0x0F :: opByte i.saves :: (encodeMem i.mem ++ rest)) = .ok i rest := by
  obtain ⟨hform, hsize, -, hlen⟩ := wellFormed_iff.1 hi
  simp only [encodeMem_eq, List.cons_append, decodeTail, matchOpcode_opByte, extract_mod, extract_rm, MemOp.mod_ne, if_false,
    rexR_rexNibble?, Bool.false_eq_true, takeMem_encode _ _ rest hform hsize, makeInstr_parts_of, if_pos hlen]

/-- Settles O1: each part of the decoder reads back what the encoder wrote for it. -/
theorem decodeEncodeRoundTrip : Obligations.DecodeEncodeRoundTrip := by
  intro cx i rest hi
  obtain ⟨-, -, hrex, -⟩ := wellFormed_iff.1 hi
  have hbytes : encode i ++ rest =
      i.pfxs.map encodePfx ++ (i.rexBytes ++ 0x0F :: opByte i.saves :: (encodeMem i.mem ++ rest)) := by
    simp only [encode_eq, List.append_assoc, List.cons_append]
  rw [hbytes, decode_eq_decodeTail (takePfxs_encode i _) (takeRex_encode cx i _ hrex), decodeTail_encode hi]

/-! ### What decodes -/

/-- A byte is its two halves put together. -/
theorem append_nibbles (b : Byte) : b.extractLsb' 4 4 ++ b.extractLsb' 0 4 = b := by
  revert b; decide

/-- A byte is settled by its two halves. -/
theorem eq_of_nibbles {a b : Byte} (hhi : a.extractLsb' 4 4 = b.extractLsb' 4 4) (hlo : a.extractLsb' 0 4 = b.extractLsb' 0 4) :
    a = b := by
  rw [← append_nibbles a, hhi, hlo, append_nibbles]

/-- The decoder reads no REX byte, or, in 64-bit mode, a first byte 40H to 4FH (R103, R104). -/
theorem takeRex_cases (mode : Mode) (bs : List Byte) :
    takeRex mode bs = (none, bs) ∨
      ∃ b bs', mode = .long64 ∧ b.extractLsb' 4 4 = 4#4 ∧ bs = b :: bs' ∧ takeRex mode bs = (some (b.extractLsb' 0 4), bs') := by
  cases bs with
  | nil => exact .inl rfl
  | cons b bs =>
    by_cases h : mode = .long64 ∧ b.extractLsb' 4 4 = 4#4
    · exact .inr ⟨b, bs, h.1, h.2, rfl, if_pos h⟩
    · exact .inl (if_neg h)

/-- Where the REX bits read are those of an instruction, the bytes read are its REX byte, and 64-bit mode is the mode if it has
one (R103, R104). -/
theorem eq_rexBytes_of_takeRex {cx : DecodeCtx} {bs bs' : List Byte} {i : Instr}
    (h : takeRex cx.mode bs = (Instr.rexNibble? i, bs')) : bs = i.rexBytes ++ bs' ∧ i.rexOk cx = true := by
  rcases takeRex_cases cx.mode bs with hno | ⟨b, bs1, hmode, hhi, rfl, hrex⟩
  · obtain ⟨hnib, rfl⟩ := Prod.mk.inj (hno.symm.trans h)
    have hr : i.rex? = none := Option.map_eq_none_iff.1 hnib.symm
    simp [Instr.rexBytes, Instr.rexOk, hr]
  · obtain ⟨hnib, rfl⟩ := Prod.mk.inj (hrex.symm.trans h)
    obtain ⟨r, hr, hlo⟩ := Option.map_eq_some_iff.1 hnib.symm
    have hbyte : encodeRex i.wide r = b := eq_of_nibbles ((encodeRex_hi i.wide r).trans hhi.symm) hlo
    simp [Instr.rexBytes, Instr.rexOk, hr, hbyte, hmode]

/-- A byte with reg = 5 is the ModRM byte of its mod and rm. -/
theorem modrm_eq {m : Byte} {mod : BitVec 2} {rm : BitVec 3} (hmod : mod = m.extractLsb' 6 2) (hreg : m.extractLsb' 3 3 = 5#3)
    (hrm : rm = m.extractLsb' 0 3) : mod ++ 5#3 ++ rm = m := by
  rw [hmod, ← hreg, hrm, append_fields]

/-- When the bytes after legacy bytes and REX decode: the instruction has those legacy bytes and REX bits, its opcode bytes and
operand are the bytes read, the operand's form exists and is of the address size, and the length is at most 15. -/
theorem decodeTail_eq_ok {cx : DecodeCtx} {pfx : List Pfx} {rex : Option (BitVec 4)} {bs rest : List Byte} {i : Instr}
    (h : decodeTail cx pfx rex bs = .ok i rest) :
    i.pfxs = pfx ∧ Instr.rexNibble? i = rex ∧ bs = 0x0F :: opByte i.saves :: (encodeMem i.mem ++ rest) ∧
      i.mem.formOk = true ∧ i.sizeOk cx = true ∧ i.length ≤ 15 := by
  unfold decodeTail at h
  split at h
  next o1 o2 m bs =>
    split at h
    · cases h
    rename_i save hop
    split at h
    · cases h
    rename_i hmod
    split at h
    · cases h
    rename_i hR
    split at h
    · cases h
    rename_i mem r hmem
    dsimp only at h
    split at h
    next hlen =>
      obtain ⟨rfl, rfl⟩ := Decoded.ok.inj h
      obtain ⟨hsaves, hpfx, hmemi, hrex, -⟩ := makeInstr_parts save pfx rex mem (Bool.eq_false_of_not_eq_true hR)
      obtain ⟨rfl, rfl, hreg⟩ := matchOpcode_eq_some o1 o2 m hop
      obtain ⟨htail, hmode, hrm, hform, hsize⟩ := takeMem_eq_some _ _ _ _ _ _ hmod hmem
      refine ⟨hpfx, hrex, ?_, by rw [hmemi, hform], ?_, hlen⟩
      · rw [hsaves, hmemi, encodeMem_eq, modrm_eq hmode hreg hrm, htail]
        rfl
      · rw [Instr.sizeOk, hmemi, hpfx, hsize]
    next => cases h
  next => cases h
  next => split at h <;> cases h
  next => split at h <;> cases h

/-- Settles O2: each part of the decoder drops nothing of what it reads, and checks what well-formedness asks of that part. -/
theorem encodeDecodeRoundTrip : Obligations.EncodeDecodeRoundTrip := by
  intro cx bs i rest h
  obtain ⟨pfx, bs1, hpfx⟩ : ∃ pfx bs1, takePfxs bs = (pfx, bs1) := ⟨_, _, rfl⟩
  obtain ⟨rex, bs2, hrex⟩ : ∃ rex bs2, takeRex cx.mode bs1 = (rex, bs2) := ⟨_, _, rfl⟩
  rw [decode_eq_decodeTail hpfx hrex] at h
  obtain ⟨rfl, rfl, rfl, hform, hsize, hlen⟩ := decodeTail_eq_ok h
  obtain ⟨rfl, hrexOk⟩ := eq_rexBytes_of_takeRex hrex
  refine ⟨?_, wellFormed_iff.2 ⟨hform, hsize, hrexOk, hlen⟩⟩
  have hbs := takePfxs_eq bs
  rw [hpfx] at hbs
  simp only [hbs, encode_eq, List.append_assoc, List.cons_append]

/-! ### REX forms, lengths and the spec's vectors -/

/-- The forms with REX.W have a REX byte (R103). -/
theorem isSome_rex?_of_wide {i : Instr} (h : i.wide = true) : i.rex?.isSome = true := by
  cases i with
  | xrstor64 | xsaves64 => rfl
  | xrstor | xsaves => cases h

/-- A REX byte in a well-formed instruction is there in 64-bit mode (R104). -/
theorem mode_eq_long64_of_rexOk {cx : DecodeCtx} {i : Instr} (h : i.rexOk cx = true) (hrex : i.rex?.isSome = true) :
    cx.mode = .long64 := by
  simpa [Instr.rexOk, Option.ne_none_iff_isSome.2 hrex] using h

/-- 40H to 4FH are no legacy bytes. -/
theorem decodePfx_of_hi_eq_four : ∀ b : Byte, b.extractLsb' 4 4 = 4#4 → decodePfx b = none := by
  decide

/-- Outside 64-bit mode no byte is a REX byte (R104). -/
theorem takeRex_of_ne_long64 {mode : Mode} (h : mode ≠ .long64) (bs : List Byte) : takeRex mode bs = (none, bs) := by
  rcases takeRex_cases mode bs with hno | ⟨_, _, hmode, -⟩
  · exact hno
  · exact absurd hmode h

/-- A first opcode byte other than 0FH is none of the two rows of R115. -/
theorem decodeTail_of_ne {cx : DecodeCtx} {pfx : List Pfx} {rex : Option (BitVec 4)} {b : Byte} (h : b ≠ 0x0F#8) :
    ∀ bs, decodeTail cx pfx rex (b :: bs) = .rejected .notInScope
  | [] => if_neg h
  | [_] => if_neg fun hb => h hb.1
  | o2 :: m :: _ => by
    cases hop : matchOpcode (opcodeNumber b o2 m) with
    | none => simp only [decodeTail, hop]
    | some save => exact absurd (matchOpcode_eq_some b o2 m hop).1 h

/-- Settles O4: what decodes is well-formed, so its REX byte is in 64-bit mode; elsewhere 40H to 4FH is read as an opcode byte. -/
theorem rexFormsOnlyIn64BitMode : Obligations.RexFormsOnlyIn64BitMode := by
  constructor
  · intro cx bs rest i h hwide
    obtain ⟨-, hi⟩ := encodeDecodeRoundTrip cx bs i rest h
    obtain ⟨-, -, hrex, -⟩ := wellFormed_iff.1 hi
    exact mode_eq_long64_of_rexOk hrex (isSome_rex?_of_wide hwide)
  · intro cx b bs hmode hb
    have hpfx : takePfxs (b :: bs) = ([], b :: bs) := by simp only [takePfxs, decodePfx_of_hi_eq_four b hb]
    have hne : b ≠ 0x0F#8 := by
      rintro rfl
      exact absurd hb (by decide)
    rw [decode_eq_decodeTail hpfx (takeRex_of_ne_long64 hmode _), decodeTail_of_ne hne]

/-- Settles O5: what decodes is well-formed, and the bytes read are its encoding, as long as the instruction says. -/
theorem decodedLengthBounds : Obligations.DecodedLengthBounds := by
  intro cx bs rest i h
  obtain ⟨hbs, hi⟩ := encodeDecodeRoundTrip cx bs i rest h
  obtain ⟨-, -, -, hmax⟩ := wellFormed_iff.1 hi
  obtain ⟨hlen, hmin⟩ := Laws.encodedLength_of i
  exact ⟨hmin, hmax, by rw [hbs, List.length_append, hlen]⟩

/-- Settles O3: the decoder is run on the nine vectors. -/
theorem specWordsDecode : Obligations.SpecWordsDecode := by
  unfold Obligations.SpecWordsDecode
  decide

end Sys2Proof
end

section
/-! The segment of an operand (30_encoding.md R105, R113): the default of each addressing form, and the override before it. -/

namespace Sys2Proof.Machine

open Sys2Proof

section Segment

variable {o : Operand}

/-- The default of one base register; register 4 is no base without a SIB byte (R111, R113). -/
theorem defaultSeg_base {rm : BitVec 3} {d : Disp 32} (hm : o.mem = .base rm d) (hok : o.mem.formOk = true) :
    defaultSeg o = if 8 * o.rex.b.toNat + rm.toNat = 4 ∨ 8 * o.rex.b.toNat + rm.toNat = 5 then .ss else .ds := by
  have hrm : rm ≠ 4#3 := by
    rw [hm] at hok
    exact bne_iff_ne.1 (Bool.and_eq_true_iff.1 hok).1
  have hne : 8 * o.rex.b.toNat + rm.toNat ≠ 4 := by
    intro h
    have hlt := rm.isLt
    exact hrm (BitVec.eq_of_toNat_eq (by show rm.toNat = 4; omega))
  simp [defaultSeg, hm, regNum_eq_iff, hne]

/-- The default of a SIB form with a base (R110, R113). -/
theorem defaultSeg_sib {scale : BitVec 2} {idx base : BitVec 3} {d : Disp 32} (hm : o.mem = .sib scale idx base d) :
    defaultSeg o = if 8 * o.rex.b.toNat + base.toNat = 4 ∨ 8 * o.rex.b.toNat + base.toNat = 5 then .ss else .ds := by
  simp [defaultSeg, hm, regNum_eq_iff]

/-- The default of the 16-bit rows: SS where BP, register 5, is the base (R112, R113). -/
theorem defaultSeg_base16 {rm : BitVec 3} {d : Disp 16} (hm : o.mem = .base16 rm d) :
    defaultSeg o = if rm = 2 ∨ rm = 3 ∨ rm = 6 then .ss else .ds := by
  rw [defaultSeg, hm]
  rfl

/-! A displacement without a base register defaults to DS (R113). -/

theorem defaultSeg_dispRip {v : BitVec 32} (hm : o.mem = .dispRip v) : defaultSeg o = .ds := by
  simp only [defaultSeg, hm]

theorem defaultSeg_abs16 {v : BitVec 16} (hm : o.mem = .abs16 v) : defaultSeg o = .ds := by
  simp only [defaultSeg, hm]

theorem defaultSeg_sibNoBase {scale : BitVec 2} {idx : BitVec 3} {v : BitVec 32} (hm : o.mem = .sibNoBase scale idx v) :
    defaultSeg o = .ds := by
  simp only [defaultSeg, hm]

/-- The last override that has effect is the segment (R105). -/
theorem operandSeg_of_override {s : State} {n : SegName} {pre post : List Pfx} (hp : o.pfx = pre ++ .seg n :: post)
    (hn : OverrideCounts s.mode n) (hpost : ∀ m, Pfx.seg m ∈ post → ¬ OverrideCounts s.mode m) : operandSeg s o = n := by
  have hlast : lastOverride s.mode o.pfx = some n := by
    rw [hp]
    exact lastOverride_append (overrideOf_seg hn) (fun p hq => overrideOf_eq_none fun m hm => hpost m (hm ▸ hq)) pre
  rw [operandSeg, hlast, Option.getD_some]

/-- Without an override that has effect the segment is the form's default (R113). -/
theorem operandSeg_eq_defaultSeg {s : State} (h : ∀ m, Pfx.seg m ∈ o.pfx → ¬ OverrideCounts s.mode m) :
    operandSeg s o = defaultSeg o := by
  have hlast : lastOverride s.mode o.pfx = none :=
    lastOverride_eq_none fun p hp => overrideOf_eq_none fun m hm => h m (hm ▸ hp)
  rw [operandSeg, hlast, Option.getD_none]

end Segment

/-- Settles O60: an override with effect is the segment, and the default of each form otherwise. -/
theorem operandSegmentByForm : Obligations.OperandSegmentByForm := by
  intro s i hi seg b
  obtain ⟨hform, -⟩ := wellFormed_iff.1 hi
  refine ⟨fun pre n post hp hn hpost => operandSeg_of_override hp hn hpost, fun hno => ?_⟩
  have hseg : seg = defaultSeg (operandOf i) := operandSeg_eq_defaultSeg hno
  refine ⟨?_, ?_, ?_, ?_, ?_, ?_⟩
  · exact fun rm d hm => hseg.trans (defaultSeg_base hm hform)
  · exact fun scale idx base d hm => hseg.trans (defaultSeg_sib hm)
  · exact fun rm d hm => hseg.trans (defaultSeg_base16 hm)
  · exact fun v hm => hseg.trans (defaultSeg_dispRip hm)
  · exact fun v hm => hseg.trans (defaultSeg_abs16 hm)
  · exact fun scale idx v hm => hseg.trans (defaultSeg_sibNoBase hm)

end Sys2Proof.Machine
end

section
/-! A completed XRSTOR or XRSTOR64 (40_xrstor.md R130 to R142, R145, R146, R151): what each component, MXCSR and the tracking hold,
form by form, and from it the statements about completion. -/

namespace Sys2Proof.Machine

open Sys2Proof

/-! ### The two forms (R133) -/

section Forms

variable {k : Masks}

theorem form_eq_standard (h : k.compmask.getLsbD 63 = false) : k.form = .standard := by
  rw [Masks.form, h]
  rfl

theorem form_eq_compacted (h : k.compmask.getLsbD 63 = true) : k.form = .compacted := by
  rw [Masks.form, h]
  rfl

/-- When a rule loads MXCSR from memory (R139, R141). -/
theorem loadsMxcsr_iff : k.loadsMxcsr = true ↔
    (k.compmask.getLsbD 63 = false ∧ (k.rfbm.getLsbD 1 = true ∨ k.rfbm.getLsbD 2 = true)) ∨
      (k.compmask.getLsbD 63 = true ∧ k.rfbm.getLsbD 1 = true ∧ k.rstormask.getLsbD 1 = true) := by
  cases h : k.compmask.getLsbD 63 with
  | false => simp [Masks.loadsMxcsr, form_eq_standard h]
  | true => simp [Masks.loadsMxcsr, form_eq_compacted h, Masks.loads]

/-- Where AVX state lies in the standard format (20_memory.md R78). -/
theorem avxBase_standard (h : k.compmask.getLsbD 63 = false) (cfg : Cfg) : k.avxBase cfg = avxBaseStd cfg := by
  simp only [Masks.avxBase, form_eq_standard h]

/-- Where AVX state lies in the compacted format (20_memory.md R79). -/
theorem avxBase_compacted (h : k.compmask.getLsbD 63 = true) {cfg : Cfg} (hv : Cfg.valid cfg = true) :
    k.avxBase cfg = cfg.extOff := by
  simp only [Masks.avxBase, form_eq_compacted h, avxBaseCmp_eq hv]

end Forms

theorem illegalMxcsr_eq_false {cfg : Cfg} {v : BitVec 32} : illegalMxcsr cfg v = false ↔ v &&& cfg.mxcsrRsvd = 0 := by
  simp [illegalMxcsr]

/-- In the standard form XCOMP_BV is 0: its bytes are among the header bytes that must be zero (R134 (b), R145). -/
theorem readXcompBv_of_headerZero {cfg : Cfg} {m : Memory} {la : Nat} (h : headerZero cfg m la 8 16 = true) :
    readXcompBv cfg m la = 0 := by
  have hbyte : ∀ b, b < 8 → m.read (la + (cfg.hdrOff + 8) + b) = byteOf 0 b := by
    intro b hb
    have hzero := headerZero_iff.1 h (8 + b) (by omega) (by omega)
    simpa [byteOf, Nat.add_assoc] using hzero
  have hfield : m.readLE (la + (cfg.hdrOff + 8)) 8 = 0 := by
    rw [readLE_of_bytes hbyte, Nat.zero_mod]
  rw [readXcompBv, areaField, hfield]
  rfl

/-! ### The components (R135 to R142) -/

section Components

variable {d : Draws} {w : Bool} {s : State} {ar : Area} {k : Masks}

/-- The three fates of a file of vector registers, register by register: loaded, cleared, kept. -/
theorem get_restoredVecs {requested present : Bool} {m : Memory} {la base n : Nat} {old : VecFile} (j : Fin 16) :
    (if requested then (if present then loadVecs m la base n old else clearVecs n old) else old).get j =
      if requested && decide (j.val < n) then
        (if present then BitVec.ofNat 128 (m.readLE (la + (base + 16 * j.val)) 16) else 0)
      else old.get j := by
  cases requested with
  | false => simp
  | true => cases present <;> simp

theorem get_restoredXmm (j : Fin 16) : (restoredXmm s ar k).get j =
    if k.rfbm.getLsbD 1 && decide (j.val < nVec s.mode) then
      (if k.rstormask.getLsbD 1 then BitVec.ofNat 128 (s.mem.readLE (ar.laxa.toNat + (160 + 16 * j.val)) 16) else 0)
    else s.xmm.get j := get_restoredVecs j

theorem get_restoredYmmHi (j : Fin 16) : (restoredYmmHi s ar k).get j =
    if k.rfbm.getLsbD 2 && decide (j.val < nVec s.mode) then
      (if k.rstormask.getLsbD 2 then BitVec.ofNat 128 (s.mem.readLE (ar.laxa.toNat + (k.avxBase s.cfg + 16 * j.val)) 16) else 0)
    else s.ymmHi.get j := get_restoredVecs j

theorem restoredMxcsr_standard (h : k.compmask.getLsbD 63 = false) : restoredMxcsr s ar k =
    if k.rfbm.getLsbD 1 || k.rfbm.getLsbD 2 then readMxcsr s.mem ar.laxa.toNat else s.mxcsr := by
  simp only [restoredMxcsr, form_eq_standard h]

theorem restoredMxcsr_compacted (h : k.compmask.getLsbD 63 = true) : restoredMxcsr s ar k =
    if k.rfbm.getLsbD 1 then (if k.rstormask.getLsbD 1 then readMxcsr s.mem ar.laxa.toNat else mxcsrInitial)
    else s.mxcsr := by
  simp only [restoredMxcsr, form_eq_compacted h]

/-! A component that is not requested (R138). -/

theorem restoredX87_of_not_requested (h : k.rfbm.getLsbD 0 = false) : restoredX87 d w s ar k = s.x87 :=
  if_neg (ne_true_of_eq_false h)

theorem restoredXmm_of_not_requested (h : k.rfbm.getLsbD 1 = false) : restoredXmm s ar k = s.xmm :=
  if_neg (ne_true_of_eq_false h)

theorem restoredYmmHi_of_not_requested (h : k.rfbm.getLsbD 2 = false) : restoredYmmHi s ar k = s.ymmHi :=
  if_neg (ne_true_of_eq_false h)

/-- MXCSR is kept without SSE, but in the standard form only without AVX too (R138, R139, R141). -/
theorem restoredMxcsr_of_not_requested (h1 : k.rfbm.getLsbD 1 = false)
    (h2 : k.rfbm.getLsbD 2 = false ∨ k.compmask.getLsbD 63 = true) : restoredMxcsr s ar k = s.mxcsr := by
  cases hf : k.compmask.getLsbD 63 with
  | false =>
    have h2 : k.rfbm.getLsbD 2 = false := h2.resolve_right (ne_true_of_eq_false hf)
    rw [restoredMxcsr_standard hf, h1, h2]
    rfl
  | true =>
    rw [restoredMxcsr_compacted hf, h1]
    rfl

/-- The vector registers beyond `N_VEC` are kept (10_state.md R30, R32). -/
theorem get_restored_of_nVec_le {j : Fin 16} (hj : nVec s.mode ≤ j.val) :
    (restoredXmm s ar k).get j = s.xmm.get j ∧ (restoredYmmHi s ar k).get j = s.ymmHi.get j := by
  have hlt : ¬ j.val < nVec s.mode := by omega
  simp [get_restoredXmm, get_restoredYmmHi, hlt]

/-- The width of the form shows in x87 state only, and there only where it is loaded (R131). -/
theorem restoredX87_wide_irrelevant (h : k.loads 0 = false) (w w' : Bool) :
    restoredX87 d w s ar k = restoredX87 d w' s ar k := by
  unfold restoredX87
  cases hr : k.rfbm.getLsbD 0 with
  | false => rfl
  | true =>
    have hl : k.rstormask.getLsbD 0 = false := by simpa [Masks.loads, hr] using h
    rw [hl]
    rfl

end Components

theorem xrstorStep_wide_irrelevant {d : Draws} {o : Operand} {s : State}
    (h : (xrstorMasks s (areaOf s o)).loads 0 = false) (w w' : Bool) : xrstorStep d w o s = xrstorStep d w' o s := by
  have hdone : xrstorDone d w (areaOf s o) (xrstorMasks s (areaOf s o)) o.len s =
      xrstorDone d w' (areaOf s o) (xrstorMasks s (areaOf s o)) o.len s := by
    unfold xrstorDone withComponents
    rw [restoredX87_wide_irrelevant h w w']
  simp only [xrstorStep, hdone]

/-! ### Tracking (R146) -/

section Tracking

variable {d : Draws} {s : State} {k : Masks} {i : Nat}

theorem track_of_not_requested (h : k.rfbm.getLsbD i = false) :
    inuseAfter d s k i = s.xinuse.getLsbD i ∧ modifiedAfter d s k i = true := by
  simp [inuseAfter, modifiedAfter, h]

theorem track_of_loaded (hr : k.rfbm.getLsbD i = true) (hl : k.rstormask.getLsbD i = true) :
    inuseAfter d s k i = true ∧ modifiedAfter d s k i = false := by
  simp [inuseAfter, modifiedAfter, hr, hl]

theorem initTrack_of_not_initial (h : s.isInitial i = false) : initTrack d s i = true :=
  if_neg (ne_true_of_eq_false h)

theorem initTrack_of_initial (hz : s.cfg.xinuseAfterInit = .zero) (h : s.isInitial i = true) : initTrack d s i = false := by
  simp only [initTrack, h, hz, if_true]

/-- An initialised component: both bits are `InitTrack(i)`, which answers by whether the registers are initial. -/
theorem track_of_initialised (hr : k.rfbm.getLsbD i = true) (hl : k.rstormask.getLsbD i = false) :
    modifiedAfter d s k i = inuseAfter d s k i ∧ (s.isInitial i = false → inuseAfter d s k i = true) ∧
      (s.cfg.xinuseAfterInit = .zero → s.isInitial i = true → inuseAfter d s k i = false) := by
  have hinuse : inuseAfter d s k i = initTrack d s i := by simp [inuseAfter, hr, hl]
  have hmodified : modifiedAfter d s k i = initTrack d s i := by simp [modifiedAfter, hr, hl]
  rw [hinuse, hmodified]
  exact ⟨rfl, initTrack_of_not_initial, initTrack_of_initial⟩

end Tracking

/-! ### The statements -/

/-- Settles O9: a legal standard header and MXCSR image let every check pass; the state is then read off register by register. -/
theorem xrstorStandardFormCompletes : Obligations.XrstorStandardFormCompletes := by
  intro i s hi ar la rfbm rstor hready hheader hmxcsr
  have hlegal : (xrstorMasks s ar).loadsMxcsr = true → illegalMxcsr s.cfg (readMxcsr s.mem la) = false := fun hl => by
    obtain ⟨_, hr⟩ | ⟨hcmp, _⟩ := loadsMxcsr_iff.1 hl
    · exact illegalMxcsr_eq_false.2 (hmxcsr hr)
    · exact absurd (hheader.form.symm.trans hcmp) (by decide)
  refine ⟨_, exec_of_restoreReady hi hready (headerBad_of_standard hheader) hlegal, ⟨Draws.at s.draws, rfl⟩,
    get_restoredXmm, restoredMxcsr_standard hheader.form, fun j => ?_, ?_, rfl⟩
  · rw [← avxBase_standard hheader.form]
    exact get_restoredYmmHi j
  · have hcomp : (xrstorMasks s ar).compmask = 0 := readXcompBv_of_headerZero (headerZero_iff.2 hheader.reserved)
    rw [xrstorDone_xrstorInfo, hcomp]

/-- Settles O10: likewise with a compacted header, AVX state lying at `EXT_OFF`. -/
theorem xrstorCompactedFormCompletes : Obligations.XrstorCompactedFormCompletes := by
  intro i s hi ar la rfbm rstor hready hheader hmxcsr
  have hlegal : (xrstorMasks s ar).loadsMxcsr = true → illegalMxcsr s.cfg (readMxcsr s.mem la) = false := fun hl => by
    obtain ⟨hstd, _⟩ | ⟨_, hr, hp⟩ := loadsMxcsr_iff.1 hl
    · exact absurd (hheader.form.symm.trans hstd) (by decide)
    · exact illegalMxcsr_eq_false.2 (hmxcsr hr hp)
  refine ⟨_, exec_of_restoreReady hi hready (headerBad_of_compacted hheader) hlegal, ⟨Draws.at s.draws, rfl⟩,
    get_restoredXmm, restoredMxcsr_compacted hheader.form, fun j => ?_, rfl, rfl⟩
  rw [← avxBase_compacted hheader.form hready.enabled.cfg]
  exact get_restoredYmmHi j

/-- Settles O12: each component is loaded, not requested or initialised, and `Track` says what follows. -/
theorem xrstorTracking : Obligations.XrstorTracking := by
  intro i s t hi h rfbm rstor
  obtain ⟨⟨hv, -⟩, -, rfl⟩ := exec_restore_next hi h
  refine ⟨fun j hj => ?_, fun j hj => ?_⟩
  · rw [getLsbD_xrstorDone_xinuse hv, getLsbD_xrstorDone_xmodified hv, if_pos hj, if_pos hj, isInitial_xrstorDone]
    exact ⟨fun hr hl => track_of_loaded hr hl, fun hr => track_of_not_requested hr, fun hr hl => track_of_initialised hr hl⟩
  · have hge : ¬ j < 3 := by omega
    rw [getLsbD_xrstorDone_xinuse hv, getLsbD_xrstorDone_xmodified hv, if_neg hge, if_neg hge]
    exact ⟨rfl, rfl⟩

/-- Settles O13: component by component; MXCSR by the form. -/
theorem xrstorKeepsUnrequestedComponents : Obligations.XrstorKeepsUnrequestedComponents := by
  intro i s t hi h ar k
  obtain ⟨-, -, rfl⟩ := exec_restore_next hi h
  refine ⟨restoredX87_of_not_requested, restoredXmm_of_not_requested, restoredYmmHi_of_not_requested,
    fun hf h1 => restoredMxcsr_of_not_requested h1 (.inr hf), fun hf h1 => ?_⟩
  have hmxcsr : restoredMxcsr s ar k = _ := restoredMxcsr_standard hf
  rw [h1, Bool.false_or] at hmxcsr
  exact hmxcsr

/-- Settles O14: the completed state is the state before it but for RIP, the requested components and the tracking. -/
theorem xrstorFrame : Obligations.XrstorFrame := by
  intro i s t hi h ar rfbm
  obtain ⟨hx87, hxmm, hymm, -, -⟩ := xrstorKeepsUnrequestedComponents i s t hi h
  obtain ⟨-, -, rfl⟩ := exec_restore_next hi h
  refine ⟨sameContext_xrstorDone .., fun _ => rfl, hx87, hxmm, hymm,
    restoredMxcsr_of_not_requested (k := xrstorMasks s ar), fun hmode j hj => ?_⟩
  have hn : nVec s.mode = 8 := if_neg hmode
  exact get_restored_of_nVec_le (hn.trans_le hj)

/-- Settles O15: no bit of RFBM is set, so no component is requested. -/
theorem xrstorWithoutRequest : Obligations.XrstorWithoutRequest := by
  intro i s t hi h hzero ar
  obtain ⟨⟨hv, -⟩, -, rfl⟩ := exec_restore_next hi h
  have hnone : ∀ j, (xrstorMasks s ar).rfbm.getLsbD j = false := fun j => by
    show (s.xcr0 &&& s.instrMask).getLsbD j = false
    rw [hzero]
    exact BitVec.getLsbD_zero
  refine ⟨restoredX87_of_not_requested (hnone 0), restoredXmm_of_not_requested (hnone 1),
    restoredMxcsr_of_not_requested (hnone 1) (.inl (hnone 2)), restoredYmmHi_of_not_requested (hnone 2), ?_, fun j hj => ?_, rfl⟩
  · refine BitVec.eq_of_getLsbD_eq fun j _ => ?_
    rw [getLsbD_xrstorDone_xinuse hv, (track_of_not_requested (hnone j)).1]
    exact ite_self _
  · rw [getLsbD_xrstorDone_xmodified hv, if_pos hj, (track_of_not_requested (hnone j)).2]

/-- Settles O16: the forms differ in the x87 state they load, and none is loaded. -/
theorem xrstorFormsAgreeWithoutX87Load : Obligations.XrstorFormsAgreeWithoutX87Load := by
  intro pfx rex mem s i h
  have hload : (xrstorMasks s (areaOf s (operandOf i))).loads 0 = false := by
    rw [Masks.loads, Bool.and_eq_false_iff]
    exact h
  exact xrstorStep_wide_irrelevant hload true false

end Sys2Proof.Machine
end

section
/-! What stops XRSTOR and XRSTOR64 after the address checks, and what an exception leaves (40_xrstor.md R134, R143 to R145, R147): the
header conditions, an illegal MXCSR image, the late state, and the invariant in every faulting state. -/

namespace Sys2Proof.Machine

open Sys2Proof

/-! ### The header conditions (R134) -/

section Header

variable {s : State} {ar : Area} {k : Masks}

/-- Conditions (a) and (b). -/
theorem headerBad_standard (h : k.compmask.getLsbD 63 = false) : headerBad s ar k = true ↔
    k.rstormask &&& ~~~s.xcr0 ≠ 0 ∨ headerZero s.cfg s.mem ar.laxa.toNat 8 16 = false := by
  simp only [headerBad, form_eq_standard h, Bool.or_eq_true, decide_eq_true_eq, Bool.not_eq_true']

/-- A standard header that passes has its bytes 23:8 zero. -/
theorem headerZero_of_standard (hf : k.compmask.getLsbD 63 = false) (hh : headerBad s ar k = false) :
    headerZero s.cfg s.mem ar.laxa.toNat 8 16 = true := by
  by_contra hz
  exact ne_true_of_eq_false hh ((headerBad_standard hf).2 (.inr (eq_false_of_ne_true hz)))

/-- Conditions (c) to (f). -/
theorem headerBad_compacted (h : k.compmask.getLsbD 63 = true) : headerBad s ar k = true ↔
    s.cfg.xsavec = false ∨ (k.compmask &&& ~~~s.xcr0).extractLsb' 0 63 ≠ 0 ∨ k.rstormask &&& ~~~k.compmask ≠ 0 ∨
      headerZero s.cfg s.mem ar.laxa.toNat 16 48 = false := by
  simp only [headerBad, form_eq_compacted h, Bool.or_eq_true, decide_eq_true_eq, Bool.not_eq_true', or_assoc]

section Bits

variable {v m : Word64} {j : Nat} (hv : v.getLsbD j = true) (hm : m.getLsbD j = false)

include hv hm

theorem getLsbD_and_not (hj : j < 64) : (v &&& ~~~m).getLsbD j = true := by
  rw [BitVec.getLsbD_and, BitVec.getLsbD_not, hv, hm, decide_eq_true hj]
  rfl

/-- A bit of `v` outside `m` (R134 (a), (e)). -/
theorem and_not_ne_zero (hj : j < 64) : v &&& ~~~m ≠ 0 := by
  intro hzero
  have hbit := getLsbD_and_not hv hm hj
  simp [hzero] at hbit

/-- A bit of `v` outside `m`, bit 63 left out (R134 (d)). -/
theorem and_not_low_ne_zero (hj : j < 63) : (v &&& ~~~m).extractLsb' 0 63 ≠ 0 := by
  intro hzero
  have hbit : ((v &&& ~~~m).extractLsb' 0 63).getLsbD j = true := by
    rw [BitVec.getLsbD_extractLsb', Nat.zero_add, getLsbD_and_not hv hm (by omega), decide_eq_true hj]
    rfl
  simp [hzero] at hbit

end Bits

theorem headerZero_eq_false {lo n o : Nat} (hlo : lo ≤ o) (hhi : o < lo + n)
    (hbyte : s.mem.read (ar.at (s.cfg.hdrOff + o)) ≠ 0) : headerZero s.cfg s.mem ar.laxa.toNat lo n = false :=
  Bool.eq_false_iff.2 fun h => hbyte (headerZero_iff.1 h o hlo hhi)

/-- XRSTOR where the header fails a check, all before it having passed: #GP(0), nothing changed (R134, R143). -/
theorem exec_restore_headerBad {i : Instr} (hi : i.saves = false) (e : Enabled s (operandOf i))
    (ha : Aligned64 (areaOf s (operandOf i))) (hu : BytesUsable s (areaOf s (operandOf i)) .read (headerMax s.cfg))
    (hbad : headerBad s (areaOf s (operandOf i)) (xrstorMasks s (areaOf s (operandOf i))) = true) :
    exec i s = (gpZero s.mode).outcome s := by
  obtain ⟨hlaunch, hpre⟩ := xrstorPre_of_enabled e
  have hpass : addressChecks (Draws.at s.draws) s (areaOf s (operandOf i)) .read true (headerMin s.cfg) (headerMax s.cfg) = none :=
    addressChecks_eq_none hu headerMin_subset fun _ => ha
  have hearly : xrstorEarly (Draws.at s.draws) s (operandOf i) = some (gpZero s.mode) := by
    simp only [xrstorEarly, firstStop_cons, hlaunch, hpre, hpass, hbad, if_true, Option.none_or, Option.some_or]
  rw [exec_restore hi]
  simp only [xrstorStep, hearly]

end Header

/-- Settles O36: each condition is a disjunct of the header check of its form. -/
theorem headerFaults : Obligations.HeaderFaults := by
  intro i s hi ar k e ha hu hcond
  refine exec_restore_headerBad hi e ha hu ?_
  rcases hcond with ⟨hf, hcond⟩ | ⟨hf, hcond⟩
  · rw [headerBad_standard hf]
    rcases hcond with ⟨j, hj, hv, hm⟩ | ⟨o, hlo, hhi, hbyte⟩
    · exact .inl (and_not_ne_zero hv hm hj)
    · exact .inr (headerZero_eq_false hlo hhi hbyte)
  · rw [headerBad_compacted hf]
    rcases hcond with hx | ⟨j, hj, hv, hm⟩ | ⟨j, hj, hv, hm⟩ | ⟨o, hlo, hhi, hbyte⟩
    · exact .inl hx
    · exact .inr (.inl (and_not_low_ne_zero hv hm hj))
    · exact .inr (.inr (.inl (and_not_ne_zero hv hm hj)))
    · exact .inr (.inr (.inr (headerZero_eq_false hlo hhi hbyte)))

/-! ### An illegal MXCSR image (R144) -/

/-- XRSTOR on a usable area with a legal header, where it loads MXCSR and the image is illegal. -/
theorem exec_restore_illegalMxcsr {i : Instr} {s : State} (hi : i.saves = false) (hr : RestoreReady s (operandOf i))
    (hh : headerBad s (areaOf s (operandOf i)) (xrstorMasks s (areaOf s (operandOf i))) = false)
    (hl : (xrstorMasks s (areaOf s (operandOf i))).loadsMxcsr = true)
    (hm : illegalMxcsr s.cfg (readMxcsr s.mem (areaOf s (operandOf i)).laxa.toNat) = true) :
    exec i s = (gpZero s.mode).outcome (xrstorLate (Draws.at s.draws) (xrstorMasks s (areaOf s (operandOf i))) s) := by
  obtain ⟨hlaunch, hpre⟩ := xrstorPre_of_enabled hr.enabled
  refine exec_restore_lateStop hi (xrstorEarly_eq_none.2 ⟨hlaunch, hpre, ?_, hh⟩) ?_
  · exact addressChecks_eq_none hr.header headerMin_subset fun _ => hr.aligned
  · have hpass := addressChecks_eq_none (d := Draws.at s.draws) (first := false) hr.load
      (loadMin_subset hr.enabled.cfg hh) (by simp)
    simp only [xrstorLateStop, firstStop_cons, hpass, hl, hm, Bool.and_self, if_true, Option.none_or, Option.some_or]

/-- Settles O37: with all else passing, the one check left stops exactly where an illegal image is loaded. -/
theorem illegalMxcsrFaultsExactly : Obligations.IllegalMxcsrFaultsExactly := by
  intro i s hi ar k hr hlegal
  have hh : headerBad s ar k = false := headerBad_of_legal hlegal
  rw [← loadsMxcsr_iff]
  constructor
  · rintro ⟨post, hfault⟩
    by_contra hnot
    have hnext := exec_of_restoreReady hi hr hh fun hl =>
      illegalMxcsr_eq_false.2 (not_not.1 fun hne => hnot ⟨hl, hne⟩)
    rw [hnext] at hfault
    cases hfault
  · rintro ⟨hl, hne⟩
    exact ⟨_, exec_restore_illegalMxcsr hi hr hh hl (decide_eq_true hne)⟩

/-! ### The state an exception leaves (R147) -/

/-- An exception of XRSTOR leaves the state as it was, or the late state, the configuration being valid. -/
theorem exec_restore_fault {i : Instr} {s post : State} {x : Exc} {code : Option (BitVec 32)} {info : Option Word64}
    (hi : i.saves = false) (h : exec i s = .fault (.exception x code info post)) :
    post = s ∨ (Cfg.valid s.cfg = true ∧
      post = xrstorLate (Draws.at s.draws) (xrstorMasks s (areaOf s (operandOf i))) s) := by
  rw [exec_restore hi, xrstorStep_fault] at h
  obtain ⟨-, hpost⟩ | ⟨hearly, -, hpost⟩ := h
  · exact .inl hpost
  · obtain ⟨hlaunch, -⟩ := xrstorEarly_eq_none.1 hearly
    exact .inr ⟨(launchStop_eq_none.1 hlaunch).1, hpost⟩

section Late

variable {d : Draws} {k : Masks} {s : State} {j : Nat}

theorem sameContext_refl (s : State) : SameContext s s := by
  constructor <;> rfl

theorem sameContext_xrstorLate (d : Draws) (k : Masks) (s : State) : SameContext s (xrstorLate d k s) := by
  constructor <;> simp

theorem getLsbD_xrstorLate_xinuse (hv : Cfg.valid s.cfg = true) : (xrstorLate d k s).xinuse.getLsbD j =
    if j < 3 ∧ k.rfbm.getLsbD j = true then d.lateInuse j || !(lateComponents d k s).isInitial j
    else s.xinuse.getLsbD j := by
  rw [xrstorLate_xinuse, Cfg.valid_components hv, getLsbD_setComponents, ite_and]

theorem getLsbD_xrstorLate_xmodified (hv : Cfg.valid s.cfg = true) : (xrstorLate d k s).xmodified.getLsbD j =
    if j < 3 ∧ k.rfbm.getLsbD j = true then d.lateModified j else s.xmodified.getLsbD j := by
  rw [xrstorLate_xmodified, Cfg.valid_components hv, getLsbD_setComponents, ite_and]

/-- Tracking is no part of what makes a component initial. -/
theorem isInitial_xrstorLate : (xrstorLate d k s).isInitial j = (lateComponents d k s).isInitial j := by
  match j with
  | 0 => rfl
  | 1 => rfl
  | 2 => rfl
  | _ + 3 => rfl

/-- A component that is not requested is as initial as before. -/
theorem isInitial_lateComponents_of_not_requested (h : k.rfbm.getLsbD j = false) :
    (lateComponents d k s).isInitial j = s.isInitial j := by
  have hn : ¬ k.rfbm.getLsbD j = true := ne_true_of_eq_false h
  match j with
  | 0 => simp only [State.isInitial, lateComponents_x87, if_neg hn]
  | 1 => simp only [State.isInitial, lateComponents_xmm, if_neg hn]
  | 2 => simp only [State.isInitial, lateComponents_ymmHi, if_neg hn]
  | _ + 3 => rfl

/-- The values drawn are subject to `INV_XINUSE` (D7). -/
theorem invXinuse_xrstorLate (hv : Cfg.valid s.cfg = true) (hs : InvXinuse s) : InvXinuse (xrstorLate d k s) := by
  rw [invXinuse_iff]
  intro j hj
  rw [getLsbD_xrstorLate_xinuse hv] at hj
  rw [isInitial_xrstorLate]
  split at hj
  · simpa using (Bool.or_eq_false_iff.1 hj).2
  · rename_i hcase
    by_cases h3 : j < 3
    · rw [isInitial_lateComponents_of_not_requested (eq_false_of_ne_true fun hr => hcase ⟨h3, hr⟩)]
      exact invXinuse_iff.1 hs j hj
    · obtain ⟨n, rfl⟩ : ∃ n, j = n + 3 := ⟨j - 3, by omega⟩
      rfl

theorem trackingInRange_xrstorLate (hv : Cfg.valid s.cfg = true) (ht : TrackingInRange s) :
    TrackingInRange (xrstorLate d k s) := by
  obtain ⟨hinuse, hmodified⟩ := ht
  rw [shiftRight_three_eq_zero] at hinuse hmodified
  refine ⟨shiftRight_three_eq_zero.2 fun j hj => ?_, shiftRight_three_eq_zero.2 fun j hj => ?_⟩
  · rw [getLsbD_xrstorLate_xinuse hv, if_neg (by omega), hinuse j hj]
  · rw [getLsbD_xrstorLate_xmodified hv, if_neg (by omega), hmodified j hj]

theorem inv_xrstorLate (hv : Cfg.valid s.cfg = true) (h : Inv s) : Inv (xrstorLate d k s) :=
  ⟨h.memory, invXinuse_xrstorLate hv h.xinuse, trackingInRange_xrstorLate hv h.tracking⟩

end Late

/-- Settles O42: an early exception changes nothing, a late one the requested components and their tracking only. -/
theorem xrstorFaultFrame : Obligations.XrstorFaultFrame := by
  intro i s post x code info hi h k
  obtain rfl | ⟨hv, rfl⟩ := exec_restore_fault hi h
  · exact ⟨sameContext_refl post, rfl, rfl, fun _ => rfl, fun _ => rfl, fun _ => rfl, fun _ => rfl, fun _ => rfl,
      fun _ _ => ⟨rfl, rfl⟩⟩
  · refine ⟨sameContext_xrstorLate .., rfl, rfl, fun _ => rfl, fun h0 => if_neg (ne_true_of_eq_false h0),
      fun h1 => if_neg (ne_true_of_eq_false h1), fun h2 => if_neg (ne_true_of_eq_false h2),
      fun hw => if_neg (ne_true_of_eq_false hw), fun j hj => ?_⟩
    have hcase : ¬ (j < 3 ∧ k.rfbm.getLsbD j = true) := fun ⟨_, hr⟩ => ne_true_of_eq_false hj hr
    rw [getLsbD_xrstorLate_xinuse hv, getLsbD_xrstorLate_xmodified hv, if_neg hcase, if_neg hcase]
    exact ⟨rfl, rfl⟩

/-- Settles O50: a completed form records the XCOMP_BV its header check has seen; an exception leaves XRSTOR_INFO alone. -/
theorem xrstorRecordsInfo : Obligations.XrstorRecordsInfo := by
  intro i s hi ar comp
  refine ⟨fun t h => ?_, fun x code info post h => ?_⟩
  · obtain ⟨-, hh, rfl⟩ := exec_restore_next hi h
    exact ⟨rfl, fun hf => readXcompBv_of_headerZero (headerZero_of_standard (k := xrstorMasks s ar) hf hh)⟩
  · obtain rfl | ⟨-, rfl⟩ := exec_restore_fault hi h
    · rfl
    · rfl

/-! ### The invariant in a faulting state (R147, R182) -/

/-- A step that ends in an exception has fetched and decoded an instruction, whose meaning ends in that exception (R14). -/
theorem exists_exec_of_step_fault {s : State} {f : Fault} (h : step s = .fault f) : ∃ i : Instr, exec i s = .fault f := by
  unfold step at h
  split at h
  · cases h
  · cases h
  · exact ⟨_, h⟩

/-- A pass that raises an exception has found no byte that wraps: a wrap is refused before any fault (20_memory.md R80). -/
theorem linear_of_addressChecks_raise {d : Draws} {s : State} {ar : Area} {acc : Access} {first : Bool} {min max : List Nat}
    {x : Exc} {code : Option (BitVec 32)} {info : Option Word64}
    (h : addressChecks d s ar acc first min max = some (.raise x code info)) : ∀ o ∈ max, ar.at o < 2 ^ linBits s.mode := by
  intro o ho
  by_contra hc
  have hwrap : linearWraps s ar max = true := List.any_eq_true.2 ⟨o, ho, decide_eq_true (not_lt.1 hc)⟩
  simp [addressChecks, wrapStop, hwrap] at h

/-- Filling area bytes that do not wrap keeps memory canonical and below `2^64` (R43). -/
theorem memoryOk_fill {s : State} {ar : Area} {offs : List Nat} {f : Nat → Byte}
    (hlin : ∀ o ∈ offs, ar.at o < 2 ^ linBits s.mode) (h : MemoryOk s) :
    MemoryOk { s with mem := s.mem.fill ar.laxa.toNat offs f } := by
  obtain ⟨hwf, hbelow⟩ := h
  refine ⟨wf_fill hwf, below_fill hbelow fun o ho => ?_⟩
  calc ar.at o < 2 ^ linBits s.mode := hlin o ho
    _ ≤ 2 ^ 64 := Nat.pow_le_pow_right (by decide) (linBits_le s.mode)

/-- The state an exception of XSAVES leaves keeps the invariant, where its footprint does not wrap. -/
theorem inv_xsavesLate {d : Draws} {w : Bool} {o : Operand} {s : State}
    (hlin : ∀ off ∈ saveMin d s (areaOf s o), (areaOf s o).at off < 2 ^ linBits s.mode) (h : Inv s) :
    Inv (xsavesLate d w o s) := by
  unfold xsavesLate
  dsimp only
  split
  · exact h
  · exact ⟨memoryOk_fill hlin h.memory, h.xinuse, h.tracking⟩

theorem exec_fault_keeps_inv {i : Instr} {s post : State} {x : Exc} {code : Option (BitVec 32)} {info : Option Word64}
    (hs : Inv s) (h : exec i s = .fault (.exception x code info post)) : Inv post := by
  cases hi : i.saves with
  | false =>
    obtain rfl | ⟨hv, rfl⟩ := exec_restore_fault hi h
    · exact hs
    · exact inv_xrstorLate hv hs
  | true =>
    rw [exec_save hi, xsavesStep_fault] at h
    obtain ⟨-, rfl⟩ | ⟨hearly, hstop, rfl⟩ := h
    · exact hs
    · have hv : Cfg.valid s.cfg = true := (launchStop_eq_none.1 (xsavesEarly_eq_none.1 hearly).1).1
      exact inv_xsavesLate (fun off hoff => linear_of_addressChecks_raise hstop off (saveMin_subset hv off hoff)) hs

/-- Settles O47: by what an exception of a restore and of a save leaves. -/
theorem faultKeepsInvariant : Obligations.FaultKeepsInvariant := by
  intro s post x code info hs h
  obtain ⟨i, hexec⟩ := exists_exec_of_step_fault h
  exact exec_fault_keeps_inv hs hexec

end Sys2Proof.Machine
end

section
/-! A completed XSAVES or XSAVES64 (41_xsaves.md R170 to R184): the header and the components it writes, what it leaves, the checks of
privilege and VMX operation before it, and the modified optimization. -/

namespace Sys2Proof.Machine

open Sys2Proof

/-! ### Privilege and VMX operation (R180, R183) -/

/-- The pre-checks of XSAVES once #UD and #NM do not apply. -/
theorem xsavesPreStop_of_enabled {s : State} {o : Operand} (e : Enabled s o) (hxss : s.cfg.xss = true) :
    xsavesPreStop s o.pfx =
      if s.cpl ≠ 0#2 then some (gpZero s.mode) else if s.vmxnr then some (.refuse .vmxXsaves) else none := by
  simp [xsavesPreStop, e.xsave, hxss, e.osxsave, e.pfx, e.ts]

/-- XSAVES where a pre-check stops: nothing changes (R182). -/
theorem exec_save_preStop {i : Instr} {s : State} {st : Stop} (hi : i.saves = true) (e : Enabled s (operandOf i))
    (h : xsavesPreStop s (operandOf i).pfx = some st) : exec i s = st.outcome s := by
  have hearly : xsavesEarly s (operandOf i) = some st := by
    simp only [xsavesEarly, firstStop_cons, (xrstorPre_of_enabled e).1, h, Option.none_or, Option.some_or]
  rw [exec_save hi]
  simp only [xsavesStep, hearly]

/-- Settles O29: the privilege check is the first one left. -/
theorem xsavesPrivilegeFault : Obligations.XsavesPrivilegeFault := by
  intro i s hi e hxss hcpl
  refine exec_save_preStop hi e (st := gpZero s.mode) ?_
  rw [xsavesPreStop_of_enabled e hxss, if_pos hcpl]

/-- Settles O30: at CPL 0 the check of VMX operation is the next. -/
theorem xsavesRefusedInVmxNonRoot : Obligations.XsavesRefusedInVmxNonRoot := by
  intro i s hi e hxss hcpl hvmx
  refine exec_save_preStop hi e (st := .refuse .vmxXsaves) ?_
  rw [xsavesPreStop_of_enabled e hxss, if_neg (not_not.2 hcpl), if_pos hvmx]

/-! ### The header (R178, R179) -/

/-- Settles O17: a usable area passes every check, and the header is read back from what was written. -/
theorem xsavesCompletes : Obligations.XsavesCompletes := by
  intro i s hi la rfbm hr ⟨hwf, _⟩
  have hv := hr.enabled.cfg
  refine ⟨_, exec_of_saveReady hi hr, fun j => ?_, readXcompBv_savedMemory hv hwf, rfl⟩
  rw [xsavesDone_mem, readXstateBv_savedMemory hv hwf, getLsbD_xstateBv_scope hr.enabled.scope]
  rfl

/-- Settles O18: XSTATE_BV is what is needed, stored or skipped. -/
theorem xsavesWritesHeader : Obligations.XsavesWritesHeader := by
  intro i s t hi ⟨hwf, _⟩ h la rfbm
  obtain ⟨⟨hv, hscope, -⟩, -, rfl⟩ := exec_save_next hi h
  rw [xsavesDone_mem, readXstateBv_savedMemory hv hwf, readXcompBv_savedMemory hv hwf]
  refine ⟨fun j hj => ?_, getLsbD_xstateBv_scope hscope 1, getLsbD_saveCompmask_63, fun j hj => getLsbD_saveCompmask hj⟩
  rw [getLsbD_xstateBv_scope hscope, BitVec.getLsbD_and, beq_false_of_ne hj, Bool.false_and, Bool.or_false]
  rfl

/-! ### The components stored (R174 to R176) -/

/-- Settles O19: a needed component is stored where it may not be skipped, and its image is then in memory. -/
theorem xsavesStoresVectorState : Obligations.XsavesStoresVectorState := by
  intro i s t hi ⟨hwf, _⟩ h ar la
  obtain ⟨⟨hv, -⟩, -, rfl⟩ := exec_save_next hi h
  exact ⟨fun hneed hopt => readLE_savedMemory_sse hv hwf (stores_of_need hneed hopt),
    fun hneed hopt => readLE_savedMemory_avx hv hwf (stores_of_need hneed hopt)⟩

section X87

variable {d : Draws} {w : Bool} {s : State} {ar : Area} {x : X87}

/-- FOP is the low 11 bits of its field (20_memory.md R72). -/
theorem fopField_mod (d : Draws) (x : X87) : (fopField d x).toNat % 2 ^ 11 = x.fop.toNat := by
  rw [fopField, BitVec.toNat_append, Nat.shiftLeft_eq, Nat.mul_comm, ← Nat.two_pow_add_eq_or_of_lt x.fop.isLt,
    Nat.mul_add_mod, Nat.mod_eq_of_lt x.fop.isLt]

/-- A byte of ST[k] (20_memory.md R72). -/
theorem x87Byte_st (j : Fin 8) {k : Nat} (hk : k < 10) :
    x87Byte d w x (32 + 16 * j.val + k) = byteOf (x.st.get j).toNat k := by
  have hindex : (32 + 16 * j.val + k - 32) / 16 = j.val := by omega
  have hbyte : (32 + 16 * j.val + k - 32) % 16 = k := by omega
  simp only [x87Byte, x87StackByte, hindex, hbyte, fin8_ofNat, hk, if_true]
  simp only [show ∀ n, n ≤ 24 → ¬ 32 + 16 * j.val + k < n by omega, Nat.reduceLeDiff, if_false]

/-- The low bytes of a register in a field of the x87 image. -/
theorem readLE_savedMemory_x87_mod {off n v : Nat} (hv : Cfg.valid s.cfg = true) (hwf : s.mem.wf = true)
    (hs : stores d s ar 0 = true) (hr : off + n ≤ 24 ∨ (32 ≤ off ∧ off + n ≤ 160))
    (hb : ∀ k, k < n → x87Byte d w s.x87 (off + k) = byteOf v k) :
    (savedMemory d w s ar).readLE (ar.laxa.toNat + off) n = v % 256 ^ n :=
  readLE_savedMemory_x87 hv hwf hs hr (fun k hk => (hb k hk).trans (byteOf_mod v n k hk).symm)
    (Nat.mod_lt v (Nat.pow_pos (by decide)))

/-- The fields of the x87 image that both forms have. -/
theorem readLE_savedMemory_x87Fields (hv : Cfg.valid s.cfg = true) (hwf : s.mem.wf = true) (hs : stores d s ar 0 = true) :
    (savedMemory d w s ar).readLE ar.laxa.toNat 2 = s.x87.fcw.toNat ∧
    (savedMemory d w s ar).readLE (ar.laxa.toNat + 2) 2 = s.x87.fsw.toNat ∧
    (savedMemory d w s ar).read (ar.laxa.toNat + 4) = s.x87.ftw ∧
    (savedMemory d w s ar).readLE (ar.laxa.toNat + 6) 2 % 2 ^ 11 = s.x87.fop.toNat ∧
    ∀ j : Fin 8, (savedMemory d w s ar).readLE (ar.laxa.toNat + (32 + 16 * j.val)) 10 = (s.x87.st.get j).toNat := by
  refine ⟨?_, ?_, ?_, ?_, fun j => ?_⟩
  · exact readLE_savedMemory_x87 (off := 0) hv hwf hs (by omega) (fun k hk => by interval_cases k <;> rfl) s.x87.fcw.isLt
  · exact readLE_savedMemory_x87 hv hwf hs (by omega) (fun k hk => by interval_cases k <;> rfl) s.x87.fsw.isLt
  · rw [read_savedMemory_mem hwf ((mem_saveMin hv).2 (.inl ⟨hs, .inl (by decide)⟩)), savedByte_x87 hv (.inl (by decide))]
    show byteOf s.x87.ftw.toNat 0 = s.x87.ftw
    rw [byteOf_zero, BitVec.ofNat_toNat, BitVec.setWidth_eq]
  · rw [readLE_savedMemory_x87 hv hwf hs (by omega) (fun k hk => by interval_cases k <;> rfl) (fopField d s.x87).isLt,
      fopField_mod]
  · have hj := j.isLt
    exact readLE_savedMemory_x87 hv hwf hs (by omega) (fun k hk => x87Byte_st j hk) (s.x87.st.get j).isLt

/-- The x87 pointers of XSAVES64 (20_memory.md R73). -/
theorem readLE_savedMemory_x87Wide (hv : Cfg.valid s.cfg = true) (hwf : s.mem.wf = true) (hs : stores d s ar 0 = true) :
    (savedMemory d true s ar).readLE (ar.laxa.toNat + 8) 8 = s.x87.fip.toNat ∧
    (savedMemory d true s ar).readLE (ar.laxa.toNat + 16) 8 = s.x87.fdp.toNat :=
  ⟨readLE_savedMemory_x87 hv hwf hs (by omega) (fun k hk => by interval_cases k <;> rfl) s.x87.fip.isLt,
    readLE_savedMemory_x87 hv hwf hs (by omega) (fun k hk => by interval_cases k <;> rfl) s.x87.fdp.isLt⟩

/-- The x87 pointers of XSAVES (20_memory.md R73). -/
theorem readLE_savedMemory_x87Narrow (hv : Cfg.valid s.cfg = true) (hwf : s.mem.wf = true) (hs : stores d s ar 0 = true) :
    (savedMemory d false s ar).readLE (ar.laxa.toNat + 8) 4 = s.x87.fip.toNat % 2 ^ 32 ∧
    (savedMemory d false s ar).readLE (ar.laxa.toNat + 12) 2 = s.x87.fcs.toNat ∧
    (savedMemory d false s ar).readLE (ar.laxa.toNat + 16) 4 = s.x87.fdp.toNat % 2 ^ 32 ∧
    (savedMemory d false s ar).readLE (ar.laxa.toNat + 20) 2 = s.x87.fds.toNat :=
  ⟨readLE_savedMemory_x87_mod hv hwf hs (by omega) (fun k hk => by interval_cases k <;> rfl),
    readLE_savedMemory_x87 hv hwf hs (by omega) (fun k hk => by interval_cases k <;> rfl) s.x87.fcs.isLt,
    readLE_savedMemory_x87_mod hv hwf hs (by omega) (fun k hk => by interval_cases k <;> rfl),
    readLE_savedMemory_x87 hv hwf hs (by omega) (fun k hk => by interval_cases k <;> rfl) s.x87.fds.isLt⟩

end X87

/-- Settles O20: likewise for x87 state, field by field. -/
theorem xsavesStoresX87State : Obligations.XsavesStoresX87State := by
  intro i s t hi ⟨hwf, _⟩ h ar la hneed hopt
  obtain ⟨⟨hv, -⟩, -, rfl⟩ := exec_save_next hi h
  have hs : stores (Draws.at s.draws) s ar 0 = true := stores_of_need hneed hopt
  rw [xsavesDone_mem]
  obtain ⟨hfcw, hfsw, hftw, hfop, hst⟩ := readLE_savedMemory_x87Fields (w := i.wide) hv hwf hs
  refine ⟨hfcw, hfsw, hftw, hfop, fun hw => ?_, fun hw => ?_, hst⟩
  · rw [hw]
    exact readLE_savedMemory_x87Wide hv hwf hs
  · rw [hw]
    exact readLE_savedMemory_x87Narrow hv hwf hs

/-! ### What is not written (R177) -/

theorem sameComponents_xsavesDone (d : Draws) (w : Bool) (o : Operand) (s : State) :
    SameComponents s (xsavesDone d w o s) := by
  constructor <;> simp

/-- A byte of memory that is none of the area bytes filled. -/
theorem read_fill_of_ne {m : Memory} (hwf : m.wf = true) {la a : Nat} {offs : List Nat} {f : Nat → Byte}
    (ha : ∀ o ∈ offs, a ≠ la + o) : (m.fill la offs f).read a = m.read a := by
  rw [read_fill hwf, if_neg]
  rintro ⟨hle, hmem⟩
  exact ha _ hmem (by omega)

/-- Settles O21: the completed state differs in RIP, memory and the count of draws, memory in the bytes of `MIN`. -/
theorem xsavesFrame : Obligations.XsavesFrame := by
  intro i s t hi ⟨hwf, _⟩ h ar
  obtain ⟨-, -, rfl⟩ := exec_save_next hi h
  exact ⟨sameContext_xsavesDone .., sameComponents_xsavesDone .., fun a ha => read_fill_of_ne hwf ha⟩

/-- Settles O22: none of these bytes is in `MIN`, region by region. -/
theorem xsavesNeverWrites : Obligations.XsavesNeverWrites := by
  intro i s t hi ⟨hwf, _⟩ h ar d same
  obtain ⟨⟨hv, -⟩, -, rfl⟩ := exec_save_next hi h
  obtain ⟨_, _, hhdr, hext, _⟩ := Cfg.valid_data hv
  have hn := nVec_le_sixteen s.mode
  have hsame : ∀ o, o ∉ saveMin d s ar → same o := fun o ho => read_savedMemory_not_mem hwf ho
  simp only [mem_saveMin hv] at hsame
  refine ⟨fun o hlo hhi => ?_, fun o hlo hhi => ?_, fun hs o ho => ?_, fun hs o ho => ?_, fun hs o => ?_, fun hmode => ?_⟩
  · exact hsame o (by omega)
  · exact hsame _ (by omega)
  · exact hsame o (by rw [hs]; simp only [Bool.false_eq_true, false_and, false_or]; omega)
  · exact hsame o (by rw [hs]; simp only [Bool.false_eq_true, false_and, false_or]; omega)
  · exact hsame _ (by rw [hs]; simp only [Bool.false_eq_true, false_and, or_false]; omega)
  · have hn8 : nVec s.mode = 8 := if_neg hmode
    exact ⟨fun o hlo hhi => hsame o (by omega), fun o hlo => hsame _ (by omega)⟩

theorem stores_eq_false {d : Draws} {s : State} {ar : Area} {j : Nat} (h : need s j = false) : stores d s ar j = false := by
  rw [stores, h, Bool.false_and]

/-- Nothing is needed where nothing is requested (R174). -/
theorem need_of_no_request {s : State} (h : saveRfbm s = 0) (j : Nat) : need s j = false := by
  simp [need, h]

/-- Settles O23: no component is needed, so `MIN` is the 16 header bytes. -/
theorem xsavesWithoutRequest : Obligations.XsavesWithoutRequest := by
  intro i s t hi hm h hzero la
  obtain ⟨-, -, hframe⟩ := xsavesFrame i s t hi hm h
  obtain ⟨hwf, _⟩ := hm
  obtain ⟨⟨hv, -⟩, -, rfl⟩ := exec_save_next hi h
  have hrfbm : saveRfbm s = 0 := hzero
  have hneed := need_of_no_request hrfbm
  refine ⟨?_, ?_, fun a ha => hframe a fun o ho => ?_⟩
  · rw [xsavesDone_mem, readXstateBv_savedMemory hv hwf]
    simp [xstateBv, hneed]
  · rw [xsavesDone_mem, readXcompBv_savedMemory hv hwf, saveCompmask, hrfbm]
    rfl
  · simp only [mem_saveMin hv, stores_eq_false (hneed _), Bool.false_eq_true, false_and, false_or, or_false] at ho
    show a ≠ la + o
    omega

/-! ### The modified optimization (R173, R176) -/

/-- A byte of the x87 image of a stored component (R175). -/
theorem read_savedMemory_x87 {d : Draws} {w : Bool} {s : State} {ar : Area} {o : Nat} (hv : Cfg.valid s.cfg = true)
    (hwf : s.mem.wf = true) (hs : stores d s ar 0 = true) (ho : o < 24 ∨ (32 ≤ o ∧ o < 160)) :
    (savedMemory d w s ar).read (ar.laxa.toNat + o) = x87Byte d w s.x87 o := by
  rw [read_savedMemory_mem hwf ((mem_saveMin hv).2 (.inl ⟨hs, ho⟩)), savedByte_x87 hv ho]

/-- Settles O24: a component that is stored has its whole image in memory, one that is not has no byte written. -/
theorem xsavesSkipsWholeComponentOrNothing : Obligations.XsavesSkipsWholeComponentOrNothing := by
  intro i s t hi hm h la same
  obtain ⟨-, -, hx87, hsse, havx, -⟩ := xsavesNeverWrites i s t hi hm h
  obtain ⟨hwf, _⟩ := hm
  obtain ⟨⟨hv, -⟩, -, rfl⟩ := exec_save_next hi h
  refine ⟨fun _ => ?_, fun _ => ?_, fun _ => ?_⟩
  · cases hs : stores (Draws.at s.draws) s (areaOf s (operandOf i)) 0 with
    | true => exact .inl fun o ho => read_savedMemory_x87 hv hwf hs ho
    | false => exact .inr (hx87 hs)
  · cases hs : stores (Draws.at s.draws) s (areaOf s (operandOf i)) 1 with
    | true => exact .inl (readLE_savedMemory_sse hv hwf hs)
    | false => exact .inr (hsse hs)
  · cases hs : stores (Draws.at s.draws) s (areaOf s (operandOf i)) 2 with
    | true => exact .inl (readLE_savedMemory_avx hv hwf hs)
    | false => exact .inr (havx hs)

/-- MODOPT compares XRSTOR_INFO with the tuple of this execution. -/
theorem modOpt_iff {s : State} {ar : Area} :
    modOpt s ar = true ↔ s.xrstorInfo = some ⟨s.cpl, s.vmxnr, ar.laxa, saveCompmask s⟩ :=
  decide_eq_true_iff

/-- COMPMASK is the word with bit 63 set and RFBM below it (R172). -/
theorem eq_saveCompmask_iff {s : State} {v : Word64} :
    v = saveCompmask s ↔ v.getLsbD 63 = true ∧ ∀ n, n < 63 → v.getLsbD n = (saveRfbm s).getLsbD n := by
  constructor
  · rintro rfl
    exact ⟨getLsbD_saveCompmask_63, fun n hn => getLsbD_saveCompmask hn⟩
  · rintro ⟨htop, hlow⟩
    refine BitVec.eq_of_getLsbD_eq fun n hn => ?_
    by_cases hn63 : n < 63
    · rw [hlow n hn63, getLsbD_saveCompmask hn63]
    · obtain rfl : n = 63 := by omega
      rw [htop, getLsbD_saveCompmask_63]

/-- MODOPT in the state a completed XRSTOR left: it recorded its own CPL and VMXNR, which have not changed, so what is left to agree
is LAXA and XCOMP_BV. -/
theorem modOpt_after_restore {i : Instr} {s t : State} {ar : Area} (hi : i.saves = false) (h : exec i s = .next t) :
    modOpt t ar = true ↔ ar.laxa = (areaOf s (operandOf i)).laxa ∧
      (xrstorMasks s (areaOf s (operandOf i))).compmask = saveCompmask t := by
  obtain ⟨-, -, rfl⟩ := exec_restore_next hi h
  simp only [modOpt_iff, xrstorDone_xrstorInfo, xrstorDone_cpl, xrstorDone_vmxnr, Option.some.injEq, XrstorInfo.mk.injEq,
    true_and, eq_comm (a := ar.laxa)]

/-- Settles O26: after an XRSTOR MODOPT compares LAXA and XCOMP_BV, and COMPMASK has bit 63 set. -/
theorem standardRestoreDisablesModifiedOptimization : Obligations.StandardRestoreDisablesModifiedOptimization := by
  refine ⟨fun s ar => ?_, ?_⟩
  · rw [modOpt_iff]
    constructor
    · exact fun hinfo => ⟨_, hinfo, rfl, rfl, rfl, rfl⟩
    · rintro ⟨⟨cpl, vmxnr, laxa, compmask⟩, hinfo, rfl, rfl, rfl, rfl⟩
      exact hinfo
  · intro i j s t hi h comp rfbm
    have hiff := modOpt_after_restore (ar := areaOf t (operandOf j)) hi h
    rw [eq_saveCompmask_iff] at hiff
    exact ⟨hiff, fun hstandard => eq_false_of_ne_true fun hopt => ne_true_of_eq_false hstandard (hiff.1 hopt).2.1⟩

/-! ### The two forms (R171) -/

section Width

variable {d : Draws} {s : State} {ar : Area}

/-- The width of the form shows in the x87 image only. -/
theorem savedByte_wide_irrelevant {o : Nat} (hv : Cfg.valid s.cfg = true) (hs : stores d s ar 0 = false)
    (ho : o ∈ saveMin d s ar) (w w' : Bool) : savedByte d w s o = savedByte d w' s o := by
  simp only [mem_saveMin hv, hs, Bool.false_eq_true, false_and, false_or] at ho
  have hnx87 : 160 ≤ o ∨ (24 ≤ o ∧ o < 32) := by
    obtain ⟨_, _, hhdr, hext, _⟩ := Cfg.valid_data hv
    omega
  simp only [savedByte, if_pos hnx87]

theorem savedMemory_wide_irrelevant (hv : Cfg.valid s.cfg = true) (hs : stores d s ar 0 = false) (w w' : Bool) :
    savedMemory d w s ar = savedMemory d w' s ar :=
  fill_congr fun _ ho => savedByte_wide_irrelevant hv hs ho w w'

theorem lateMemory_wide_irrelevant (hv : Cfg.valid s.cfg = true) (hs : stores d s ar 0 = false) (w w' : Bool) :
    lateMemory d w s ar = lateMemory d w' s ar :=
  fill_congr fun _ ho => by rw [savedByte_wide_irrelevant hv hs ho w w']

theorem xsavesStep_wide_irrelevant {o : Operand} (hs : stores d s (areaOf s o) 0 = false) (w w' : Bool) :
    xsavesStep d w o s = xsavesStep d w' o s := by
  unfold xsavesStep
  cases hearly : xsavesEarly s o with
  | some st => rfl
  | none =>
    obtain ⟨hlaunch, -⟩ := xsavesEarly_eq_none.1 hearly
    obtain ⟨hv, -⟩ := launchStop_eq_none.1 hlaunch
    simp only [xsavesLate, xsavesDone, savedMemory_wide_irrelevant hv hs w w', lateMemory_wide_irrelevant hv hs w w']

end Width

/-- Settles O25: the forms differ in the x87 image they store, and none is stored. -/
theorem xsavesFormsAgreeWithoutX87Store : Obligations.XsavesFormsAgreeWithoutX87Store :=
  fun _ _ _ _ h => xsavesStep_wide_irrelevant h true false

/-! ### What an exception leaves (R182) -/

section Late

variable {d : Draws} {w : Bool} {s : State} {ar : Area}

/-- A byte XSAVES would write holds its old or its new value after an exception. -/
theorem read_lateMemory_mem {o : Nat} (hwf : s.mem.wf = true) (ho : o ∈ saveMin d s ar) :
    (lateMemory d w s ar).read (ar.laxa.toNat + o) = s.mem.read (ar.laxa.toNat + o) ∨
      (lateMemory d w s ar).read (ar.laxa.toNat + o) = savedByte d w s o := by
  rw [lateMemory, read_fill_mem hwf ho]
  cases d.lateByteNew o with
  | true => exact .inr rfl
  | false => exact .inl rfl

/-- Memory after an exception of XSAVES is as before, or late. -/
theorem xsavesLate_mem (d : Draws) (w : Bool) (o : Operand) (s : State) :
    (xsavesLate d w o s).mem = s.mem ∨ (xsavesLate d w o s).mem = lateMemory d w s (areaOf s o) := by
  unfold xsavesLate
  dsimp only
  split
  · exact .inl rfl
  · exact .inr rfl

end Late

theorem sameComponents_refl (s : State) : SameComponents s s := by
  constructor <;> rfl

/-- An exception of XSAVES leaves the registers, and memory as it was or late. -/
theorem exec_save_fault {i : Instr} {s post : State} {x : Exc} {code : Option (BitVec 32)} {info : Option Word64}
    (hi : i.saves = true) (h : exec i s = .fault (.exception x code info post)) :
    (SameContext s post ∧ SameComponents s post ∧ post.rip = s.rip) ∧
      (post.mem = s.mem ∨ post.mem = lateMemory (Draws.at s.draws) i.wide s (areaOf s (operandOf i))) := by
  rw [exec_save hi, xsavesStep_fault] at h
  obtain ⟨-, rfl⟩ | ⟨-, -, rfl⟩ := h
  · exact ⟨⟨sameContext_refl post, sameComponents_refl post, rfl⟩, .inl rfl⟩
  · exact ⟨xsavesLate_keeps_registers .., xsavesLate_mem ..⟩

/-- Settles O43: memory as it was, or filled with old and new bytes over `MIN`. -/
theorem xsavesFaultFrame : Obligations.XsavesFaultFrame := by
  intro i s post x code info hi ⟨hwf, _⟩ h ar d
  obtain ⟨⟨hcontext, hcomponents, hrip⟩, hmem | hmem⟩ := exec_save_fault hi h
  · rw [hmem]
    exact ⟨hcontext, hcomponents, hrip, fun _ _ => .inl rfl, fun _ _ => rfl⟩
  · rw [hmem]
    exact ⟨hcontext, hcomponents, hrip, fun _ ho => read_lateMemory_mem hwf ho, fun _ ha => read_fill_of_ne hwf ha⟩

end Sys2Proof.Machine
end

section
/-! A save and a restore, one after the other (70_reset_and_hazards.md R246, 41_xsaves.md R176): what XRSTOR loads from what XSAVES
stored, what XSAVES stores of what XRSTOR loaded, and the two round trips. -/

namespace Sys2Proof.Machine

open Sys2Proof

/-! ### x87 state up to the pointers a form holds (20_memory.md R73, D19) -/

/-- Two x87 states agree in what the image of a form with or without REX.W holds: the pointers in full without the selectors, or the
selectors and the low halves of the pointers. -/
structure SameX87Image (w : Bool) (x y : X87) : Prop where
  fcw    : y.fcw = x.fcw
  fsw    : y.fsw = x.fsw
  ftw    : y.ftw = x.ftw
  fop    : y.fop = x.fop
  st     : y.st = x.st
  wide   : w = true → y.fip = x.fip ∧ y.fdp = x.fdp
  narrow : w = false → y.fcs = x.fcs ∧ y.fds = x.fds ∧ y.fip.toNat % 2 ^ 32 = x.fip.toNat % 2 ^ 32 ∧
    y.fdp.toNat % 2 ^ 32 = x.fdp.toNat % 2 ^ 32

theorem SameX87Image.refl (w : Bool) (x : X87) : SameX87Image w x x :=
  ⟨rfl, rfl, rfl, rfl, rfl, fun _ => ⟨rfl, rfl⟩, fun _ => ⟨rfl, rfl, rfl, rfl⟩⟩

theorem vector_ext_get {α : Type} {n : Nat} {v v' : Vector α n} (h : ∀ j : Fin n, v.get j = v'.get j) : v = v' :=
  Vector.ext fun j hj => h ⟨j, hj⟩

/-- Loading the image of x87 state gives that state back, as far as the form's image holds it. -/
theorem sameX87Image_load_saved {d d' : Draws} {w : Bool} {s : State} {ar : Area} (hv : Cfg.valid s.cfg = true)
    (hwf : s.mem.wf = true) (hs : stores d s ar 0 = true) :
    SameX87Image w s.x87 (loadX87 d' w (savedMemory d w s ar) ar.laxa.toNat) := by
  obtain ⟨hfcw, hfsw, hftw, hfop, hst⟩ := readLE_savedMemory_x87Fields (w := w) hv hwf hs
  obtain ⟨hload, hfip, hfcs, hfdp, hfds, hfip64, hfdp64⟩ :=
    loadX87FieldsByForm d' (savedMemory d w s ar) ar.laxa.toNat
  obtain ⟨hlfcw, hlfsw, hlftw, hlfop, hlst⟩ := hload w
  refine ⟨?_, ?_, hlftw.trans hftw, ?_, ?_, ?_, ?_⟩
  · exact BitVec.eq_of_toNat_eq (hlfcw.trans hfcw)
  · exact BitVec.eq_of_toNat_eq (hlfsw.trans hfsw)
  · exact BitVec.eq_of_toNat_eq (hlfop.trans hfop)
  · exact vector_ext_get fun j => BitVec.eq_of_toNat_eq ((hlst j).trans (hst j))
  · rintro rfl
    obtain ⟨hfip', hfdp'⟩ := readLE_savedMemory_x87Wide hv hwf hs
    exact ⟨BitVec.eq_of_toNat_eq (hfip64.trans hfip'), BitVec.eq_of_toNat_eq (hfdp64.trans hfdp')⟩
  · rintro rfl
    obtain ⟨hfip', hfcs', hfdp', hfds'⟩ := readLE_savedMemory_x87Narrow hv hwf hs
    refine ⟨BitVec.eq_of_toNat_eq (hfcs.trans hfcs'), BitVec.eq_of_toNat_eq (hfds.trans hfds'), ?_, ?_⟩
    · rw [hfip, hfip', Nat.mod_mod]
    · rw [hfdp, hfdp', Nat.mod_mod]

/-! ### XRSTOR of what XSAVES wrote -/

/-- The masks an XRSTOR reads after an XSAVES of `s` to the same address. -/
def savedMasks (s : State) : Masks := ⟨saveRfbm s, xstateBv s, saveCompmask s⟩

theorem savedMasks_compacted (s : State) : (savedMasks s).compmask.getLsbD 63 = true := getLsbD_saveCompmask_63

/-- XRSTOR loads the components that were needed (R178). -/
theorem getLsbD_savedMasks_rstormask {s : State} {j : Nat} (hj : j < 3) : (savedMasks s).rstormask.getLsbD j = need s j := by
  rw [savedMasks, getLsbD_xstateBv, decide_eq_true hj, Bool.true_and]

/-- A component requested and not needed is not in use, and for component 1 MXCSR is initial (R174). -/
theorem not_inuse_of_not_need {s : State} {j : Nat} (hr : (savedMasks s).rfbm.getLsbD j = true)
    (hn : need s j = false) :
    s.xinuse.getLsbD j = false ∧ (j = 1 → s.mxcsr = mxcsrInitial) := by
  rw [need, show (saveRfbm s).getLsbD j = true from hr, Bool.true_and, Bool.or_eq_false_iff] at hn
  obtain ⟨hinuse, hmxcsr⟩ := hn
  refine ⟨hinuse, fun hj => ?_⟩
  simpa [hj] using hmxcsr

/-- Loading registers from their own images changes nothing. -/
theorem loadVecs_of_image {m : Memory} {la base n : Nat} {v : VecFile}
    (h : ∀ j : Fin 16, j.val < n → m.readLE (la + (base + 16 * j.val)) 16 = (v.get j).toNat) : loadVecs m la base n v = v := by
  refine vector_ext_get fun j => ?_
  rw [get_loadVecs]
  split
  · rename_i hj
    rw [h j hj, BitVec.ofNat_toNat, BitVec.setWidth_eq]
  · rfl

/-- A file of vector registers comes back if it is loaded from its image and cleared only where it is zero. -/
theorem restoredVecs_eq {requested present : Bool} {m : Memory} {la base n : Nat} {v : VecFile}
    (hload : requested = true → present = true →
      ∀ j : Fin 16, j.val < n → m.readLE (la + (base + 16 * j.val)) 16 = (v.get j).toNat)
    (hclear : requested = true → present = false → v = zeroVecs) :
    (if requested then (if present then loadVecs m la base n v else clearVecs n v) else v) = v := by
  cases requested with
  | false => rfl
  | true =>
    cases present with
    | true => exact loadVecs_of_image (hload rfl rfl)
    | false => exact (clearVecs_zero (hclear rfl rfl)).trans (hclear rfl rfl).symm

section SaveRestore

variable {d d' : Draws} {w : Bool} {s : State} {o : Operand} {ar : Area}

variable (hv : Cfg.valid s.cfg = true) (hwf : s.mem.wf = true) (hla : ar.laxa = (areaOf s o).laxa)

include hv hwf hla

theorem xrstorMasks_xsavesDone (hscope : s.inScope = true) : xrstorMasks (xsavesDone d w o s) ar = savedMasks s := by
  have hrfbm : (xsavesDone d w o s).xcr0 &&& (xsavesDone d w o s).instrMask = saveRfbm s := (saveRfbm_eq hscope).symm
  rw [xrstorMasks, hrfbm, hla, xsavesDone_cfg, xsavesDone_mem, readXstateBv_savedMemory hv hwf,
    readXcompBv_savedMemory hv hwf, savedMasks]

variable (hinv : InvXinuse s) (hopt : modOpt s (areaOf s o) = false)

include hinv hopt

/-- x87 state is loaded from its image, or initialised as it was, or kept. -/
theorem restoredX87_xsavesDone : SameX87Image w s.x87 (restoredX87 d' w (xsavesDone d w o s) ar (savedMasks s)) := by
  cases hr : (savedMasks s).rfbm.getLsbD 0 with
  | false =>
    rw [restoredX87_of_not_requested hr]
    exact .refl w s.x87
  | true =>
    rw [restoredX87, if_pos hr, getLsbD_savedMasks_rstormask (by decide), hla]
    cases hn : need s 0 with
    | true => exact sameX87Image_load_saved hv hwf (stores_of_need hn (.inl hopt))
    | false =>
      rw [hinv.1 (not_inuse_of_not_need hr hn).1]
      exact .refl w X87.initial

/-- The XMM registers likewise. -/
theorem restoredXmm_xsavesDone : restoredXmm (xsavesDone d w o s) ar (savedMasks s) = s.xmm := by
  obtain ⟨-, hinv1, -⟩ := hinv
  rw [restoredXmm, getLsbD_savedMasks_rstormask (by decide), hla, xsavesDone_mem, xsavesDone_mode, xsavesDone_xmm]
  refine restoredVecs_eq (fun _ hn => ?_) fun hr hn => hinv1 (not_inuse_of_not_need hr hn).1
  obtain ⟨-, -, himage⟩ := readLE_savedMemory_sse hv hwf (stores_of_need hn (.inl hopt))
  exact himage

omit hinv in
/-- MXCSR goes with SSE state in the compacted form (40_xrstor.md R141). -/
theorem restoredMxcsr_xsavesDone : restoredMxcsr (xsavesDone d w o s) ar (savedMasks s) = s.mxcsr := by
  rw [restoredMxcsr_compacted (savedMasks_compacted s), getLsbD_savedMasks_rstormask (by decide), hla]
  cases hr : (savedMasks s).rfbm.getLsbD 1 with
  | false => rfl
  | true =>
    rw [if_pos rfl]
    cases hn : need s 1 with
    | true =>
      obtain ⟨himage, -⟩ := readLE_savedMemory_sse (w := w) hv hwf (stores_of_need (d := d) hn (.inl hopt))
      rw [if_pos rfl, readMxcsr, areaField, xsavesDone_mem, himage, BitVec.ofNat_toNat, BitVec.setWidth_eq]
    | false => exact ((not_inuse_of_not_need hr hn).2 rfl).symm

/-- The upper halves of the YMM registers likewise, both instructions using the compacted format. -/
theorem restoredYmmHi_xsavesDone : restoredYmmHi (xsavesDone d w o s) ar (savedMasks s) = s.ymmHi := by
  obtain ⟨-, -, hinv2⟩ := hinv
  rw [restoredYmmHi, getLsbD_savedMasks_rstormask (by decide), hla, xsavesDone_mem, xsavesDone_mode, xsavesDone_ymmHi,
    xsavesDone_cfg, avxBase_compacted (savedMasks_compacted s) hv]
  exact restoredVecs_eq (fun _ hn => readLE_savedMemory_avx hv hwf (stores_of_need hn (.inl hopt)))
    fun hr hn => hinv2 (not_inuse_of_not_need hr hn).1

end SaveRestore

/-- Settles O56: the XRSTOR reads the header the XSAVES wrote, and each component comes back by its case: stored and loaded, not in
use and initialised, not requested and kept. -/
theorem saveThenRestoreReturnsState : Obligations.SaveThenRestoreReturnsState := by
  intro i j s t u hi hj hwide ⟨⟨hwf, _⟩, hinv, _⟩ hsave hrestore hla hopt
  obtain ⟨⟨hv, hscope, -⟩, -, rfl⟩ := exec_save_next hi hsave
  obtain ⟨-, -, rfl⟩ := exec_restore_next hj hrestore
  rw [xrstorMasks_xsavesDone hv hwf hla hscope, ← hwide]
  have hx87 := restoredX87_xsavesDone (d := Draws.at s.draws)
    (d' := Draws.at (xsavesDone (Draws.at s.draws) i.wide (operandOf i) s).draws) (w := i.wide) hv hwf hla hinv hopt
  exact ⟨restoredXmm_xsavesDone hv hwf hla hinv hopt, restoredMxcsr_xsavesDone hv hwf hla hopt,
    restoredYmmHi_xsavesDone hv hwf hla hinv hopt, hx87.fcw, hx87.fsw, hx87.ftw, hx87.fop, hx87.st, hx87.wide, hx87.narrow⟩

/-! ### XSAVES of what XRSTOR loaded -/

/-- The x87 image decides what is loaded from it. -/
theorem loadX87_congr {d : Draws} {w : Bool} {m m' : Memory} {la : Nat}
    (h : ∀ o, o < 24 ∨ (32 ≤ o ∧ o < 160) → m.read (la + o) = m'.read (la + o)) : loadX87 d w m la = loadX87 d w m' la := by
  have hfield : ∀ off n, off + n ≤ 24 ∨ (32 ≤ off ∧ off + n ≤ 160) → areaField m la off n = areaField m' la off n := by
    intro off n hrange
    refine readLE_congr fun k hk => ?_
    rw [Nat.add_assoc]
    exact h (off + k) (by omega)
  have hst : ∀ j : Fin 8, areaField m la (32 + 16 * j.val) 10 = areaField m' la (32 + 16 * j.val) 10 := fun j =>
    hfield _ 10 (by omega)
  simp (disch := omega) only [loadX87, hst, hfield]

theorem x87_ext {x y : X87} (hfcw : x.fcw = y.fcw) (hfsw : x.fsw = y.fsw) (hftw : x.ftw = y.ftw) (hfop : x.fop = y.fop)
    (hfip : x.fip = y.fip) (hfcs : x.fcs = y.fcs) (hfdp : x.fdp = y.fdp) (hfds : x.fds = y.fds) (hst : x.st = y.st) : x = y := by
  cases x
  cases y
  simp_all only

/-- Without REX.W the pointers loaded are 32-bit offsets. -/
theorem loadX87_narrow_lt (d : Draws) (m : Memory) (la : Nat) :
    (loadX87 d false m la).fip.toNat < 2 ^ 32 ∧ (loadX87 d false m la).fdp.toNat < 2 ^ 32 := by
  obtain ⟨-, hfip, -, hfdp, -⟩ := loadX87FieldsByForm d m la
  rw [hfip, hfdp]
  exact ⟨readLE_lt, readLE_lt⟩

/-- What is loaded is decided by what the image of the form holds and the values drawn. -/
theorem loadX87_eq_of_sameImage {d d' : Draws} {w : Bool} {m m' : Memory} {la : Nat}
    (h : SameX87Image w (loadX87 d' w m la) (loadX87 d w m' la)) : loadX87 d w m' la = loadX87 d w m la := by
  obtain ⟨hfcw, hfsw, hftw, hfop, hst, hwide, hnarrow⟩ := h
  cases w with
  | true =>
    obtain ⟨hfip, hfdp⟩ := hwide rfl
    exact x87_ext hfcw hfsw hftw hfop hfip rfl hfdp rfl hst
  | false =>
    obtain ⟨hfcs, hfds, hfip, hfdp⟩ := hnarrow rfl
    obtain ⟨hfipLt, hfdpLt⟩ := loadX87_narrow_lt d' m la
    obtain ⟨hfipLt', hfdpLt'⟩ := loadX87_narrow_lt d m' la
    rw [Nat.mod_eq_of_lt hfipLt, Nat.mod_eq_of_lt hfipLt'] at hfip
    rw [Nat.mod_eq_of_lt hfdpLt, Nat.mod_eq_of_lt hfdpLt'] at hfdp
    exact x87_ext hfcw hfsw hftw hfop (BitVec.eq_of_toNat_eq hfip) hfcs (BitVec.eq_of_toNat_eq hfdp) hfds hst

/-- The image of registers that were loaded is, byte by byte, what they were loaded from. -/
theorem vecByte_loadVecs {m : Memory} {la base n o : Nat} {v : VecFile} (hn : n ≤ 16) (hlo : base ≤ o) (hhi : o < base + 16 * n) :
    vecByte (loadVecs m la base n v) base o = m.read (la + o) := by
  obtain ⟨j, b, hb, rfl⟩ : ∃ (j : Fin 16) (b : Nat), b < 16 ∧ o = base + 16 * j.val + b :=
    ⟨⟨(o - base) / 16, by omega⟩, (o - base) % 16, by omega, by dsimp only; omega⟩
  have hindex : (base + 16 * j.val + b - base) / 16 = j.val := by omega
  have hbyte : (base + 16 * j.val + b - base) % 16 = b := by omega
  rw [vecByte, hindex, hbyte, fin16_ofNat, get_loadVecs, if_pos (by omega), toNat_readLE m _ 16 128 le_rfl,
    byteOf_readLE hb, Nat.add_assoc, Nat.add_assoc]

section StoreLoaded

variable {d : Draws} {w : Bool} {s : State} {ar : Area}

variable (hv : Cfg.valid s.cfg = true) (hwf : s.mem.wf = true)

include hwf in
/-- A byte whose new value is its old one is as before, written or not. -/
theorem read_savedMemory_of_same {o : Nat} (h : savedByte d w s o = s.mem.read (ar.laxa.toNat + o)) :
    (savedMemory d w s ar).read (ar.laxa.toNat + o) = s.mem.read (ar.laxa.toNat + o) := by
  by_cases ho : o ∈ saveMin d s ar
  · rw [read_savedMemory_mem hwf ho, h]
  · exact read_savedMemory_not_mem hwf ho

include hv hwf

/-- x87 state over the image it was loaded from: what a load reads there is as before. -/
theorem loadX87_savedMemory_of_loaded {d' d'' : Draws} (hx87 : s.x87 = loadX87 d' w s.mem ar.laxa.toNat) :
    loadX87 d'' w (savedMemory d w s ar) ar.laxa.toNat = loadX87 d'' w s.mem ar.laxa.toNat := by
  cases hs : stores d s ar 0 with
  | true =>
    have himage := sameX87Image_load_saved (d' := d'') (w := w) hv hwf hs
    rw [hx87] at himage
    exact loadX87_eq_of_sameImage himage
  | false =>
    refine loadX87_congr fun o ho => read_savedMemory_not_mem hwf fun hmem => ?_
    obtain ⟨_, _, hhdr, hext, _⟩ := Cfg.valid_data hv
    rw [mem_saveMin hv, hs] at hmem
    simp only [Bool.false_eq_true, false_and, false_or] at hmem
    omega

/-- MXCSR over the image it was loaded from. -/
theorem readMxcsr_savedMemory_of_loaded (hmxcsr : s.mxcsr = readMxcsr s.mem ar.laxa.toNat) :
    readMxcsr (savedMemory d w s ar) ar.laxa.toNat = readMxcsr s.mem ar.laxa.toNat := by
  have hfield : (savedMemory d w s ar).readLE (ar.laxa.toNat + 24) 4 = s.mem.readLE (ar.laxa.toNat + 24) 4 := by
    refine readLE_congr fun k hk => ?_
    rw [Nat.add_assoc]
    refine read_savedMemory_of_same hwf ?_
    rw [savedByte_sse hv (by omega) (by omega), sseByte, if_pos (by omega), hmxcsr, readMxcsr, areaField,
      toNat_readLE s.mem _ 4 32 le_rfl, Nat.add_sub_cancel_left, byteOf_readLE hk, Nat.add_assoc]
  rw [readMxcsr, areaField, hfield]
  rfl

/-- The XMM registers over the image they were loaded from. -/
theorem read_savedMemory_xmm_of_loaded {v : VecFile} (hxmm : s.xmm = loadVecs s.mem ar.laxa.toNat 160 (nVec s.mode) v) :
    ∀ o ∈ xmmBytes s.mode, (savedMemory d w s ar).read (ar.laxa.toNat + o) = s.mem.read (ar.laxa.toNat + o) := by
  intro o ho
  obtain ⟨hlo, hhi⟩ := mem_span.1 ho
  have hn := nVec_le_sixteen s.mode
  refine read_savedMemory_of_same hwf ?_
  rw [savedByte_sse hv (by omega) (.inl hlo), sseByte, if_neg (by omega), if_neg (by omega), hxmm, vecByte_loadVecs hn hlo hhi]

/-- The upper halves of the YMM registers over the image they were loaded from. -/
theorem read_savedMemory_ymmHi_of_loaded {v : VecFile}
    (hymm : s.ymmHi = loadVecs s.mem ar.laxa.toNat s.cfg.extOff (nVec s.mode) v) :
    ∀ o ∈ avxBytes s.mode s.cfg.extOff,
      (savedMemory d w s ar).read (ar.laxa.toNat + o) = s.mem.read (ar.laxa.toNat + o) := by
  intro o ho
  obtain ⟨hlo, hhi⟩ := mem_span.1 ho
  have hn := nVec_le_sixteen s.mode
  refine read_savedMemory_of_same hwf ?_
  obtain ⟨k, rfl⟩ := Nat.exists_eq_add_of_le hlo
  rw [savedByte_avx hv, hymm, vecByte_loadVecs hn hlo hhi]

end StoreLoaded

section Loaded

variable {d : Draws} {w : Bool} {s : State} {ar : Area} {k : Masks}

theorem restoredX87_of_loads (h : k.loads 0 = true) : restoredX87 d w s ar k = loadX87 d w s.mem ar.laxa.toNat := by
  obtain ⟨hr, hl⟩ := Bool.and_eq_true_iff.1 h
  rw [restoredX87, if_pos hr, if_pos hl]

theorem restoredXmm_of_loads (h : k.loads 1 = true) :
    restoredXmm s ar k = loadVecs s.mem ar.laxa.toNat 160 (nVec s.mode) s.xmm := by
  obtain ⟨hr, hl⟩ := Bool.and_eq_true_iff.1 h
  rw [restoredXmm, if_pos hr, if_pos hl]

theorem restoredMxcsr_of_loads (hf : k.compmask.getLsbD 63 = true) (h : k.loads 1 = true) :
    restoredMxcsr s ar k = readMxcsr s.mem ar.laxa.toNat := by
  obtain ⟨hr, hl⟩ := Bool.and_eq_true_iff.1 h
  rw [restoredMxcsr_compacted hf, if_pos hr, if_pos hl]

theorem restoredYmmHi_of_loads (h : k.loads 2 = true) :
    restoredYmmHi s ar k = loadVecs s.mem ar.laxa.toNat (k.avxBase s.cfg) (nVec s.mode) s.ymmHi := by
  obtain ⟨hr, hl⟩ := Bool.and_eq_true_iff.1 h
  rw [restoredYmmHi, if_pos hr, if_pos hl]

theorem compacted_of_form (h : k.form = .compacted) : k.compmask.getLsbD 63 = true := by
  by_contra hc
  rw [form_eq_standard (eq_false_of_ne_true hc)] at h
  cases h

end Loaded

/-- Settles O57: the XRSTOR left in the registers what the area holds, so a byte the XSAVES stores gets the value it had; x87 state
apart from its reserved bytes. -/
theorem restoreThenSaveKeepsImage : Obligations.RestoreThenSaveKeepsImage := by
  intro i j s t u hi hj hwide ⟨hwf, _⟩ hrestore hsave hla hform k la
  have hf : k.compmask.getLsbD 63 = true := compacted_of_form hform
  obtain ⟨-, -, ht⟩ := exec_restore_next hi hrestore
  have hmem : t.mem = s.mem := by rw [ht, xrstorDone_mem]
  have hcfg : t.cfg = s.cfg := by rw [ht, xrstorDone_cfg]
  have hmode : t.mode = s.mode := by rw [ht, xrstorDone_mode]
  obtain ⟨⟨hv, -⟩, -, rfl⟩ := exec_save_next hj hsave
  rw [xsavesDone_mem, hwide, ← hmem, ← hcfg, ← hmode, show la = (areaOf t (operandOf j)).laxa.toNat by rw [hla]]
  rw [← hmem] at hwf
  refine ⟨fun hl d => loadX87_savedMemory_of_loaded hv hwf (d' := Draws.at s.draws) ?_, fun hl =>
    ⟨readMxcsr_savedMemory_of_loaded hv hwf ?_, read_savedMemory_xmm_of_loaded hv hwf (v := s.xmm) ?_⟩,
    fun hl => read_savedMemory_ymmHi_of_loaded hv hwf (v := s.ymmHi) ?_⟩
  · rw [hmem, hla, ht, xrstorDone_x87, restoredX87_of_loads hl, hwide]
  · rw [hmem, hla, ht, xrstorDone_mxcsr, restoredMxcsr_of_loads hf hl]
  · rw [hmem, hla, hmode, ht, xrstorDone_xmm, restoredXmm_of_loads hl]
  · rw [hmem, hla, hmode, hcfg, ht, xrstorDone_ymmHi, restoredYmmHi_of_loads hl, avxBase_compacted hf (hcfg ▸ hv)]

end Sys2Proof.Machine
end

section
/-! Exceptions (60_exceptions.md R200 to R212): when the pre-checks raise #UD and #NM, and which exceptions, with which error code and
address, an instruction can raise in each mode. -/

namespace Sys2Proof.Machine

open Sys2Proof

/-! ### The pre-checks (R202, R203, R208; 40_xrstor.md R148, 41_xsaves.md R180) -/

/-- The condition of #UD (R202). -/
def invalidOpcode (i : Instr) (s : State) : Bool :=
  !s.cfg.xsave || !s.osxsave || i.pfxs.any Pfx.forbidden || (i.saves && !s.cfg.xss)

/-- The pre-checks of the form. -/
def preStop (i : Instr) (s : State) : Option Stop :=
  if i.saves then xsavesPreStop s i.pfxs else xrstorPreStop s i.pfxs

theorem forbidden_iff {p : Pfx} : p.forbidden = true ↔ p = .lock ∨ p = .opSize ∨ p = .repF3 ∨ p = .repF2 := by
  cases p <;> simp [Pfx.forbidden]

theorem invalidOpcode_iff {i : Instr} {s : State} : invalidOpcode i s = true ↔
    s.cfg.xsave = false ∨ s.osxsave = false ∨ (∃ p ∈ i.pfxs, p = .lock ∨ p = .opSize ∨ p = .repF3 ∨ p = .repF2) ∨
      (i.saves = true ∧ s.cfg.xss = false) := by
  simp [invalidOpcode, forbidden_iff, or_assoc]

theorem invalidOpcode_eq_false {i : Instr} {s : State} : invalidOpcode i s = false ↔
    s.cfg.xsave = true ∧ s.osxsave = true ∧ i.pfxs.any Pfx.forbidden = false ∧ (i.saves = true → s.cfg.xss = true) := by
  simp [invalidOpcode, and_assoc]

/-- The pre-checks of the four forms, in order (R212): #UD, #NM, and of the writing forms privilege and VMX operation. -/
theorem preStop_eq (i : Instr) (s : State) : preStop i s =
    if invalidOpcode i s then some (.raise .ud none none)
    else if s.ts then some (.raise .nm none none)
    else if i.saves = true ∧ s.cpl ≠ 0#2 then some (gpZero s.mode)
    else if i.saves = true ∧ s.vmxnr = true then some (.refuse .vmxXsaves)
    else none := by
  cases hi : i.saves with
  | false => simp [preStop, hi, xrstorPreStop, invalidOpcode]
  | true => simp [preStop, hi, xsavesPreStop, invalidOpcode, or_assoc, or_comm, or_left_comm]

theorem preStop_eq_ud {i : Instr} {s : State} : preStop i s = some (.raise .ud none none) ↔ invalidOpcode i s = true := by
  rw [preStop_eq]
  cases invalidOpcode i s with
  | true => simp
  | false =>
    simp only [Bool.false_eq_true, if_false, iff_false]
    split_ifs <;> simp [gpZero]

theorem preStop_eq_nm {i : Instr} {s : State} (hud : invalidOpcode i s = false) :
    preStop i s = some (.raise .nm none none) ↔ s.ts = true := by
  rw [preStop_eq, hud]
  cases s.ts with
  | true => simp
  | false =>
    simp only [Bool.false_eq_true, if_false, iff_false]
    split_ifs <;> simp [gpZero]

/-- A pre-check raises #UD, #NM or #GP. -/
theorem preStop_raises {i : Instr} {s : State} {x : Exc} {code : Option (BitVec 32)} {info : Option Word64}
    (h : preStop i s = some (.raise x code info)) :
    ((x = .ud ∨ x = .nm) ∧ code = none ∧ info = none) ∨ (x = .gp ∧ code = errZero s.mode ∧ info = none) := by
  rw [preStop_eq] at h
  split_ifs at h
  · cases h
    exact .inl ⟨.inl rfl, rfl, rfl⟩
  · cases h
    exact .inl ⟨.inr rfl, rfl, rfl⟩
  · cases h
    exact .inr ⟨rfl, rfl, rfl⟩
  · cases h

theorem cpl_eq_zero_of_preStop {i : Instr} {s : State} (h : preStop i s = none) (hi : i.saves = true) : s.cpl = 0#2 := by
  rw [preStop, if_pos hi, xsavesPreStop_eq_none] at h
  obtain ⟨-, -, -, -, -, hcpl, -⟩ := h
  exact hcpl

/-! ### Where an exception comes from -/

section Faults

variable {i : Instr} {s post : State} {st : Stop} {x : Exc} {code : Option (BitVec 32)} {info : Option Word64}

theorem Stop.outcome_eq_fault :
    st.outcome s = .fault (.exception x code info post) ↔ st = .raise x code info ∧ post = s := by
  cases st with
  | raise x' code' info' => simp [Stop.outcome, raiseExc, and_assoc, eq_comm]
  | refuse r => simp [Stop.outcome]

/-- The early checks of XRSTOR: launch premises and pre-checks, then those that read the area. -/
theorem xrstorEarly_eq (d : Draws) (s : State) (o : Operand) : xrstorEarly d s o =
    (firstStop [launchStop s o.len, xrstorPreStop s o.pfx]).or (firstStop
      [addressChecks d s (areaOf s o) .read true (headerMin s.cfg) (headerMax s.cfg),
        if headerBad s (areaOf s o) (xrstorMasks s (areaOf s o)) then some (gpZero s.mode) else none]) := by
  simp only [xrstorEarly, firstStop_cons, firstStop_nil, Option.or_none, Option.or_assoc]

/-- Where a launch premise or a pre-check stops, nothing has changed. -/
theorem exec_of_preStop (h : firstStop [launchStop s i.length, preStop i s] = some st) : exec i s = st.outcome s := by
  cases hi : i.saves with
  | false =>
    rw [preStop, hi, if_neg Bool.false_ne_true] at h
    have hearly : xrstorEarly (Draws.at s.draws) s (operandOf i) = some st := by
      rw [xrstorEarly_eq]
      exact Option.or_eq_some_iff.2 (.inl h)
    rw [exec_restore hi]
    simp only [xrstorStep, hearly]
  | true =>
    rw [preStop, if_pos hi] at h
    have hearly : xsavesEarly s (operandOf i) = some st := h
    rw [exec_save hi]
    simp only [xsavesStep, hearly]

/-- What reading or writing the area raises: the #GP of an illegal header or MXCSR image, or an exception of the address checks. -/
def AreaRaises (i : Instr) (s : State) (x : Exc) (code : Option (BitVec 32)) (info : Option Word64) : Prop :=
  (x = .gp ∧ code = errZero s.mode ∧ info = none) ∨
    ∃ acc first min max, addressChecks (Draws.at s.draws) s (areaOf s (operandOf i)) acc first min max = some (.raise x code info)

/-- A pass of XRSTOR: the address checks, then the check of what was read. -/
theorem areaRaises_of_pass {acc : Access} {first bad : Bool} {min max : List Nat}
    (h : firstStop [addressChecks (Draws.at s.draws) s (areaOf s (operandOf i)) acc first min max,
      if bad then some (gpZero s.mode) else none] = some (.raise x code info)) : AreaRaises i s x code info := by
  have hmem := mem_of_firstStop h
  simp only [List.mem_cons, List.not_mem_nil, or_false] at hmem
  obtain hcheck | hbad := hmem
  · exact .inr ⟨_, _, _, _, hcheck.symm⟩
  · cases bad with
    | false => simp at hbad
    | true => exact .inl (by simpa [gpZero] using hbad)

theorem areaRaises_of_restore (hi : i.saves = false) (hstop : firstStop [launchStop s i.length, preStop i s] = none)
    (h : exec i s = .fault (.exception x code info post)) : AreaRaises i s x code info := by
  rw [exec_restore hi, xrstorStep_fault] at h
  obtain ⟨hearly, -⟩ | ⟨-, hlate, -⟩ := h
  · rw [preStop, hi, if_neg Bool.false_ne_true] at hstop
    have hnone : firstStop [launchStop s (operandOf i).len, xrstorPreStop s (operandOf i).pfx] = none := hstop
    rw [xrstorEarly_eq, hnone, Option.none_or] at hearly
    exact areaRaises_of_pass hearly
  · exact areaRaises_of_pass hlate

theorem areaRaises_of_save (hi : i.saves = true) (hstop : firstStop [launchStop s i.length, preStop i s] = none)
    (h : exec i s = .fault (.exception x code info post)) : AreaRaises i s x code info := by
  rw [preStop, if_pos hi] at hstop
  have hnone : xsavesEarly s (operandOf i) = none := hstop
  rw [exec_save hi, xsavesStep_fault, hnone] at h
  obtain ⟨hearly, -⟩ | ⟨-, hcheck, -⟩ := h
  · cases hearly
  · exact .inr ⟨_, _, _, _, hcheck⟩

/-- An exception comes from a pre-check, or, these passed, from the area; the launch premises raise none. -/
theorem exec_fault_cases (h : exec i s = .fault (.exception x code info post)) :
    preStop i s = some (.raise x code info) ∨ (preStop i s = none ∧ AreaRaises i s x code info) := by
  cases hstop : firstStop [launchStop s i.length, preStop i s] with
  | some st =>
    rw [exec_of_preStop hstop, Stop.outcome_eq_fault] at h
    obtain ⟨rfl, -⟩ := h
    have hmem := mem_of_firstStop hstop
    simp only [List.mem_cons, List.not_mem_nil, or_false] at hmem
    obtain hlaunch | hpre := hmem
    · obtain ⟨r, hr⟩ := launchStop_refuses hlaunch.symm
      cases hr
    · exact .inl hpre.symm
  | none =>
    have hpre : preStop i s = none := firstStop_eq_none.1 hstop _ (by simp)
    cases hi : i.saves with
    | false => exact .inr ⟨hpre, areaRaises_of_restore hi hstop h⟩
    | true => exact .inr ⟨hpre, areaRaises_of_save hi hstop h⟩

/-- The area raises neither #UD nor #NM. -/
theorem AreaRaises.exc (h : AreaRaises i s x code info) : x = .gp ∨ x = .ss ∨ x = .ac ∨ x = .pf := by
  obtain ⟨hgp, -⟩ | ⟨acc, first, min, max, hcheck⟩ := h
  · exact .inl hgp
  · exact (addressChecks_raises hcheck).imp And.left (Or.imp And.left (Or.imp And.left And.left))

/-- #UD and #NM come from the pre-checks only. -/
theorem exec_raises_iff_preStop (hlaunch : launchStop s i.length = none) (hx : x = .ud ∨ x = .nm) :
    exec i s = .fault (.exception x none none s) ↔ preStop i s = some (.raise x none none) := by
  constructor
  · intro h
    obtain hpre | ⟨-, harea⟩ := exec_fault_cases h
    · exact hpre
    · have hother := harea.exc
      obtain rfl | rfl := hx <;> simp at hother
  · intro hpre
    have hstop : firstStop [launchStop s i.length, preStop i s] = some (.raise x none none) := by simp [hlaunch, hpre]
    exact exec_of_preStop hstop

end Faults

/-- Settles O27: the pre-checks raise #UD first, and nothing else raises it. -/
theorem invalidOpcodeRaisedExactly : Obligations.InvalidOpcodeRaisedExactly := by
  intro i s hcfg hscope hwrap
  rw [exec_raises_iff_preStop (launchStop_eq_none.2 ⟨hcfg, hscope, hwrap⟩) (.inl rfl), preStop_eq_ud, invalidOpcode_iff]

/-- Settles O28: the pre-checks raise #NM next, and nothing else raises it. -/
theorem deviceNotAvailableRaisedExactly : Obligations.DeviceNotAvailableRaisedExactly := by
  intro i s hcfg hscope hwrap hxsave hosxsave hpfx hxss
  have hud : invalidOpcode i s = false := invalidOpcode_eq_false.2 ⟨hxsave, hosxsave, hpfx, hxss⟩
  rw [exec_raises_iff_preStop (launchStop_eq_none.2 ⟨hcfg, hscope, hwrap⟩) (.inr rfl), preStop_eq_nm hud]

/-! ### The exceptions of each mode (R200, R201, R209 to R211) -/

/-- The exceptions an instruction may raise, each with its error code and address. -/
inductive MayRaise (i : Instr) (s : State) : Exc → Option (BitVec 32) → Option Word64 → Prop where
  | ud : MayRaise i s .ud none none
  | nm : MayRaise i s .nm none none
  | gp : MayRaise i s .gp (errZero s.mode) none
  | ss (hmode : s.mode ≠ .real) : MayRaise i s .ss (some 0) none
  | ac (hmode : s.mode ≠ .real) (hsaves : i.saves = false) (hcpl : s.cpl = 3#2) : MayRaise i s .ac (some 0) none
  | pf (hmode : s.mode ≠ .real) (code : BitVec 32) (la : Word64) : MayRaise i s .pf (some code) (some la)

theorem cpl_eq_three_of_acEnabled {s : State} (h : s.acEnabled = true) : s.cpl = 3#2 := by
  simp only [State.acEnabled, Bool.and_eq_true, beq_iff_eq] at h
  exact h.2

/-- XSAVES judges alignment at CPL 0 only, where alignment checking is not enabled. -/
theorem mayRaise_of_exec_fault {i : Instr} {s post : State} {x : Exc} {code : Option (BitVec 32)} {info : Option Word64}
    (h : exec i s = .fault (.exception x code info post)) : MayRaise i s x code info := by
  obtain hpre | ⟨hpre, ⟨rfl, rfl, rfl⟩ | ⟨acc, first, min, max, hcheck⟩⟩ := exec_fault_cases h
  · obtain ⟨rfl | rfl, rfl, rfl⟩ | ⟨rfl, rfl, rfl⟩ := preStop_raises hpre
    · exact .ud
    · exact .nm
    · exact .gp
  · exact .gp
  · obtain ⟨rfl, rfl, rfl⟩ | ⟨rfl, rfl, rfl, -, hmode⟩ | ⟨rfl, rfl, rfl, -, hac, hmode⟩ |
      ⟨rfl, hmode, -, o, -, rfl, c, rfl, -⟩ := addressChecks_raises hcheck
    · exact .gp
    · exact .ss hmode
    · have hcpl := cpl_eq_three_of_acEnabled hac
      refine .ac hmode (Bool.eq_false_iff.2 fun hi => ?_) hcpl
      exact absurd (hcpl.symm.trans (cpl_eq_zero_of_preStop hpre hi)) (by decide)
    · exact .pf hmode _ _

theorem errZero_real {mode : Mode} (h : mode = .real) : errZero mode = none := if_pos h

theorem errZero_of_ne_real {mode : Mode} (h : mode ≠ .real) : errZero mode = some 0 := if_neg h

/-- Settles O44: each exception an instruction may raise has the code, the address and the modes stated. -/
theorem exceptionsPerMode : Obligations.ExceptionsPerMode := by
  intro i s post x code info h
  cases mayRaise_of_exec_fault h with
  | ud => simp
  | nm => simp
  | gp => simp +contextual [errZero_real, errZero_of_ne_real]
  | ss hmode => simp [hmode]
  | ac hmode hsaves hcpl => simp [hmode, hsaves, hcpl]
  | pf hmode code la => simp [hmode]

end Sys2Proof.Machine
end

section
/-! Where the step finds its instruction (70_reset_and_hazards.md R251, 10_state.md R43): in the program text at CS:RIP, and
outside the text nowhere. -/

namespace Sys2Proof.Machine

open Sys2Proof

theorem Text.has_iff {t : Text} {a : Nat} : t.has a = true ↔ t.start ≤ a ∧ a < t.start + t.bytes.length := by
  simp only [Text.has, Bool.and_eq_true, decide_eq_true_eq]

/-- What is fetched at an offset into the text is the text from that offset on, unless nothing is left of it there. -/
theorem fetchBytes_of_text_append {s : State} {before bs : List Byte} (htext : s.text.bytes = before ++ bs)
    (haddr : s.fetchAddress = s.text.start + before.length) (hne : bs ≠ []) : fetchBytes s = some bs := by
  have hpos : 0 < bs.length := List.length_pos_of_ne_nil hne
  have hhas : s.text.has s.fetchAddress = true :=
    Text.has_iff.2 ⟨by omega, by rw [htext, List.length_append]; omega⟩
  rw [fetchBytes, if_pos hhas, haddr, Nat.add_sub_cancel_left, htext, List.drop_left]

/-- Every encoding has a byte (R101). -/
theorem encode_ne_nil (i : Instr) : encode i ≠ [] := by
  obtain ⟨hlen, hmin⟩ := Laws.encodedLength_of i
  exact List.ne_nil_of_length_pos (by omega)

/-- Settles O7: the encoding and what follows it are fetched, and the decoder reads the instruction back from them. -/
theorem stepRunsEncodedInstruction : Obligations.StepRunsEncodedInstruction := by
  intro s before after i hi htext haddr
  have hbytes : fetchBytes s = some (encode i ++ after) :=
    fetchBytes_of_text_append (by rw [htext, List.append_assoc]) haddr
      (List.append_ne_nil_of_left_ne_nil (encode_ne_nil i) after)
  exact stepRunsDecodedInstruction s _ after i hbytes (decodeEncodeRoundTrip s.decodeCtx i after hi)

/-- Outside the text no byte is fetched. -/
theorem fetchBytes_of_outside {s : State} (h : s.text.has s.fetchAddress = false) : fetchBytes s = none :=
  if_neg (Bool.eq_false_iff.1 h)

/-- Without a byte to fetch the step refuses (log 41). -/
theorem step_of_fetchBytes_none {s : State} (h : fetchBytes s = none) : step s = .refused (noBytes s) := by
  simp only [step, fetch, h]

/-- The name of that refusal says whether the run has ended (R251 (a), log 41). -/
theorem noBytes_eq (s : State) :
    noBytes s =
      if s.fetchAddress = (s.text.start + s.text.bytes.length) % 2 ^ linBits s.mode then .runEnded else .outsideText := by
  simp only [noBytes, State.final, decide_eq_true_eq]

/-- Settles O8: outside the text nothing is fetched, so the step refuses, by the name for where CS:RIP points. -/
theorem stepOutsideTextRefuses : Obligations.StepOutsideTextRefuses := by
  intro s h
  rw [step_of_fetchBytes_none (fetchBytes_of_outside h), noBytes_eq]

end Sys2Proof.Machine
end
